-- ==== Sys2Proof/Word.lean ====
section
/-! DEFINITION. The machine's word types: a 32-bit register or command word, a byte (a symbol), and a binary64 bit pattern. -/
namespace Sys2Proof

/-- A 32-bit register value or command word (10_state.md R23). -/
abbrev Word := BitVec 32

/-- One byte: a symbol pushed into an operand buffer (30_encoding.md R102). -/
abbrev Symbol := BitVec 8

/-- A binary64 bit pattern (00_scope.md R11, R12). -/
abbrev F64 := BitVec 64

/-- The byte offset of a register in the 1024-byte window (20_memory.md R60). -/
abbrev Offset := BitVec 10

end Sys2Proof
end

