-- ==== Sys2Proof/Config.lean ====
section
/-! DEFINITION. What the spec leaves open: the OPEN parameters of 00_scope.md R7, and the free values behind every `any()`.
Each is a constant without a body, so nothing can be proved about its value, and a claim holds for every value of it. -/
namespace Sys2Proof

/-- The BLOCK_BASE parameter counted in KiB, so that the base is 1 KiB aligned by construction (R7, R60). Log entry 4. -/
opaque Config.baseKiB : Nat

/-- The sign and the low 51 fraction bits of the `k`-th NaN an operation produces (decision D11). Log entry 5. -/
opaque Config.nanBits : Nat → BitVec 52

/-- The bits behind the OPEN function cos64 (43_integrator.md R193); `cos64` bends them to R193's properties. Log entry 6. -/
opaque Config.cosBits : F64 → F64

/-- The bits behind the OPEN function sin64 (43_integrator.md R193); `sin64` bends them to R193's properties. Log entry 6. -/
opaque Config.sinBits : F64 → F64

/-- The word the `k`-th host read returns where the spec says `any()` (20_memory.md R78, 10_state.md R43). Log entry 7. -/
opaque Config.freeWord : Nat → Word

/-- What entry `i` of internal memory `m` holds before anything is written to it (70_reset_and_hazards.md R281: `any()`). Log entry 9. -/
opaque Config.unwrittenEntry : Nat → Nat → F64

/-- How many host accesses come between the `k`-th issue and its completion, if the host makes that many
(44_pipeline_control.md R221, 70_reset_and_hazards.md R292: finite, no bound). Log entry 2. -/
opaque Config.latency : Nat → Nat

/-- Whether the `k`-th command has completed where a program ends before the host has seen its completion
(70_reset_and_hazards.md R294: both are admitted). Log entry 8. -/
opaque Config.completedAtEnd : Nat → Bool

/-- What the `k`-th command leaves at a place of its result registers where a program ends before the host has seen its
completion (R294: undetermined). Log entry 8. -/
opaque Config.endBits : Nat → Nat → BitVec 64

/-- BLOCK_BASE: the host address of offset 0x000 (R7, R60). -/
def Config.blockBase : Nat := 1024 * Config.baseKiB

/-- The host address of the register at byte offset `o` (R60). -/
def Config.hostAddress (o : Offset) : Nat := Config.blockBase + o.toNat

end Sys2Proof
end

