-- ==== Sys2Proof/Syntax.lean ====
section
/-! DEFINITION. The commands of the block, one constructor for each row of spec/opcode_table.json (30_encoding.md R91).
No command has an operand in its word (R90). -/
namespace Sys2Proof

/-- A command: the part an instruction plays in an ISA (00_scope.md R13). -/
inductive Instr where
  /-- NOP (44_pipeline_control.md R223) -/
  | nop
  /-- PARSE (40_frame_extract.md R121) -/
  | parse
  /-- DECODE_ID (40_frame_extract.md R123) -/
  | decodeId
  /-- DECODE_TS (40_frame_extract.md R124) -/
  | decodeTs
  /-- DECODE_DATA (40_frame_extract.md R125) -/
  | decodeData
  /-- VERIFY (41_checksum.md R152) -/
  | verify
  /-- CALIBRATE (42_calibrate.md R171) -/
  | calibrate
  /-- PROCESS_FRAME (44_pipeline_control.md R224) -/
  | processFrame
  /-- INTEGRATE (43_integrator.md R194) -/
  | integrate
  /-- CLR_SAMPLES (43_integrator.md R195) -/
  | clrSamples
  deriving DecidableEq, Repr

end Sys2Proof
end

