-- ==== Sys2Proof/WellFormed.lean ====
section
/-! DEFINITION. The checks on what is given to the machine from outside: a command, a command word, an instance's parameters. -/
namespace Sys2Proof

/-- Every command is well formed: format C has no operand field that could hold a bad value (30_encoding.md R90). -/
def Instr.wellFormed : Instr → Bool
  | .nop | .parse | .decodeId | .decodeTs | .decodeData | .verify | .calibrate | .processFrame | .integrate | .clrSamples => true

/-- A command word's MBZ field, bits 31:8, is zero (R90). -/
def wordMbzOk (w : Word) : Bool := w.extractLsb' 8 24 == 0

/-- A command word's OP field, bits 7:0, is one of 0x00 to 0x09 (R91, R92). -/
def wordOpOk (w : Word) : Bool := (w.extractLsb' 0 8).toNat ≤ 0x09

/-- A word that selects a command: not illegal in the sense of R92. -/
def wordLegal (w : Word) : Bool := wordMbzOk w && wordOpOk w

/-- CAL_DEPTH is in 1..2048 (00_scope.md R7). -/
def calDepthLegal (d : BitVec 12) : Bool := 1 ≤ d.toNat && d.toNat ≤ 2048

/-- SAMPLE_DEPTH is in 1..65534 (00_scope.md R7). -/
def sampleDepthLegal (d : BitVec 16) : Bool := 1 ≤ d.toNat && d.toNat ≤ 65534

end Sys2Proof
end

