-- ==== Sys2Proof/Decode.lean ====
section
/-! DEFINITION. The opcode map (30_encoding.md R91), the decoder, total on every 32-bit word and rejecting by name (R92, R93),
and after it the encoder. -/
namespace Sys2Proof

/-- Why a word selects no command (R92). -/
inductive Reject where
  /-- bits 31:8 are not zero -/
  | reservedBits
  /-- bits 31:8 are zero and the opcode is in 0x0A to 0xFF -/
  | reservedOpcode
  deriving DecidableEq, Repr

/-- One row of the opcode map: the match and the mask are over the whole word. -/
structure OpcodeRow where
  instr : Instr
  pattern : Word
  mask : Word
  deriving DecidableEq, Repr

/-- The opcode map of R91, in its order. -/
def opcodeMap : List OpcodeRow :=
  [ ⟨.nop, 0x00000000#32, 0xFFFFFFFF#32⟩,
    ⟨.parse, 0x00000001#32, 0xFFFFFFFF#32⟩,
    ⟨.decodeId, 0x00000002#32, 0xFFFFFFFF#32⟩,
    ⟨.decodeTs, 0x00000003#32, 0xFFFFFFFF#32⟩,
    ⟨.decodeData, 0x00000004#32, 0xFFFFFFFF#32⟩,
    ⟨.verify, 0x00000005#32, 0xFFFFFFFF#32⟩,
    ⟨.calibrate, 0x00000006#32, 0xFFFFFFFF#32⟩,
    ⟨.processFrame, 0x00000007#32, 0xFFFFFFFF#32⟩,
    ⟨.integrate, 0x00000008#32, 0xFFFFFFFF#32⟩,
    ⟨.clrSamples, 0x00000009#32, 0xFFFFFFFF#32⟩ ]

/-- The first row of a table whose pattern the word has under the row's mask. -/
def findRow (w : Word) : List OpcodeRow → Option Instr
  | [] => none
  | r :: rest => if w &&& r.mask = r.pattern then some r.instr else findRow w rest

/-- The decoder: the row the whole word equals, or the reason it is illegal (R92, R93). -/
def decode (w : Word) : Except Reject Instr :=
  match findRow w opcodeMap with
  | some i => .ok i
  | none => if wordMbzOk w then .error .reservedOpcode else .error .reservedBits

/-- The opcode of a command (R91). -/
def opcodeOf : Instr → BitVec 8
  | .nop => 0x00#8
  | .parse => 0x01#8
  | .decodeId => 0x02#8
  | .decodeTs => 0x03#8
  | .decodeData => 0x04#8
  | .verify => 0x05#8
  | .calibrate => 0x06#8
  | .processFrame => 0x07#8
  | .integrate => 0x08#8
  | .clrSamples => 0x09#8

/-- The word of a command: format C, MBZ above the opcode (R90). -/
def encode (i : Instr) : Word := 0#24 ++ opcodeOf i

/-- The command word whose bits, as spec/opcode_table.json numbers them, are `w` (a row has `nbits` = 32 bits; bits above
`nbits` are zero). -/
def tableWord (nbits w : Nat) : Word := BitVec.ofNat 32 (w % 2 ^ nbits)

/-- What the decoder reads from a table row's word. -/
def decodeTableWord (nbits w : Nat) : Option Instr :=
  match decode (tableWord nbits w) with
  | .ok i => some i
  | .error _ => none

end Sys2Proof
end

