-- ==== Sys2Proof/Machine/State.lean ====
section
/-! DEFINITION. The block's state (10_state.md R20 to R46) as plain data, its reset values (70_reset_and_hazards.md R281),
and the model's own state beside it: what the host is still going to do and what the spec leaves free. -/
namespace Sys2Proof.Machine

/-- Why the machine would stop with a fault. It has no constructor: no behaviour of the block is stuck
(93_implementation_defined.md, 70_reset_and_hazards.md R292), and an error is a completion, not a stop (60_exceptions.md
R251). Nothing raises it, which is safe. Log entry 18. -/
inductive Fault where
  deriving DecidableEq, Repr

/-- Why an instruction has no meaning. Safe: the model stops. -/
inductive Refusal where
  /-- Raised by an arm of `exec` whose instruction has no meaning yet; no arm does. Safe: the model stops. -/
  | notModelled (mnemonic : String)
  deriving DecidableEq, Repr

/-- The error codes of STATUS.ERR (60_exceptions.md R250); codes 8 to 15 are never produced, so they are not here. -/
inductive ErrCode where
  | ok
  | lengthMismatch
  | typeMismatch
  | unknownSensorId
  | decodeError
  | illegalCommand
  | notConfigured
  | capacityExceeded
  deriving DecidableEq, Repr

/-- A sparse internal memory: (index, entry) pairs, the indexes strictly rising (`Table.wf`). -/
abbrev Table (α : Type) := List (Nat × α)

/-- A sample or position memory: entries of binary64 (10_state.md R42, R43). -/
abbrev Memory := Table F64

/-- One entry of the calibration table: weight, bias, and the entry-exists flag (10_state.md R35). -/
structure CalEntry where
  w : F64
  b : F64
  v : Bool
  deriving DecidableEq, Repr

/-- The value every calibration entry has after reset (R35). -/
def CalEntry.zero : CalEntry := { w := 0#64, b := 0#64, v := false }

/-- An operand buffer (10_state.md R36). Bit k of `bits` is BITS[k], the bit of the symbol at position k. -/
structure OpBuf where
  count : BitVec 16
  bad : Bool
  badSym : Symbol
  badPos : BitVec 16
  bits : BitVec 128
  deriving DecidableEq, Repr

/-- The empty operand buffer, as reset and OPx_CTL leave it (R36, 20_memory.md R69). -/
def OpBuf.empty : OpBuf := { count := 0#16, bad := false, badSym := 0#8, badPos := 0#16, bits := 0#128 }

/-- The 14 fields of a frame at their widths, in protocol order (10_state.md R40, 30_encoding.md R95). -/
structure Fields where
  sof : BitVec 1
  id : BitVec 11
  stuff : BitVec 1
  ide : BitVec 1
  rsvd : BitVec 1
  msgLen : BitVec 4
  ts : BitVec 16
  data : BitVec 64
  crc : BitVec 15
  crcDel : BitVec 1
  ack : BitVec 1
  ackDel : BitVec 1
  eof : BitVec 1
  ifs : BitVec 3
  deriving DecidableEq, Repr

/-- The field registers after reset (R40). -/
def Fields.zero : Fields :=
  { sof := 0#1, id := 0#11, stuff := 0#1, ide := 0#1, rsvd := 0#1, msgLen := 0#4, ts := 0#16, data := 0#64, crc := 0#15,
    crcDel := 0#1, ack := 0#1, ackDel := 0#1, eof := 0#1, ifs := 0#3 }

/-- One sample sequence of the integrator: its memory, its length register and its low-half latch (10_state.md R42). -/
structure SampleSeq where
  mem : Memory
  len : BitVec 16
  latch : Word
  deriving DecidableEq, Repr

/-- A sample sequence after reset: length 0, latch 0, memory contents unspecified, so nothing listed (R42, R281). -/
def SampleSeq.empty : SampleSeq := { mem := [], len := 0#16, latch := 0#32 }

/-- The block's state: every register and internal memory of 10_state.md. -/
structure Block where
  /-- CAL_DEPTH, the instance's parameter that PARAMS shows (00_scope.md R7, R27); no step changes it -/
  calDepth : BitVec 12
  /-- SAMPLE_DEPTH, the instance's parameter that PARAMS shows (R7, R27); no step changes it -/
  sampleDepth : BitVec 16
  /-- PENDING, the latched command word (R24, R46) -/
  pending : Word
  /-- STATUS.BUSY (R25) -/
  busy : Bool
  /-- STATUS.ERR (R25) -/
  err : ErrCode
  /-- STATUS.WRBUSY (R25) -/
  wrBusy : Bool
  /-- STATUS.CFGERR (R25) -/
  cfgErr : Bool
  /-- STATUS.LAST_OP (R25) -/
  lastOp : BitVec 8
  /-- CTRL.CFG_LOCK (R28), which STATUS.CFG_LOCKED copies -/
  cfgLock : Bool
  /-- ERR_INFO (R29) -/
  errInfo : Word
  /-- ERR_EXPECTED (R30) -/
  errExpected : Word
  /-- ERR_ACTUAL (R30) -/
  errActual : Word
  /-- SENSOR_COUNT (R31) -/
  sensorCount : BitVec 12
  /-- CAL_IDX (R32) -/
  calIdx : BitVec 11
  /-- CAL (R35); an entry that is not listed is `CalEntry.zero` -/
  cal : Table CalEntry
  /-- OPA (R36) -/
  opa : OpBuf
  /-- OPB (R36) -/
  opb : OpBuf
  /-- CAL_ID_IN (R39) -/
  calIdIn : BitVec 11
  /-- RAW = {RAW_HI, RAW_LO} (R39) -/
  raw : F64
  /-- FLD_SOF to FLD_IFS (R40) -/
  fields : Fields
  /-- RES_ID (R41) -/
  resId : BitVec 11
  /-- RES_TS (R41) -/
  resTs : F64
  /-- RES_DATA (R41) -/
  resData : F64
  /-- RES_CHK.SUM (R41) -/
  resSum : BitVec 15
  /-- RES_CHK.MATCH (R41) -/
  resMatch : Bool
  /-- RES_CAL (R41) -/
  resCal : F64
  /-- RES_FLAGS.READING_VALID (R41) -/
  readingValid : Bool
  /-- RES_FLAGS.CHECKSUM_OK (R41) -/
  checksumOk : Bool
  /-- SM_SPD, SPD_LEN, SPD_LATCH (R42) -/
  spd : SampleSeq
  /-- SM_TIM, TIM_LEN, TIM_LATCH (R42) -/
  tim : SampleSeq
  /-- SM_ANG, ANG_LEN, ANG_LATCH (R42) -/
  ang : SampleSeq
  /-- XM (R43) -/
  xm : Memory
  /-- YM (R43) -/
  ym : Memory
  /-- OUT_LEN (R43) -/
  outLen : BitVec 16
  /-- OUT_IDX (R43) -/
  outIdx : BitVec 16
  /-- THETA (R44) -/
  theta : F64
  /-- XACC (R44) -/
  xacc : F64
  /-- YACC (R44) -/
  yacc : F64
  deriving DecidableEq, Repr

/-- The block right after reset, for an instance with the given parameters (70_reset_and_hazards.md R281). -/
def Block.reset (calDepth : BitVec 12) (sampleDepth : BitVec 16) : Block :=
  { calDepth := calDepth, sampleDepth := sampleDepth,
    pending := 0#32, busy := false, err := .ok, wrBusy := false, cfgErr := false, lastOp := 0x00#8, cfgLock := false,
    errInfo := 0#32, errExpected := 0#32, errActual := 0#32,
    sensorCount := 15#12, calIdx := 0#11, cal := [],
    opa := OpBuf.empty, opb := OpBuf.empty, calIdIn := 0#11, raw := 0#64,
    fields := Fields.zero,
    resId := 0#11, resTs := 0#64, resData := 0#64, resSum := 0#15, resMatch := false, resCal := 0#64,
    readingValid := false, checksumOk := false,
    spd := SampleSeq.empty, tim := SampleSeq.empty, ang := SampleSeq.empty,
    xm := [], ym := [], outLen := 0#16, outIdx := 0#16,
    theta := 0#64, xacc := 0#64, yacc := 0#64 }

/-- What the host can do to the block: the base operations of its programs (30_encoding.md R103), and reset
(70_reset_and_hazards.md R280). -/
inductive HostOp where
  /-- `WR`: one 32-bit write at a byte offset -/
  | write (o : Offset) (v : Word)
  /-- `RD`: one 32-bit read at a byte offset -/
  | read (o : Offset)
  /-- `RDW`: read until `result &&& mask = value`, one read a step -/
  | readUntil (o : Offset) (mask value : Word)
  /-- assert reset -/
  | reset
  deriving DecidableEq, Repr

/-- The machine's state: the block, and the model's own fields for its surroundings. -/
structure State where
  /-- the block's own state (R20) -/
  blk : Block
  /-- what the host is still going to do, in its program order (20_memory.md R80). Log entry 1 -/
  ops : List HostOp
  /-- the results of the host's reads, the newest first. Log entry 1 -/
  replies : List Word
  /-- host accesses that still come before the pending command's completion (44_pipeline_control.md R221). Log entry 2 -/
  wait : Nat
  /-- commands issued so far: it numbers the free values of `Config.latency`. Log entry 2 -/
  issues : Nat
  /-- free values drawn so far: it numbers those of `Config.freeWord` and `Config.nanBits`. Log entry 11 -/
  draws : Nat
  /-- since the last issue or reset the host has read STATUS with BUSY = 0, or it has issued nothing
  (70_reset_and_hazards.md R294). Log entry 8 -/
  synced : Bool
  deriving DecidableEq, Repr

/-- The machine right after reset: the default instance (CAL_DEPTH = 16, SAMPLE_DEPTH = 1024, R7), and a host with nothing
to do and no command to wait for. Log entries 3, 8 and 13. -/
def State.reset : State :=
  { blk := Block.reset 16#12 1024#16, ops := [], replies := [], wait := 0, issues := 0, draws := 0,
    synced := true }

end Sys2Proof.Machine
end

