-- ==== Sys2Proof/Machine/Ops.lean ====
section
/-! DEFINITION. The named operations over the internal memories and the registers, and the two ways a command completes:
with an error (60_exceptions.md R251, the block's form of trap entry) and without one (44_pipeline_control.md R222).
There is no return from an error: nothing is to be restored (R256). -/
namespace Sys2Proof.Machine

/-- The indexes are strictly rising: the canonical form of an internal memory. -/
abbrev Table.wf {α : Type} (t : Table α) : Prop := t.Pairwise (fun a b => a.1 < b.1)

/-- The entry listed at an index. -/
def Table.get? {α : Type} : Table α → Nat → Option α
  | [], _ => none
  | (k, v) :: rest, i => if i = k then some v else Table.get? rest i

/-- List `v` at index `i`, in place of what stood there. -/
def Table.put {α : Type} : Table α → Nat → α → Table α
  | [], i, v => [(i, v)]
  | (k, w) :: rest, i, v =>
    if i < k then (i, v) :: (k, w) :: rest
    else if i = k then (i, v) :: rest
    else (k, w) :: Table.put rest i v

/-- List nothing at index `i`. -/
def Table.del {α : Type} : Table α → Nat → Table α
  | [], _ => []
  | (k, w) :: rest, i => if i = k then Table.del rest i else (k, w) :: Table.del rest i

/-- The canonical form of a sample or position memory. -/
abbrev Memory.wf (m : Memory) : Prop := Table.wf m

/-- Which internal memory: it numbers the free values of entries nothing has written. -/
inductive MemName where
  | smSpd
  | smTim
  | smAng
  | xm
  | ym
  deriving DecidableEq, Repr

/-- The number of an internal memory. -/
def MemName.index : MemName → Nat
  | .smSpd => 0
  | .smTim => 1
  | .smAng => 2
  | .xm => 3
  | .ym => 4

/-- Entry `i` of a memory; an entry nothing has written is a free value (70_reset_and_hazards.md R281). Log entry 9. -/
def Memory.read (name : MemName) (m : Memory) (i : Nat) : F64 :=
  (Table.get? m i).getD (Config.unwrittenEntry name.index i)

/-- Write entry `i` of a memory. -/
def Memory.write (m : Memory) (i : Nat) (v : F64) : Memory := Table.put m i v

/-- Entry `e` of the calibration table (10_state.md R35). -/
def calGet (cal : Table CalEntry) (e : Nat) : CalEntry := (Table.get? cal e).getD CalEntry.zero

/-- Store entry `e` of the calibration table; the reset value is not listed, so that equal tables are equal data. -/
def calSet (cal : Table CalEntry) (e : Nat) (x : CalEntry) : Table CalEntry :=
  if x = CalEntry.zero then Table.del cal e else Table.put cal e x

/-- The canonical form of the calibration table: indexes strictly rising, no entry at its reset value listed. -/
abbrev calWf (cal : Table CalEntry) : Prop := Table.wf cal ∧ ∀ p ∈ cal, p.2 ≠ CalEntry.zero

/-- Bits 31:0 of a 64-bit value: its _LO register (20_memory.md R65). -/
def lo32 (x : BitVec 64) : Word := x.extractLsb' 0 32

/-- Bits 63:32 of a 64-bit value: its _HI register (R65). -/
def hi32 (x : BitVec 64) : Word := x.extractLsb' 32 32

/-- The 64-bit value of a _HI and a _LO register (R65, 30_encoding.md R101). -/
def join64 (hi lo : Word) : BitVec 64 := hi ++ lo

/-- Write the _LO half of a 64-bit value. -/
def setLo32 (x : BitVec 64) (v : Word) : BitVec 64 := join64 (hi32 x) v

/-- Write the _HI half of a 64-bit value. -/
def setHi32 (x : BitVec 64) (v : Word) : BitVec 64 := join64 v (lo32 x)

/-- What `raise E(FIELD, OPERAND, SUBCODE, POSITION, EXPECTED, ACTUAL)` carries (60_exceptions.md R251). -/
structure Raise where
  code : ErrCode
  field : BitVec 8
  operand : BitVec 4
  subcode : BitVec 4
  position : BitVec 16
  expected : Word
  actual : Word
  deriving DecidableEq, Repr

/-- ERR_INFO = {POSITION, SUBCODE, OPERAND, FIELD} (R251, 10_state.md R29). -/
def packErrInfo (r : Raise) : Word := r.position ++ (r.subcode ++ (r.operand ++ r.field))

/-- Error completion of a command (R251): the error code and detail are written, BUSY becomes 0, nothing else changes. -/
def raiseError (r : Raise) (s : State) : State :=
  { s with blk := { s.blk with
      err := r.code, errInfo := packErrInfo r, errExpected := r.expected, errActual := r.actual, busy := false } }

/-- Successful completion of a command (44_pipeline_control.md R222): ERR = OK, zero error detail, BUSY becomes 0. -/
def succeed (s : State) : State :=
  { s with blk := { s.blk with
      err := .ok, errInfo := 0#32, errExpected := 0#32, errActual := 0#32, busy := false } }

/-- Issue of a command word (44_pipeline_control.md R220). The count of host accesses before its completion is free. -/
def issue (w : Word) (s : State) : State :=
  { s with
    blk := { s.blk with pending := w, busy := true, lastOp := w.extractLsb' 0 8, err := .ok }
    wait := Config.latency s.issues
    issues := s.issues + 1
    synced := false }

/-- The reset transition (70_reset_and_hazards.md R280, R281): every state element of the block, whatever was pending. -/
def resetBlock (s : State) : State :=
  { s with blk := Block.reset s.blk.calDepth s.blk.sampleDepth, wait := 0, synced := true }

/-- Completion of an illegal command word (30_encoding.md R92): the error and nothing else. -/
def illegalCommand (w : Word) (s : State) : State :=
  raiseError { code := .illegalCommand, field := 0xFF#8, operand := 7#4, subcode := 6#4, position := 0#16,
               expected := 0#32, actual := w } s

/-- `NotConfigured`, which a command that needs the locked configuration raises before the lock (60_exceptions.md R252). -/
def notConfigured : Raise :=
  { code := .notConfigured, field := 0xFF#8, operand := 0#4, subcode := 7#4, position := 0#16, expected := 1#32, actual := 0#32 }

end Sys2Proof.Machine
end

