-- ==== Sys2Proof/Machine/Operands.lean ====
section
/-! DEFINITION. The operand forms: a bit string in an operand buffer and its shape check (30_encoding.md R97,
40_frame_extract.md R120), the frame layout and its fields (R94, R95), and the payload's bytes (R100). -/
namespace Sys2Proof.Machine

/-- `val(X, w)` as a number: the sum over k < w of BITS[k] * 2^(w-1-k), built from position 0 on (30_encoding.md R97). -/
def valNat (bits : BitVec 128) : Nat → Nat
  | 0 => 0
  | w + 1 => 2 * valNat bits w + (bits.getLsbD w).toNat

/-- `val(X, w)` (R97). -/
def val (x : OpBuf) (w : Nat) : BitVec w := BitVec.ofNat w (valNat x.bits w)

/-- The mode of a shape check: the parser and the checksum unit, or a field decoder (40_frame_extract.md R120). -/
inductive ShapeMode where
  | parser
  | decoder
  deriving DecidableEq, Repr

/-- The error for a non-bit symbol (R120). -/
def ShapeMode.symbolError : ShapeMode → ErrCode
  | .parser => .typeMismatch
  | .decoder => .decodeError

/-- The error for a wrong length (R120). -/
def ShapeMode.lengthError : ShapeMode → ErrCode
  | .parser => .lengthMismatch
  | .decoder => .decodeError

/-- The error of a buffer that holds a non-bit symbol (R120, 60_exceptions.md R252). -/
def symbolRaise (x : OpBuf) (opn : BitVec 4) (j : BitVec 8) (code : ErrCode) : Raise :=
  { code := code, field := j, operand := opn, subcode := 2#4, position := x.badPos, expected := 0x00003130#32,
    actual := x.badSym.zeroExtend 32 }

/-- The error of a buffer whose COUNT is not the required width (R120, R252). -/
def lengthRaise (x : OpBuf) (opn : BitVec 4) (w : Nat) (j : BitVec 8) (code : ErrCode) : Raise :=
  { code := code, field := j, operand := opn, subcode := 1#4, position := 0#16, expected := BitVec.ofNat 32 w,
    actual := x.count.zeroExtend 32 }

/-- `CheckShape(X, w, j, mode)`: the first error, the symbol before the length (R120); `opn` is 1 for OPA, 2 for OPB. -/
def checkShape (x : OpBuf) (opn : BitVec 4) (w : Nat) (j : BitVec 8) (mode : ShapeMode) : Option Raise :=
  if x.bad then some (symbolRaise x opn j mode.symbolError)
  else if x.count.toNat ≠ w then some (lengthRaise x opn w j mode.lengthError)
  else none

/-- One field of the layout: its width and the position of its first symbol (30_encoding.md R95). -/
structure LayoutField where
  width : Nat
  offset : Nat
  deriving DecidableEq, Repr

/-- The 14 fields in protocol order (R95). -/
def frameLayout : List LayoutField :=
  [⟨1, 0⟩, ⟨11, 1⟩, ⟨1, 12⟩, ⟨1, 13⟩, ⟨1, 14⟩, ⟨4, 15⟩, ⟨16, 19⟩, ⟨64, 35⟩, ⟨15, 99⟩, ⟨1, 114⟩, ⟨1, 115⟩, ⟨1, 116⟩,
   ⟨1, 117⟩, ⟨3, 118⟩]

/-- LAYOUT_j = {16'b0, OFFSET_j[7:0], WIDTH_j[7:0]} (10_state.md R45). -/
def layoutWord (j : Nat) : Word :=
  match frameLayout[j]? with
  | some f => 0#16 ++ (BitVec.ofNat 8 f.offset ++ BitVec.ofNat 8 f.width)
  | none => 0#32

/-- The 14 fields of a frame F[120:0] (40_frame_extract.md R121). -/
def splitFrame (f : BitVec 121) : Fields :=
  { sof := f.extractLsb 120 120
    id := f.extractLsb 119 109
    stuff := f.extractLsb 108 108
    ide := f.extractLsb 107 107
    rsvd := f.extractLsb 106 106
    msgLen := f.extractLsb 105 102
    ts := f.extractLsb 101 86
    data := f.extractLsb 85 22
    crc := f.extractLsb 21 7
    crcDel := f.extractLsb 6 6
    ack := f.extractLsb 5 5
    ackDel := f.extractLsb 4 4
    eof := f.extractLsb 3 3
    ifs := f.extractLsb 2 0 }

/-- The frame a buffer's 121 symbols denote, split into its fields. -/
def frameFields (x : OpBuf) : Fields := splitFrame (val x 121)

/-- byte[k] = D[63-8k : 56-8k] of a payload (30_encoding.md R100). -/
def payloadByte (d : F64) (k : Nat) : Nat := (d.extractLsb' (56 - 8 * k) 8).toNat

end Sys2Proof.Machine
end

