-- ==== Sys2Proof/Machine/Flags.lean ====
section
/-! DEFINITION. The status words as the host reads them: STATUS, CTRL, RES_CHK, RES_FLAGS, OPx_INFO, PARAMS
(10_state.md R25, R27, R28, R38, R41), and the checksum verdict's bits. -/
namespace Sys2Proof.Machine

/-- The 4-bit code of an error (60_exceptions.md R250). -/
def errCodeBits : ErrCode → BitVec 4
  | .ok => 0#4
  | .lengthMismatch => 1#4
  | .typeMismatch => 2#4
  | .unknownSensorId => 3#4
  | .decodeError => 4#4
  | .illegalCommand => 5#4
  | .notConfigured => 6#4
  | .capacityExceeded => 7#4

/-- STATUS (R25): bits 31:24 zero, LAST_OP, bits 15:11 zero, CFGERR, WRBUSY, CFG_LOCKED, ERR, bits 3:1 zero, BUSY. -/
def statusWord (b : Block) : Word :=
  0#8 ++ (b.lastOp ++ (0#5 ++ (BitVec.ofBool b.cfgErr ++ (BitVec.ofBool b.wrBusy ++ (BitVec.ofBool b.cfgLock ++
    (errCodeBits b.err ++ (0#3 ++ BitVec.ofBool b.busy)))))))

/-- PARAMS = {4'b0, CAL_DEPTH, SAMPLE_DEPTH} (R27). -/
def paramsWord (b : Block) : Word := 0#4 ++ (b.calDepth ++ b.sampleDepth)

/-- CTRL: CFG_LOCK in bit 0 (R28). -/
def ctrlWord (b : Block) : Word := 0#31 ++ BitVec.ofBool b.cfgLock

/-- OPx_INFO = {BAD_SYM, 7'b0, BAD, COUNT} (R38). -/
def opInfoWord (x : OpBuf) : Word := x.badSym ++ (0#7 ++ (BitVec.ofBool x.bad ++ x.count))

/-- RES_CHK = {15'b0, MATCH, 1'b0, SUM} (R41, 41_checksum.md R152). -/
def resChkWord (b : Block) : Word := 0#15 ++ (BitVec.ofBool b.resMatch ++ (0#1 ++ b.resSum))

/-- RES_FLAGS: READING_VALID in bit 0, CHECKSUM_OK in bit 1 (R41). -/
def resFlagsWord (b : Block) : Word := 0#30 ++ (BitVec.ofBool b.checksumOk ++ BitVec.ofBool b.readingValid)

end Sys2Proof.Machine
end

