-- ==== Sys2Proof/Machine/Float.lean ====
section
/-! DEFINITION. binary64 arithmetic (00_scope.md R11, R12): exact arithmetic on magnitudes counted in units of 2^-1074, then one
rounding, roundTiesToEven; subnormals kept, no fused operation, no exception flags. Log entry 16. Which quiet NaN an
operation produces is a free value (decision D11): every operation takes the number of its draw. -/
namespace Sys2Proof.Machine

/-- Bit 63, the sign (R12). -/
def f64Sign (a : F64) : Bool := a.getLsbD 63

/-- Bits 62:52, the biased exponent (R12). -/
def f64Exp (a : F64) : Nat := (a.extractLsb' 52 11).toNat

/-- Bits 51:0, the fraction (R12). -/
def f64Frac (a : F64) : Nat := (a.extractLsb' 0 52).toNat

/-- A NaN: exponent 0x7FF, fraction not zero (R12). -/
def f64IsNaN (a : F64) : Bool := f64Exp a == 0x7FF && f64Frac a != 0

/-- A quiet NaN: a NaN with fraction bit 51 set (R12). -/
def f64IsQuietNaN (a : F64) : Bool := f64IsNaN a && a.getLsbD 51

/-- An infinity: exponent 0x7FF, fraction zero. -/
def f64IsInf (a : F64) : Bool := f64Exp a == 0x7FF && f64Frac a == 0

/-- Neither a NaN nor an infinity. -/
def f64IsFinite (a : F64) : Bool := f64Exp a != 0x7FF

/-- A zero of either sign. -/
def f64IsZero (a : F64) : Bool := f64Exp a == 0 && f64Frac a == 0

/-- One, in units of 2^-1074: the least subnormal's reciprocal. -/
def unitScale : Nat := 2 ^ 1074

/-- The magnitude of a finite value in units of 2^-1074: the fraction of a subnormal, the significand with its leading one
scaled by the exponent of a normal. -/
def f64Units (a : F64) : Nat :=
  if f64Exp a = 0 then f64Frac a else (2 ^ 52 + f64Frac a) * 2 ^ (f64Exp a - 1)

/-- The value of a finite pattern in units of 2^-1074. -/
def f64Int (a : F64) : Int := if f64Sign a then -(f64Units a : Int) else f64Units a

/-- The 63 magnitude bits of an infinity. -/
def infBits : Nat := 0x7FF0000000000000

/-- Round the magnitude `p / q` units of 2^-1074 to 53 significant bits, ties to even, and give the 63 magnitude bits: the
exponent field and the fraction. At or past the overflow threshold that is infinity. -/
def roundUnits (p q : Nat) : Nat :=
  let k := Nat.log2 (p / q) - 52
  let d := q * 2 ^ k
  let r := p / d
  let rem := p % d
  let r' := if d < 2 * rem ∨ (d = 2 * rem ∧ r % 2 = 1) then r + 1 else r
  min (k * 2 ^ 52 + r') infBits

/-- A pattern from its sign and its 63 magnitude bits. -/
def packF64 (sign : Bool) (mag : Nat) : F64 := BitVec.ofBool sign ++ BitVec.ofNat 63 mag

/-- The `k`-th NaN result: a quiet NaN, otherwise free (decision D11). Log entry 5. -/
def nanResult (k : Nat) : F64 :=
  let p := Config.nanBits k
  p.extractLsb' 51 1 ++ (0x7FF#11 ++ (1#1 ++ p.extractLsb' 0 51))

/-- The value with its sign bit flipped. -/
def f64Neg (a : F64) : F64 := a ^^^ 0x8000000000000000#64

/-- `fadd` of R11. An exact zero sum is +0.0, but of two negative zeros -0.0. -/
def fadd (k : Nat) (a b : F64) : F64 :=
  if f64IsNaN a || f64IsNaN b then nanResult k
  else if f64IsInf a then
    if f64IsInf b && f64Sign a != f64Sign b then nanResult k else a
  else if f64IsInf b then b
  else
    let sum := f64Int a + f64Int b
    let sign := if sum = 0 then f64Sign a && f64Sign b else decide (sum < 0)
    packF64 sign (roundUnits sum.natAbs 1)

/-- `fsub` of R11. -/
def fsub (k : Nat) (a b : F64) : F64 := fadd k a (f64Neg b)

/-- `fmul` of R11. -/
def fmul (k : Nat) (a b : F64) : F64 :=
  let sign := f64Sign a != f64Sign b
  if f64IsNaN a || f64IsNaN b then nanResult k
  else if f64IsInf a || f64IsInf b then
    if f64IsZero a || f64IsZero b then nanResult k else packF64 sign infBits
  else packF64 sign (roundUnits (f64Units a * f64Units b) unitScale)

/-- `fdiv` of R11. -/
def fdiv (k : Nat) (a b : F64) : F64 :=
  let sign := f64Sign a != f64Sign b
  if f64IsNaN a || f64IsNaN b then nanResult k
  else if f64IsInf a then
    if f64IsInf b then nanResult k else packF64 sign infBits
  else if f64IsInf b then packF64 sign 0
  else if f64IsZero b then
    if f64IsZero a then nanResult k else packF64 sign infBits
  else packF64 sign (roundUnits (f64Units a * unitScale) (f64Units b))

/-- `toF64` of R11: exact for every integer the block converts, which is below 2^53. Zero is +0.0. -/
def toF64 (n : Nat) : F64 := if n = 0 then 0#64 else packF64 false (roundUnits (n * unitScale) 1)

/-- The magnitude bits 62:0. -/
def f64Mag (a : F64) : Nat := (a.extractLsb' 0 63).toNat

/-- 1.0 -/
def f64One : F64 := 0x3FF0000000000000#64

/-- Free bits bent to a finite value within [-1.0, 1.0]: kept where they are one, else with exponent bits 62 and 52
cleared, which makes them one. Log entry 6. -/
def toUnitRange (r : F64) : F64 := if f64Mag r ≤ f64One.toNat then r else r &&& 0xBFEFFFFFFFFFFFFF#64

/-- Free bits bent to a NaN: kept where they are one, else with the exponent and fraction bit 51 set. Log entry 6. -/
def toNaN (r : F64) : F64 := if f64IsNaN r then r else r ||| 0x7FF8000000000000#64

/-- `cos64` of 43_integrator.md R193: 1.0 at a zero, a NaN at a NaN or an infinity, and otherwise any finite value within
[-1.0, 1.0]. Log entry 6. -/
def cos64 (a : F64) : F64 :=
  if f64IsZero a then f64One
  else if f64IsFinite a then toUnitRange (Config.cosBits a)
  else toNaN (Config.cosBits a)

/-- `sin64` of R193: the zero itself at a zero, a NaN at a NaN or an infinity, and otherwise any finite value within
[-1.0, 1.0]. Log entry 6. -/
def sin64 (a : F64) : F64 :=
  if f64IsZero a then a
  else if f64IsFinite a then toUnitRange (Config.sinBits a)
  else toNaN (Config.sinBits a)

end Sys2Proof.Machine
end

