-- ==== Sys2Proof/Machine/Calibrate.lean ====
section
/-! DEFINITION. The affine calibration unit: the calibration lookup and CALIBRATE (42_calibrate.md). -/
namespace Sys2Proof.Machine

/-- `CalLookup(id)`: the entry exists iff `id < CAL_DEPTH` and its V is 1 (R170). -/
def calLookup (b : Block) (id : BitVec 11) : Option CalEntry :=
  if id.toNat < b.calDepth.toNat ∧ (calGet b.cal id.toNat).v = true then some (calGet b.cal id.toNat) else none

/-- UnknownSensorId of the calibration table: no entry (R171, 44_pipeline_control.md R224, 60_exceptions.md R252). -/
def unknownCalibration (field : BitVec 8) (operand : BitVec 4) (calDepth : BitVec 12) (id : BitVec 11) : Raise :=
  { code := .unknownSensorId, field := field, operand := operand, subcode := 4#4, position := 0#16,
    expected := calDepth.zeroExtend 32, actual := id.zeroExtend 32 }

/-- `fmul(fsub(raw, B), W)`: two roundings (R171); draw numbers `k` and `k + 1`. -/
def calibrated (k : Nat) (raw : F64) (e : CalEntry) : F64 := fmul (k + 1) (fsub k raw e.b) e.w

/-- CALIBRATE (R171). -/
def execCalibrate (s : State) : Host.Outcome State Fault Refusal :=
  if s.blk.cfgLock = false then .next (raiseError notConfigured s)
  else match calLookup s.blk s.blk.calIdIn with
    | none => .next (raiseError (unknownCalibration 0xFF#8 3#4 s.blk.calDepth s.blk.calIdIn) s)
    | some e =>
      .next (succeed { s with
        blk := { s.blk with resCal := calibrated s.draws s.blk.raw e }
        draws := s.draws + 2 })

end Sys2Proof.Machine
end

