-- ==== Sys2Proof/Machine/Checksum.lean ====
section
/-! DEFINITION. The checksum validator: the prime-weighted byte sum and VERIFY (41_checksum.md). It is not a CRC (R3). -/
namespace Sys2Proof.Machine

/-- `CHK(D)`: the eight payload bytes, most significant first, weighted by 5, 7, 11, 13, 17, 19, 23, 29; exact (R150). -/
def chk (d : F64) : Nat :=
  payloadByte d 0 * 5 + payloadByte d 1 * 7 + payloadByte d 2 * 11 + payloadByte d 3 * 13 +
  payloadByte d 4 * 17 + payloadByte d 5 * 19 + payloadByte d 6 * 23 + payloadByte d 7 * 29

/-- The 15-bit pattern of `CHK(D)`, which it always fits (R151). -/
def chkBits (d : F64) : BitVec 15 := BitVec.ofNat 15 (chk d)

/-- VERIFY (R152): a mismatch is no error, and a non-bit symbol among OPB's 15 is a mismatch. -/
def execVerify (s : State) : Host.Outcome State Fault Refusal :=
  match checkShape s.blk.opa 1#4 64 7#8 .parser with
  | some r => .next (raiseError r s)
  | none =>
    if s.blk.opb.count.toNat ≠ 15 then .next (raiseError (lengthRaise s.blk.opb 2#4 15 8#8 .lengthMismatch) s)
    else
      let d := val s.blk.opa 64
      let verdict := if s.blk.opb.bad then false else decide ((val s.blk.opb 15).toNat = chk d)
      .next (succeed { s with blk := { s.blk with resSum := chkBits d, resMatch := verdict } })

end Sys2Proof.Machine
end

