-- ==== Sys2Proof/Machine/Extract.lean ====
section
/-! DEFINITION. The frame bit-field extractor's commands: PARSE, DECODE_ID, DECODE_TS, DECODE_DATA (40_frame_extract.md). -/
namespace Sys2Proof.Machine

/-- PARSE (R121). -/
def execParse (s : State) : Host.Outcome State Fault Refusal :=
  match checkShape s.blk.opa 1#4 121 0xFF#8 .parser with
  | some r => .next (raiseError r s)
  | none => .next (succeed { s with blk := { s.blk with fields := frameFields s.blk.opa } })

/-- UnknownSensorId of the identity catalog: `id >= SENSOR_COUNT` (R123, 60_exceptions.md R252). -/
def unknownIdentity (sensorCount : BitVec 12) (id : BitVec 11) : Raise :=
  { code := .unknownSensorId, field := 1#8, operand := 1#4, subcode := 3#4, position := 0#16,
    expected := sensorCount.zeroExtend 32, actual := id.zeroExtend 32 }

/-- DECODE_ID (R123). -/
def execDecodeId (s : State) : Host.Outcome State Fault Refusal :=
  if s.blk.cfgLock = false then .next (raiseError notConfigured s)
  else match checkShape s.blk.opa 1#4 11 1#8 .decoder with
    | some r => .next (raiseError r s)
    | none =>
      let v := val s.blk.opa 11
      if s.blk.sensorCount.toNat ≤ v.toNat then .next (raiseError (unknownIdentity s.blk.sensorCount v) s)
      else .next (succeed { s with blk := { s.blk with resId := v } })

/-- A timestamp in seconds: the count of milliseconds divided by 1000, one rounding (R124); draw number `k`. -/
def timestampSeconds (k : Nat) (t : BitVec 16) : F64 := fdiv k (toF64 t.toNat) (toF64 1000)

/-- DECODE_TS (R124). -/
def execDecodeTs (s : State) : Host.Outcome State Fault Refusal :=
  match checkShape s.blk.opa 1#4 16 6#8 .decoder with
  | some r => .next (raiseError r s)
  | none =>
    .next (succeed { s with
      blk := { s.blk with resTs := timestampSeconds s.draws (val s.blk.opa 16) }
      draws := s.draws + 1 })

/-- DECODE_DATA (R125): the pattern is copied unchanged. -/
def execDecodeData (s : State) : Host.Outcome State Fault Refusal :=
  match checkShape s.blk.opa 1#4 64 7#8 .decoder with
  | some r => .next (raiseError r s)
  | none => .next (succeed { s with blk := { s.blk with resData := val s.blk.opa 64 } })

end Sys2Proof.Machine
end

