-- ==== Sys2Proof/Machine/Control.lean ====
section
/-! DEFINITION. The frame pipeline and NOP: PROCESS_FRAME, NOP (44_pipeline_control.md). -/
namespace Sys2Proof.Machine

/-- NOP (R223): completes with no effect of its own. -/
def execNop (s : State) : Host.Outcome State Fault Refusal := .next (succeed s)

/-- `RES_FLAGS <- 0`, which PROCESS_FRAME writes before its checks (R224). -/
def clearReading (s : State) : State :=
  { s with blk := { s.blk with readingValid := false, checksumOk := false } }

/-- The registers PROCESS_FRAME commits for a frame whether or not its checksum holds (R224). -/
def commitFrame (f : Fields) (k : Nat) (ok : Bool) (b : Block) : Block :=
  { b with
    fields := f, resId := f.id, resTs := timestampSeconds k f.ts, resData := f.data,
    resSum := chkBits f.data, resMatch := ok, readingValid := ok, checksumOk := ok }

/-- PROCESS_FRAME (R224). Its division draws number `draws`, its calibration the two numbers after it. -/
def execProcessFrame (s : State) : Host.Outcome State Fault Refusal :=
  if s.blk.cfgLock = false then .next (raiseError notConfigured (clearReading s))
  else match checkShape s.blk.opa 1#4 121 0xFF#8 .parser with
    | some r => .next (raiseError r (clearReading s))
    | none =>
      let f := frameFields s.blk.opa
      if s.blk.sensorCount.toNat ≤ f.id.toNat then
        .next (raiseError (unknownIdentity s.blk.sensorCount f.id) (clearReading s))
      else if f.crc.toNat = chk f.data then
        match calLookup s.blk f.id with
        | none => .next (raiseError (unknownCalibration 1#8 1#4 s.blk.calDepth f.id) (clearReading s))
        | some e =>
          .next (succeed { s with
            blk := { commitFrame f s.draws true s.blk with resCal := calibrated (s.draws + 1) f.data e }
            draws := s.draws + 3 })
      else
        .next (succeed { s with blk := commitFrame f s.draws false s.blk, draws := s.draws + 1 })

end Sys2Proof.Machine
end

