-- ==== Sys2Proof/Machine/Integrator.lean ====
section
/-! DEFINITION. The kinematic integrator: INTEGRATE and CLR_SAMPLES (43_integrator.md). -/
namespace Sys2Proof.Machine

/-- RAD_PER_DEG, the binary64 nearest to pi/180 (00_scope.md R7, R191). -/
def radPerDeg : F64 := 0x3F91DF46A2529D39#64

/-- K, the binary64 nearest to 0.000278 (R7, R192). -/
def mphFactor : F64 := 0x3F323810E8858FF7#64

/-- `DEG2RAD(a)` (R191); draw number `k`. -/
def deg2rad (k : Nat) (a : F64) : F64 := fmul k a radPerDeg

/-- `DIST(s, t)`, left to right (R192); draw numbers `k` and `k + 1`. -/
def dist (k : Nat) (speed time : F64) : F64 := fmul (k + 1) (fmul k speed mphFactor) time

/-- What INTEGRATE carries from sample to sample: the heading, the position, and the position memories it fills. -/
structure Track where
  theta : F64
  x : F64
  y : F64
  xm : Memory
  ym : Memory
  deriving DecidableEq, Repr

/-- One sample of the recurrence (R194). Its eight operations draw the numbers from `k` on. -/
def trackStep (k : Nat) (speed time angle : F64) (i : Nat) (c : Track) : Track :=
  let r := deg2rad k angle
  let d := dist (k + 1) speed time
  let theta := fadd (k + 3) c.theta r
  let x := fadd (k + 5) c.x (fmul (k + 4) d (cos64 theta))
  let y := fadd (k + 7) c.y (fmul (k + 6) d (sin64 theta))
  { theta := theta, x := x, y := y, xm := Memory.write c.xm i x, ym := Memory.write c.ym i y }

/-- The loop's state before the first sample: all three accumulators +0.0 (R194, 10_state.md R44). -/
def trackStart (b : Block) : Track := { theta := 0#64, x := 0#64, y := 0#64, xm := b.xm, ym := b.ym }

/-- The loop's state after samples 0 to n-1, in index order (R194). -/
def trackLoop (b : Block) (draws : Nat) : Nat → Track
  | 0 => trackStart b
  | n + 1 =>
    trackStep (draws + 8 * n) (Memory.read .smSpd b.spd.mem n) (Memory.read .smTim b.tim.mem n)
      (Memory.read .smAng b.ang.mem n) n (trackLoop b draws n)

/-- The block after INTEGRATE's commit of a finished loop over `n` samples (R194). -/
def commitTrack (b : Block) (n : BitVec 16) (c : Track) : Block :=
  { b with xm := c.xm, ym := c.ym, outLen := n, theta := c.theta, xacc := c.x, yacc := c.y }

/-- The error of two sample sequences of unequal length (R194): `opn` is 5 for the times, 6 for the angles. -/
def sequenceRaise (opn : BitVec 4) (expected actual : BitVec 16) : Raise :=
  { code := .lengthMismatch, field := 0xFF#8, operand := opn, subcode := 1#4, position := 0#16,
    expected := expected.zeroExtend 32, actual := actual.zeroExtend 32 }

/-- CapacityExceeded (R194). -/
def capacityRaise (sampleDepth n : BitVec 16) : Raise :=
  { code := .capacityExceeded, field := 0xFF#8, operand := 4#4, subcode := 5#4, position := 0#16,
    expected := sampleDepth.zeroExtend 32, actual := n.zeroExtend 32 }

/-- INTEGRATE (R194). -/
def execIntegrate (s : State) : Host.Outcome State Fault Refusal :=
  let n := s.blk.spd.len
  if s.blk.tim.len ≠ n then .next (raiseError (sequenceRaise 5#4 n s.blk.tim.len) s)
  else if s.blk.ang.len ≠ n then .next (raiseError (sequenceRaise 6#4 n s.blk.ang.len) s)
  else if s.blk.sampleDepth.toNat < n.toNat then .next (raiseError (capacityRaise s.blk.sampleDepth n) s)
  else
    .next (succeed { s with
      blk := commitTrack s.blk n (trackLoop s.blk s.draws n.toNat)
      draws := s.draws + 8 * n.toNat })

/-- CLR_SAMPLES (R195): the three lengths become 0; latches and contents stay. -/
def execClrSamples (s : State) : Host.Outcome State Fault Refusal :=
  .next (succeed { s with blk := { s.blk with
    spd := { s.blk.spd with len := 0#16 }
    tim := { s.blk.tim with len := 0#16 }
    ang := { s.blk.ang with len := 0#16 } } })

end Sys2Proof.Machine
end

