-- ==== Sys2Proof/Machine/Dispatch.lean ====
section
/-! DEFINITION. The one place where a command is given its meaning: one arm per constructor of `Instr`. -/
namespace Sys2Proof.Machine

/-- The completion of a command, as one transition on the state as it stood at issue (44_pipeline_control.md R221). -/
def exec (i : Instr) (s : State) : Host.Outcome State Fault Refusal :=
  match i with
  | .nop => Sys2Proof.Machine.execNop s
  | .parse => Sys2Proof.Machine.execParse s
  | .decodeId => Sys2Proof.Machine.execDecodeId s
  | .decodeTs => Sys2Proof.Machine.execDecodeTs s
  | .decodeData => Sys2Proof.Machine.execDecodeData s
  | .verify => Sys2Proof.Machine.execVerify s
  | .calibrate => Sys2Proof.Machine.execCalibrate s
  | .processFrame => Sys2Proof.Machine.execProcessFrame s
  | .integrate => Sys2Proof.Machine.execIntegrate s
  | .clrSamples => Sys2Proof.Machine.execClrSamples s

end Sys2Proof.Machine
end

