-- ==== Sys2Proof/Machine/Registers.lean ====
section
/-! DEFINITION. The register window: the register map, what a read of each register returns and what a write to it does
while the block is idle (10_state.md R23 to R45, 20_memory.md R60 to R75). -/
namespace Sys2Proof.Machine

/-- The registers of the window (10_state.md R23); LAYOUT_j has its index. -/
inductive Reg where
  | cmd
  | status
  | statusClr
  | params
  | ctrl
  | errInfo
  | errExpected
  | errActual
  | sensorCount
  | calIdx
  | calWLo
  | calWHi
  | calBLo
  | calBHi
  | calValid
  | opaSym
  | opaCtl
  | opaInfo
  | opaBadPos
  | opbSym
  | opbCtl
  | opbInfo
  | opbBadPos
  | calIdIn
  | rawLo
  | rawHi
  | fldSof
  | fldId
  | fldStuff
  | fldIde
  | fldRsvd
  | fldMsgLen
  | fldTs
  | fldDataLo
  | fldDataHi
  | fldCrc
  | fldCrcDel
  | fldAck
  | fldAckDel
  | fldEof
  | fldIfs
  | resId
  | resTsLo
  | resTsHi
  | resDataLo
  | resDataHi
  | resChk
  | resCalLo
  | resCalHi
  | resFlags
  | spdLo
  | spdHi
  | timLo
  | timHi
  | angLo
  | angHi
  | spdLen
  | timLen
  | angLen
  | outLen
  | outIdx
  | xLo
  | xHi
  | yLo
  | yHi
  | thetaLo
  | thetaHi
  | xaccLo
  | xaccHi
  | yaccLo
  | yaccHi
  | layoutTotal
  | layout (j : Fin 14)
  deriving DecidableEq, Repr

/-- How the host may access a register (R23). -/
inductive Access where
  /-- read-only: a write is ignored -/
  | ro
  /-- write-only: a read returns 0 -/
  | wo
  /-- read-write -/
  | rw
  /-- read-write until the configuration is locked -/
  | rwCfg
  deriving DecidableEq, Repr

/-- One row of the register map. -/
structure RegRow where
  offset : Nat
  reg : Reg
  access : Access
  deriving DecidableEq, Repr

/-- The control, status and configuration rows of R23. -/
def controlRegs : List RegRow :=
  [ ⟨0x000, .cmd, .wo⟩,
    ⟨0x004, .status, .ro⟩,
    ⟨0x008, .statusClr, .wo⟩,
    ⟨0x00C, .params, .ro⟩,
    ⟨0x010, .ctrl, .rw⟩,
    ⟨0x014, .errInfo, .ro⟩,
    ⟨0x018, .errExpected, .ro⟩,
    ⟨0x01C, .errActual, .ro⟩,
    ⟨0x020, .sensorCount, .rwCfg⟩,
    ⟨0x024, .calIdx, .rw⟩,
    ⟨0x028, .calWLo, .rwCfg⟩,
    ⟨0x02C, .calWHi, .rwCfg⟩,
    ⟨0x030, .calBLo, .rwCfg⟩,
    ⟨0x034, .calBHi, .rwCfg⟩,
    ⟨0x038, .calValid, .rwCfg⟩ ]

/-- The operand rows of R23. -/
def operandRegs : List RegRow :=
  [ ⟨0x040, .opaSym, .wo⟩,
    ⟨0x044, .opaCtl, .wo⟩,
    ⟨0x048, .opaInfo, .ro⟩,
    ⟨0x04C, .opaBadPos, .ro⟩,
    ⟨0x050, .opbSym, .wo⟩,
    ⟨0x054, .opbCtl, .wo⟩,
    ⟨0x058, .opbInfo, .ro⟩,
    ⟨0x05C, .opbBadPos, .ro⟩,
    ⟨0x060, .calIdIn, .rw⟩,
    ⟨0x064, .rawLo, .rw⟩,
    ⟨0x068, .rawHi, .rw⟩ ]

/-- The field and result rows of R23. -/
def resultRegs : List RegRow :=
  [ ⟨0x080, .fldSof, .ro⟩,
    ⟨0x084, .fldId, .ro⟩,
    ⟨0x088, .fldStuff, .ro⟩,
    ⟨0x08C, .fldIde, .ro⟩,
    ⟨0x090, .fldRsvd, .ro⟩,
    ⟨0x094, .fldMsgLen, .ro⟩,
    ⟨0x098, .fldTs, .ro⟩,
    ⟨0x09C, .fldDataLo, .ro⟩,
    ⟨0x0A0, .fldDataHi, .ro⟩,
    ⟨0x0A4, .fldCrc, .ro⟩,
    ⟨0x0A8, .fldCrcDel, .ro⟩,
    ⟨0x0AC, .fldAck, .ro⟩,
    ⟨0x0B0, .fldAckDel, .ro⟩,
    ⟨0x0B4, .fldEof, .ro⟩,
    ⟨0x0B8, .fldIfs, .ro⟩,
    ⟨0x0C0, .resId, .ro⟩,
    ⟨0x0C4, .resTsLo, .ro⟩,
    ⟨0x0C8, .resTsHi, .ro⟩,
    ⟨0x0CC, .resDataLo, .ro⟩,
    ⟨0x0D0, .resDataHi, .ro⟩,
    ⟨0x0D4, .resChk, .ro⟩,
    ⟨0x0D8, .resCalLo, .ro⟩,
    ⟨0x0DC, .resCalHi, .ro⟩,
    ⟨0x0E0, .resFlags, .ro⟩ ]

/-- The integrator rows of R23. -/
def integratorRegs : List RegRow :=
  [ ⟨0x100, .spdLo, .wo⟩,
    ⟨0x104, .spdHi, .wo⟩,
    ⟨0x108, .timLo, .wo⟩,
    ⟨0x10C, .timHi, .wo⟩,
    ⟨0x110, .angLo, .wo⟩,
    ⟨0x114, .angHi, .wo⟩,
    ⟨0x118, .spdLen, .ro⟩,
    ⟨0x11C, .timLen, .ro⟩,
    ⟨0x120, .angLen, .ro⟩,
    ⟨0x124, .outLen, .ro⟩,
    ⟨0x128, .outIdx, .rw⟩,
    ⟨0x12C, .xLo, .ro⟩,
    ⟨0x130, .xHi, .ro⟩,
    ⟨0x134, .yLo, .ro⟩,
    ⟨0x138, .yHi, .ro⟩,
    ⟨0x13C, .thetaLo, .ro⟩,
    ⟨0x140, .thetaHi, .ro⟩,
    ⟨0x144, .xaccLo, .ro⟩,
    ⟨0x148, .xaccHi, .ro⟩,
    ⟨0x14C, .yaccLo, .ro⟩,
    ⟨0x150, .yaccHi, .ro⟩ ]

/-- The layout rows of R23: LAYOUT_TOTAL, and LAYOUT_j at 0x204 + 4j. -/
def layoutRegs : List RegRow :=
  ⟨0x200, .layoutTotal, .ro⟩ :: (List.finRange 14).map (fun j => ⟨0x204 + 4 * j.val, .layout j, .ro⟩)

/-- The register map of R23. -/
def regMap : List RegRow := controlRegs ++ operandRegs ++ resultRegs ++ integratorRegs ++ layoutRegs

/-- The row of a table that has an offset. -/
def findReg (o : Nat) : List RegRow → Option Reg
  | [] => none
  | r :: rest => if r.offset = o then some r.reg else findReg o rest

/-- The register an access at a byte offset reaches, offset bits 1:0 ignored; none at a reserved offset
(20_memory.md R61, R62). -/
def regAt (o : Offset) : Option Reg := findReg (o &&& 0x3FC#10).toNat regMap

/-- The byte offset of a register (R23). -/
def regOffset : Reg → Offset
  | .cmd => 0x000#10
  | .status => 0x004#10
  | .statusClr => 0x008#10
  | .params => 0x00C#10
  | .ctrl => 0x010#10
  | .errInfo => 0x014#10
  | .errExpected => 0x018#10
  | .errActual => 0x01C#10
  | .sensorCount => 0x020#10
  | .calIdx => 0x024#10
  | .calWLo => 0x028#10
  | .calWHi => 0x02C#10
  | .calBLo => 0x030#10
  | .calBHi => 0x034#10
  | .calValid => 0x038#10
  | .opaSym => 0x040#10
  | .opaCtl => 0x044#10
  | .opaInfo => 0x048#10
  | .opaBadPos => 0x04C#10
  | .opbSym => 0x050#10
  | .opbCtl => 0x054#10
  | .opbInfo => 0x058#10
  | .opbBadPos => 0x05C#10
  | .calIdIn => 0x060#10
  | .rawLo => 0x064#10
  | .rawHi => 0x068#10
  | .fldSof => 0x080#10
  | .fldId => 0x084#10
  | .fldStuff => 0x088#10
  | .fldIde => 0x08C#10
  | .fldRsvd => 0x090#10
  | .fldMsgLen => 0x094#10
  | .fldTs => 0x098#10
  | .fldDataLo => 0x09C#10
  | .fldDataHi => 0x0A0#10
  | .fldCrc => 0x0A4#10
  | .fldCrcDel => 0x0A8#10
  | .fldAck => 0x0AC#10
  | .fldAckDel => 0x0B0#10
  | .fldEof => 0x0B4#10
  | .fldIfs => 0x0B8#10
  | .resId => 0x0C0#10
  | .resTsLo => 0x0C4#10
  | .resTsHi => 0x0C8#10
  | .resDataLo => 0x0CC#10
  | .resDataHi => 0x0D0#10
  | .resChk => 0x0D4#10
  | .resCalLo => 0x0D8#10
  | .resCalHi => 0x0DC#10
  | .resFlags => 0x0E0#10
  | .spdLo => 0x100#10
  | .spdHi => 0x104#10
  | .timLo => 0x108#10
  | .timHi => 0x10C#10
  | .angLo => 0x110#10
  | .angHi => 0x114#10
  | .spdLen => 0x118#10
  | .timLen => 0x11C#10
  | .angLen => 0x120#10
  | .outLen => 0x124#10
  | .outIdx => 0x128#10
  | .xLo => 0x12C#10
  | .xHi => 0x130#10
  | .yLo => 0x134#10
  | .yHi => 0x138#10
  | .thetaLo => 0x13C#10
  | .thetaHi => 0x140#10
  | .xaccLo => 0x144#10
  | .xaccHi => 0x148#10
  | .yaccLo => 0x14C#10
  | .yaccHi => 0x150#10
  | .layoutTotal => 0x200#10
  | .layout j => BitVec.ofNat 10 (0x204 + 4 * j.val)

/-- A calibration register's read: a part of the selected entry, 0 where CAL_IDX is out of range (R33, R34). -/
def calRead (b : Block) (part : CalEntry → Word) : Word :=
  if b.calIdx.toNat < b.calDepth.toNat then part (calGet b.cal b.calIdx.toNat) else 0#32

/-- A read of the position window: a part of the selected entry, a free value where OUT_IDX is at or past OUT_LEN (R43);
`k` is the number of the draw. -/
def windowRead (k : Nat) (name : MemName) (m : Memory) (b : Block) (part : F64 → Word) : Word :=
  if b.outIdx.toNat < b.outLen.toNat then part (Memory.read name m b.outIdx.toNat) else Config.freeWord k

/-- What a read of a register returns, where the read is not a draw of 20_memory.md R78; WO registers read 0 (R67). -/
def readReg (k : Nat) (r : Reg) (b : Block) : Word :=
  match r with
  | .status => statusWord b
  | .params => paramsWord b
  | .ctrl => ctrlWord b
  | .errInfo => b.errInfo
  | .errExpected => b.errExpected
  | .errActual => b.errActual
  | .sensorCount => b.sensorCount.zeroExtend 32
  | .calIdx => b.calIdx.zeroExtend 32
  | .calWLo => calRead b (fun e => lo32 e.w)
  | .calWHi => calRead b (fun e => hi32 e.w)
  | .calBLo => calRead b (fun e => lo32 e.b)
  | .calBHi => calRead b (fun e => hi32 e.b)
  | .calValid => calRead b (fun e => (BitVec.ofBool e.v).zeroExtend 32)
  | .opaInfo => opInfoWord b.opa
  | .opaBadPos => b.opa.badPos.zeroExtend 32
  | .opbInfo => opInfoWord b.opb
  | .opbBadPos => b.opb.badPos.zeroExtend 32
  | .calIdIn => b.calIdIn.zeroExtend 32
  | .rawLo => lo32 b.raw
  | .rawHi => hi32 b.raw
  | .fldSof => b.fields.sof.zeroExtend 32
  | .fldId => b.fields.id.zeroExtend 32
  | .fldStuff => b.fields.stuff.zeroExtend 32
  | .fldIde => b.fields.ide.zeroExtend 32
  | .fldRsvd => b.fields.rsvd.zeroExtend 32
  | .fldMsgLen => b.fields.msgLen.zeroExtend 32
  | .fldTs => b.fields.ts.zeroExtend 32
  | .fldDataLo => lo32 b.fields.data
  | .fldDataHi => hi32 b.fields.data
  | .fldCrc => b.fields.crc.zeroExtend 32
  | .fldCrcDel => b.fields.crcDel.zeroExtend 32
  | .fldAck => b.fields.ack.zeroExtend 32
  | .fldAckDel => b.fields.ackDel.zeroExtend 32
  | .fldEof => b.fields.eof.zeroExtend 32
  | .fldIfs => b.fields.ifs.zeroExtend 32
  | .resId => b.resId.zeroExtend 32
  | .resTsLo => lo32 b.resTs
  | .resTsHi => hi32 b.resTs
  | .resDataLo => lo32 b.resData
  | .resDataHi => hi32 b.resData
  | .resChk => resChkWord b
  | .resCalLo => lo32 b.resCal
  | .resCalHi => hi32 b.resCal
  | .resFlags => resFlagsWord b
  | .spdLen => b.spd.len.zeroExtend 32
  | .timLen => b.tim.len.zeroExtend 32
  | .angLen => b.ang.len.zeroExtend 32
  | .outLen => b.outLen.zeroExtend 32
  | .outIdx => b.outIdx.zeroExtend 32
  | .xLo => windowRead k .xm b.xm b lo32
  | .xHi => windowRead k .xm b.xm b hi32
  | .yLo => windowRead k .ym b.ym b lo32
  | .yHi => windowRead k .ym b.ym b hi32
  | .thetaLo => lo32 b.theta
  | .thetaHi => hi32 b.theta
  | .xaccLo => lo32 b.xacc
  | .xaccHi => hi32 b.xacc
  | .yaccLo => lo32 b.yacc
  | .yaccHi => hi32 b.yacc
  | .layoutTotal => 121#32
  | .layout j => layoutWord j.val
  | .cmd | .statusClr | .opaSym | .opaCtl | .opbSym | .opbCtl | .spdLo | .spdHi | .timLo | .timHi | .angLo | .angHi => 0#32

/-- BITS[pos] <- bit. -/
def setBit (bits : BitVec 128) (pos : Nat) (bit : Bool) : BitVec 128 :=
  (bits &&& ~~~(1#128 <<< pos)) ||| ((BitVec.ofBool bit).zeroExtend 128 <<< pos)

/-- A symbol push (20_memory.md R68). -/
def pushSymbol (v : Word) (x : OpBuf) : OpBuf :=
  let sym : Symbol := v.extractLsb' 0 8
  let pos := x.count
  let isBad := sym ≠ 0x30#8 ∧ sym ≠ 0x31#8 ∧ x.bad = false
  { count := if x.count ≠ 0xFFFF#16 then x.count + 1#16 else x.count
    bad := if isBad then true else x.bad
    badSym := if isBad then sym else x.badSym
    badPos := if isBad then pos else x.badPos
    bits := if pos.toNat < 128 then setBit x.bits pos.toNat (decide (sym = 0x31#8)) else x.bits }

/-- A buffer clear (R69): only where bit 0 of the written word is 1. -/
def clearBuffer (v : Word) (x : OpBuf) : OpBuf := if v.getLsbD 0 then OpBuf.empty else x

/-- A sample append (R71). -/
def appendSample (sampleDepth : BitVec 16) (v : Word) (q : SampleSeq) : SampleSeq :=
  { q with
    mem := if q.len.toNat < sampleDepth.toNat then Memory.write q.mem q.len.toNat (join64 v q.latch) else q.mem
    len := if q.len ≠ 0xFFFF#16 then q.len + 1#16 else q.len }

/-- STATUS_CLR (10_state.md R26). -/
def clearSticky (v : Word) (b : Block) : Block :=
  { b with
    wrBusy := if v.getLsbD 9 then false else b.wrBusy
    cfgErr := if v.getLsbD 10 then false else b.cfgErr }

/-- SENSOR_COUNT stores `min(v[11:0], 2048)` (R31). -/
def clampSensorCount (v : Word) : BitVec 12 :=
  if 2048 < (v.extractLsb' 0 12).toNat then 2048#12 else v.extractLsb' 0 12

/-- A write to SENSOR_COUNT: dropped under the lock, which sets CFGERR (R31, 20_memory.md R74). -/
def writeSensorCount (v : Word) (b : Block) : Block :=
  if b.cfgLock then { b with cfgErr := true } else { b with sensorCount := clampSensorCount v }

/-- A write to a calibration register, which changes one part of the selected entry. Where CAL_IDX is out of range it is
ignored, and CFGERR is not set, locked or not (R33, R34, decision D45); else under the lock it is dropped and sets CFGERR
(R74). Log entry 10. -/
def writeCal (f : CalEntry → CalEntry) (b : Block) : Block :=
  let e := b.calIdx.toNat
  if b.calDepth.toNat ≤ e then b
  else if b.cfgLock then { b with cfgErr := true }
  else { b with cal := calSet b.cal e (f (calGet b.cal e)) }

/-- A write to a register while BUSY = 0, but for CMD: its effect on the block (20_memory.md R67 to R74). A write to an RO
register is ignored. -/
def writeReg (r : Reg) (v : Word) (b : Block) : Block :=
  match r with
  | .statusClr => clearSticky v b
  | .ctrl => { b with cfgLock := b.cfgLock || v.getLsbD 0 }
  | .sensorCount => writeSensorCount v b
  | .calIdx => { b with calIdx := v.extractLsb' 0 11 }
  | .calWLo => writeCal (fun e => { e with w := setLo32 e.w v }) b
  | .calWHi => writeCal (fun e => { e with w := setHi32 e.w v }) b
  | .calBLo => writeCal (fun e => { e with b := setLo32 e.b v }) b
  | .calBHi => writeCal (fun e => { e with b := setHi32 e.b v }) b
  | .calValid => writeCal (fun e => { e with v := v.getLsbD 0 }) b
  | .opaSym => { b with opa := pushSymbol v b.opa }
  | .opaCtl => { b with opa := clearBuffer v b.opa }
  | .opbSym => { b with opb := pushSymbol v b.opb }
  | .opbCtl => { b with opb := clearBuffer v b.opb }
  | .calIdIn => { b with calIdIn := v.extractLsb' 0 11 }
  | .rawLo => { b with raw := setLo32 b.raw v }
  | .rawHi => { b with raw := setHi32 b.raw v }
  | .spdLo => { b with spd := { b.spd with latch := v } }
  | .spdHi => { b with spd := appendSample b.sampleDepth v b.spd }
  | .timLo => { b with tim := { b.tim with latch := v } }
  | .timHi => { b with tim := appendSample b.sampleDepth v b.tim }
  | .angLo => { b with ang := { b.ang with latch := v } }
  | .angHi => { b with ang := appendSample b.sampleDepth v b.ang }
  | .outIdx => { b with outIdx := v.extractLsb' 0 16 }
  | .status | .params | .errInfo | .errExpected | .errActual | .opaInfo | .opaBadPos | .opbInfo | .opbBadPos
  | .fldSof | .fldId | .fldStuff | .fldIde | .fldRsvd | .fldMsgLen | .fldTs | .fldDataLo | .fldDataHi | .fldCrc
  | .fldCrcDel | .fldAck | .fldAckDel | .fldEof | .fldIfs | .resId | .resTsLo | .resTsHi | .resDataLo | .resDataHi
  | .resChk | .resCalLo | .resCalHi | .resFlags | .spdLen | .timLen | .angLen | .outLen | .xLo | .xHi | .yLo | .yHi
  | .thetaLo | .thetaHi | .xaccLo | .xaccHi | .yaccLo | .yaccHi | .layoutTotal
  | .layout _ => b
  | .cmd => b

end Sys2Proof.Machine
end

