-- ==== Sys2Proof/Machine/HostPort.lean ====
section
/-! DEFINITION. The host's accesses: reads and writes of the window in either phase (20_memory.md R67, R75 to R78), reset
(70_reset_and_hazards.md R280), and the step in which the host performs its next operation. -/
namespace Sys2Proof.Machine

/-- The registers whose reads return their value while BUSY = 1 (R76). -/
def readsWhileBusy : Reg → Bool
  | .status | .params | .ctrl | .layoutTotal | .layout _ => true
  | _ => false

/-- The word a read at a byte offset returns. A register's is a free value while BUSY = 1, but for the registers of R76
(R78); a reserved offset, which is no register, reads 0 in either phase (R62). Log entry 7. -/
def hostReadValue (o : Offset) (s : State) : Word :=
  match regAt o with
  | some r => if s.blk.busy && !readsWhileBusy r then Config.freeWord s.draws else readReg s.draws r s.blk
  | none => 0#32

/-- A read at this offset shows the host that no command is pending: it reads STATUS, and BUSY is 0 (R81). -/
def showsIdle (o : Offset) (s : State) : Bool := decide (regAt o = some .status) && !s.blk.busy

/-- `HostRead`: the word goes to the host; the block does not change (R67). -/
def hostRead (o : Offset) (s : State) : State :=
  { s with replies := hostReadValue o s :: s.replies, draws := s.draws + 1, synced := s.synced || showsIdle o s }

/-- A write while BUSY = 0: CMD issues a command (R75), a reserved offset ignores it (R62). -/
def idleWrite (o : Offset) (v : Word) (s : State) : State :=
  match regAt o with
  | some .cmd => issue v s
  | some r => { s with blk := writeReg r v s.blk }
  | none => s

/-- A write while BUSY = 1 is dropped, whatever its offset, and sets WRBUSY (R77). -/
def dropWrite (s : State) : State := { s with blk := { s.blk with wrBusy := true } }

/-- `HostWrite`. -/
def hostWrite (o : Offset) (v : Word) (s : State) : State :=
  if s.blk.busy then dropWrite s else idleWrite o v s

/-- One host operation leaves the queue, and one access fewer comes before the completion (44_pipeline_control.md R221). -/
def takeOp (rest : List HostOp) (s : State) : State := { s with ops := rest, wait := s.wait - 1 }

/-- The host performs its next operation, the head of its queue. `RDW` stays at the head until its test holds
(30_encoding.md R103). -/
def hostStep (op : HostOp) (rest : List HostOp) (s : State) : State :=
  match op with
  | .write o v => hostWrite o v (takeOp rest s)
  | .read o => hostRead o (takeOp rest s)
  | .readUntil o mask value =>
    if hostReadValue o s &&& mask = value then hostRead o (takeOp rest s)
    else hostRead o (takeOp (.readUntil o mask value :: rest) s)
  | .reset => resetBlock (takeOp rest s)

end Sys2Proof.Machine
end

