-- ==== Sys2Proof/Machine/Sequencer.lean ====
section
/-! DEFINITION. The sequencer: whose turn it is, and the completion step (44_pipeline_control.md R221). -/
namespace Sys2Proof.Machine

/-- The sequencer moves next: a command is pending, and no further host access comes before its completion, because the
free count is used up or the host has nothing left to do (R221, 70_reset_and_hazards.md R292). Log entry 2. -/
def sequencerTurn (s : State) : Bool := s.blk.busy && (s.ops.isEmpty || s.wait == 0)

/-- The completion step: decode PENDING and perform the command, or end an illegal word with its error (R221,
30_encoding.md R92). -/
def completionStep (s : State) : Host.Outcome State Fault Refusal :=
  match decode s.blk.pending with
  | .ok i => exec i s
  | .error _ => .next (illegalCommand s.blk.pending s)

/-- The machine's step: the sequencer's completion when it is its turn, else the host's next operation; with neither, the
idle block holds its state (60_exceptions.md R265). -/
def machineStep (s : State) : Host.Outcome State Fault Refusal :=
  if sequencerTurn s then completionStep s
  else match s.ops with
    | [] => .next s
    | op :: rest => .next (hostStep op rest s)

/-- The machine with a command word issued and the completion the next step (R220). Log entry 13. -/
def placeCommand (w : Word) (s : State) : State := { issue w s with wait := 0 }

end Sys2Proof.Machine
end

