-- ==== Sys2Proof/Machine/Step.lean ====
section
/-! DEFINITION. The step function under its fixed name, and how a table row's word is placed so that the next step runs it. -/
namespace Sys2Proof.Machine

/-- One step of the machine: one host access, one completion, one reset, or an idle step. -/
def step (s : State) : Host.Outcome State Fault Refusal := machineStep s

/-- `s` with the command word of a table row issued, so that the very next step completes it: what the host's write of the
word to CMD does (44_pipeline_control.md R220), and no host access left before the completion. Log entry 13. -/
def State.withFetchWord (s : State) (nbits w : Nat) : State := placeCommand (tableWord nbits w) s

end Sys2Proof.Machine
end

