-- ==== Sys2Proof/Machine/HostAsm.lean ====
section
/-! DEFINITION. The host's assembly language: the base operations by register name and the pseudo-instructions with their
exact expansions (30_encoding.md R103, R104). A program is the list of operations it expands to. -/
namespace Sys2Proof.Machine

/-- `WR <reg>, <value>` (R103). -/
def asmWr (r : Reg) (v : Word) : HostOp := .write (regOffset r) v

/-- `RD <reg>` (R103); the host finds the result in `State.replies`. -/
def asmRd (r : Reg) : HostOp := .read (regOffset r)

/-- `RDW <reg>, <mask>, <value>` (R103). -/
def asmRdw (r : Reg) (mask value : Word) : HostOp := .readUntil (regOffset r) mask value

/-- `POLL` (R104). -/
def asmPoll : List HostOp := [asmRdw .status 0x1#32 0x0#32]

/-- `CMD <mnemonic>` (R104). -/
def asmCmd (i : Instr) : List HostOp := [asmWr .cmd (encode i)]

/-- `EXEC <mnemonic>` (R104). -/
def asmExec (i : Instr) : List HostOp := asmCmd i ++ asmPoll

/-- `CLRA` (R104). -/
def asmClrA : List HostOp := [asmWr .opaCtl 0x1#32]

/-- `CLRB` (R104). -/
def asmClrB : List HostOp := [asmWr .opbCtl 0x1#32]

/-- `PUSHA "<chars>"`: one write per character, left to right, with the character's code (R104). Log entry 20. -/
def asmPushA (chars : List Char) : List HostOp := chars.map (fun c => asmWr .opaSym (BitVec.ofNat 32 c.toNat))

/-- `PUSHB "<chars>"` (R104). -/
def asmPushB (chars : List Char) : List HostOp := chars.map (fun c => asmWr .opbSym (BitVec.ofNat 32 c.toNat))

/-- `LOADA "<chars>"` (R104). -/
def asmLoadA (chars : List Char) : List HostOp := asmClrA ++ asmPushA chars

/-- `LOADB "<chars>"` (R104). -/
def asmLoadB (chars : List Char) : List HostOp := asmClrB ++ asmPushB chars

/-- `WR64 <name>, <hex64>`: the _LO half, then the _HI half (R104). -/
def asmWr64 (lo hi : Reg) (x : F64) : List HostOp := [asmWr lo (lo32 x), asmWr hi (hi32 x)]

/-- `RD64 <name>`: the _LO half, then the _HI half (R104). -/
def asmRd64 (lo hi : Reg) : List HostOp := [asmRd lo, asmRd hi]

/-- `LOCK` (R104). -/
def asmLock : List HostOp := [asmWr .ctrl 0x1#32]

/-- `SETCAL <id>, <w64>, <b64>` (R104). -/
def asmSetCal (id : BitVec 11) (w b : F64) : List HostOp :=
  [asmWr .calIdx (id.zeroExtend 32)] ++ asmWr64 .calWLo .calWHi w ++ asmWr64 .calBLo .calBHi b ++ [asmWr .calValid 0x1#32]

end Sys2Proof.Machine
end

