-- ==== Sys2Proof/Machine/RunEnd.lean ====
section
/-! DEFINITION. The end of a host program's run and the state it leaves (70_reset_and_hazards.md R294). Where the host has not
seen the last command's completion, whether the command has completed and what its result registers hold is free
(93_implementation_defined.md). Log entry 8. -/
namespace Sys2Proof.Machine

/-- Field registers of free contents; `k` numbers the command. -/
def freeFields (k : Nat) : Fields :=
  { sof := (Config.endBits k 0).setWidth 1
    id := (Config.endBits k 1).setWidth 11
    stuff := (Config.endBits k 2).setWidth 1
    ide := (Config.endBits k 3).setWidth 1
    rsvd := (Config.endBits k 4).setWidth 1
    msgLen := (Config.endBits k 5).setWidth 4
    ts := (Config.endBits k 6).setWidth 16
    data := Config.endBits k 7
    crc := (Config.endBits k 8).setWidth 15
    crcDel := (Config.endBits k 9).setWidth 1
    ack := (Config.endBits k 10).setWidth 1
    ackDel := (Config.endBits k 11).setWidth 1
    eof := (Config.endBits k 12).setWidth 1
    ifs := (Config.endBits k 13).setWidth 3 }

/-- A free flag. -/
def freeFlag (k place : Nat) : Bool := (Config.endBits k place).getLsbD 0

/-- A position memory whose first `n` entries have free contents, one at every second place from `place` on. -/
def freeEntries (k place : Nat) (m : Memory) : Nat → Memory
  | 0 => m
  | n + 1 => Memory.write (freeEntries k place m n) n (Config.endBits k (place + 2 * n))

/-- The block with free contents in the result registers the rule of a command names (R294), each in a place of its own. -/
def freeResults (k : Nat) (i : Instr) (b : Block) : Block :=
  match i with
  | .nop => b
  | .parse => { b with fields := freeFields k }
  | .decodeId => { b with resId := (Config.endBits k 14).setWidth 11 }
  | .decodeTs => { b with resTs := Config.endBits k 15 }
  | .decodeData => { b with resData := Config.endBits k 16 }
  | .verify => { b with resSum := (Config.endBits k 17).setWidth 15, resMatch := freeFlag k 18 }
  | .calibrate => { b with resCal := Config.endBits k 19 }
  | .processFrame => { b with
      fields := freeFields k, resId := (Config.endBits k 14).setWidth 11, resTs := Config.endBits k 15
      resData := Config.endBits k 16, resSum := (Config.endBits k 17).setWidth 15, resMatch := freeFlag k 18
      resCal := Config.endBits k 19, readingValid := freeFlag k 20, checksumOk := freeFlag k 21 }
  | .integrate => { b with
      outLen := (Config.endBits k 22).setWidth 16, theta := Config.endBits k 23, xacc := Config.endBits k 24
      yacc := Config.endBits k 25
      xm := freeEntries k 26 b.xm (min b.spd.len.toNat b.sampleDepth.toNat)
      ym := freeEntries k 27 b.ym (min b.spd.len.toNat b.sampleDepth.toNat) }
  | .clrSamples => b

/-- The block after the pending command's completion. -/
def completedBlock (s : State) : Block :=
  match completionStep s with
  | .next t => t.blk
  | _ => s.blk

/-- The block where a program ends before the host has seen the last command's completion (R294): a pending command has
completed or has not, and the result registers the command writes are free. -/
def undeterminedEnd (s : State) : Block :=
  let b := if s.blk.busy && Config.completedAtEnd s.issues then completedBlock s else s.blk
  match decode s.blk.pending with
  | .ok i => freeResults s.issues i b
  | .error _ => b

/-- The block at the end of the run, once the host has performed its last operation (R294); none before. -/
def endBlock (s : State) : Option Block :=
  if s.ops.isEmpty then some (if s.synced then s.blk else undeterminedEnd s) else none

end Sys2Proof.Machine
end

