-- ==== Sys2Proof/Safety.lean ====
section
/-! DEFINITION. The invariants of the machine, in the terms the statements use: what holds of the block right after reset and
after every step, and what counts as a run that stops. -/
namespace Sys2Proof.Machine

/-- An operand buffer is as pushes and clears leave it (10_state.md R36, R46): the bad-symbol detail is zero while BAD = 0 and
a non-bit symbol within the string otherwise, and no bit is set at or past COUNT. -/
structure BufferInv (x : OpBuf) : Prop where
  clean : x.bad = false → x.badSym = 0#8 ∧ x.badPos = 0#16
  symbol : x.bad = true → x.badSym ≠ 0x30#8 ∧ x.badSym ≠ 0x31#8
  position : x.bad = true → x.badPos.toNat < x.count.toNat ∨ x.badPos = 0xFFFF#16
  beyond : ∀ k, x.count.toNat ≤ k → x.bits.getLsbD k = false

/-- A memory is in canonical form and lies within a depth. -/
structure MemoryInv (depth : Nat) (m : Memory) : Prop where
  wf : Memory.wf m
  within : ∀ p ∈ m, p.1 < depth

/-- A sample sequence (10_state.md R42): its memory holds every counted sample that fits. -/
structure SequenceInv (depth : Nat) (q : SampleSeq) : Prop where
  mem : MemoryInv depth q.mem
  held : ∀ i, i < q.len.toNat → i < depth → (Table.get? q.mem i).isSome = true

/-- The calibration table is in canonical form and lies within CAL_DEPTH (10_state.md R35). -/
structure CalInv (b : Block) : Prop where
  wf : calWf b.cal
  within : ∀ p ∈ b.cal, p.1 < b.calDepth.toNat

/-- The position sequence lies within SAMPLE_DEPTH and both memories hold it (10_state.md R43). -/
structure OutputInv (b : Block) : Prop where
  xm : MemoryInv b.sampleDepth.toNat b.xm
  ym : MemoryInv b.sampleDepth.toNat b.ym
  len : b.outLen.toNat ≤ b.sampleDepth.toNat
  held : ∀ i, i < b.outLen.toNat → (Table.get? b.xm i).isSome = true ∧ (Table.get? b.ym i).isSome = true

/-- The status registers agree with each other (10_state.md R25, R29, R30, R41, 44_pipeline_control.md R220, R222). -/
structure StatusInv (b : Block) : Prop where
  pending : b.busy = true → b.err = .ok
  lastOp : b.lastOp = b.pending.extractLsb' 0 8
  detail : b.busy = false → b.err = .ok → b.errInfo = 0#32 ∧ b.errExpected = 0#32 ∧ b.errActual = 0#32
  reserved : b.errInfo.getLsbD 11 = false ∧ b.errInfo.getLsbD 15 = false
  sum : b.resSum.toNat ≤ 31620
  reading : b.readingValid = b.checksumOk

/-- The invariant of the block. -/
structure Block.Inv (b : Block) : Prop where
  calDepth : calDepthLegal b.calDepth = true
  sampleDepth : sampleDepthLegal b.sampleDepth = true
  sensorCount : b.sensorCount.toNat ≤ 2048
  cal : CalInv b
  opa : BufferInv b.opa
  opb : BufferInv b.opb
  spd : SequenceInv b.sampleDepth.toNat b.spd
  tim : SequenceInv b.sampleDepth.toNat b.tim
  ang : SequenceInv b.sampleDepth.toNat b.ang
  out : OutputInv b
  status : StatusInv b

/-- The invariant of the machine: that of its block. -/
def State.Inv (s : State) : Prop := Block.Inv s.blk

/-- The state's own surroundings are untouched: the host's queue, what it has read and whether that showed it the end of its
last command, and the completion's turn. -/
def HostUnchanged (s t : State) : Prop :=
  t.ops = s.ops ∧ t.replies = s.replies ∧ t.wait = s.wait ∧ t.issues = s.issues ∧ t.synced = s.synced

/-- `t` is `s` after a successful completion that leaves the block `b`: ERR = OK, zero error detail, BUSY = 0, and nothing else
(44_pipeline_control.md R222). -/
def CompletesWith (s t : State) (b : Block) : Prop :=
  t.blk = { b with err := .ok, errInfo := 0#32, errExpected := 0#32, errActual := 0#32, busy := false } ∧ HostUnchanged s t

/-- `t` is `s` after an error completion that leaves the block `b`: the error code and detail, BUSY = 0, and nothing else
(60_exceptions.md R251). -/
def EndsWithError (s t : State) (b : Block) (code : ErrCode) (info expected actual : Word) : Prop :=
  t.blk = { b with err := code, errInfo := info, errExpected := expected, errActual := actual, busy := false } ∧
  HostUnchanged s t

/-- A buffer holds exactly w bit symbols, and `v` is the number they denote, position 0 the most significant bit
(00_scope.md R9, 30_encoding.md R97). -/
def Denotes (x : OpBuf) (w : Nat) (v : BitVec w) : Prop :=
  x.bad = false ∧ x.count.toNat = w ∧ ∀ b, b < w → v.getLsbD b = x.bits.getLsbD (w - 1 - b)

/-- A field of width w holds the w symbols from position `o` on, the first of them its most significant bit
(30_encoding.md R94). -/
def FieldAt {w : Nat} (v : BitVec w) (o : Nat) (bits : BitVec 128) : Prop :=
  ∀ b, b < w → v.getLsbD b = bits.getLsbD (o + (w - 1 - b))

/-- The 14 fields hold the symbols at their positions (30_encoding.md R95). -/
def FieldsAre (f : Fields) (bits : BitVec 128) : Prop :=
  FieldAt f.sof 0 bits ∧ FieldAt f.id 1 bits ∧ FieldAt f.stuff 12 bits ∧ FieldAt f.ide 13 bits ∧ FieldAt f.rsvd 14 bits ∧
  FieldAt f.msgLen 15 bits ∧ FieldAt f.ts 19 bits ∧ FieldAt f.data 35 bits ∧ FieldAt f.crc 99 bits ∧
  FieldAt f.crcDel 114 bits ∧ FieldAt f.ack 115 bits ∧ FieldAt f.ackDel 116 bits ∧ FieldAt f.eof 117 bits ∧
  FieldAt f.ifs 118 bits

/-- The field registers read as the fields, zero-extended (10_state.md R40, 40_frame_extract.md R121). -/
def FieldReads (s : State) : Prop :=
  hostReadValue (regOffset .fldSof) s = s.blk.fields.sof.zeroExtend 32 ∧
  hostReadValue (regOffset .fldId) s = s.blk.fields.id.zeroExtend 32 ∧
  hostReadValue (regOffset .fldStuff) s = s.blk.fields.stuff.zeroExtend 32 ∧
  hostReadValue (regOffset .fldIde) s = s.blk.fields.ide.zeroExtend 32 ∧
  hostReadValue (regOffset .fldRsvd) s = s.blk.fields.rsvd.zeroExtend 32 ∧
  hostReadValue (regOffset .fldMsgLen) s = s.blk.fields.msgLen.zeroExtend 32 ∧
  hostReadValue (regOffset .fldTs) s = s.blk.fields.ts.zeroExtend 32 ∧
  hostReadValue (regOffset .fldDataHi) s ++ hostReadValue (regOffset .fldDataLo) s = s.blk.fields.data ∧
  hostReadValue (regOffset .fldCrc) s = s.blk.fields.crc.zeroExtend 32 ∧
  hostReadValue (regOffset .fldCrcDel) s = s.blk.fields.crcDel.zeroExtend 32 ∧
  hostReadValue (regOffset .fldAck) s = s.blk.fields.ack.zeroExtend 32 ∧
  hostReadValue (regOffset .fldAckDel) s = s.blk.fields.ackDel.zeroExtend 32 ∧
  hostReadValue (regOffset .fldEof) s = s.blk.fields.eof.zeroExtend 32 ∧
  hostReadValue (regOffset .fldIfs) s = s.blk.fields.ifs.zeroExtend 32

/-- The registers PROCESS_FRAME commits read as what they hold (10_state.md R40, R41, 44_pipeline_control.md R224). -/
def ReadingReads (s : State) : Prop :=
  FieldReads s ∧ hostReadValue (regOffset .resId) s = s.blk.resId.zeroExtend 32 ∧
  hostReadValue (regOffset .resTsHi) s ++ hostReadValue (regOffset .resTsLo) s = s.blk.resTs ∧
  hostReadValue (regOffset .resDataHi) s ++ hostReadValue (regOffset .resDataLo) s = s.blk.resData ∧
  hostReadValue (regOffset .resChk) s = 0#15 ++ (BitVec.ofBool s.blk.resMatch ++ (0#1 ++ s.blk.resSum)) ∧
  hostReadValue (regOffset .resCalHi) s ++ hostReadValue (regOffset .resCalLo) s = s.blk.resCal ∧
  hostReadValue (regOffset .resFlags) s = 0#30 ++ (BitVec.ofBool s.blk.checksumOk ++ BitVec.ofBool s.blk.readingValid)

/-- `r` is a finite binary64 value nearest to `num / den` units of 2^-1074, and of two equally near the one whose last bit is
0: the exact quotient rounded once with roundTiesToEven (00_scope.md R11). -/
def NearestEven (r : F64) (num : Int) (den : Nat) : Prop :=
  f64IsFinite r = true ∧
  ∀ y, f64IsFinite y = true →
    |f64Int r * den - num| ≤ |f64Int y * den - num| ∧
    (|f64Int r * den - num| = |f64Int y * den - num| → f64Int y = f64Int r ∨ r.getLsbD 0 = false)

/-- Half a unit in the last place past the greatest finite binary64, in units of 2^-1074: rounding goes to infinity from here
on (00_scope.md R11). -/
def overflowUnits : Nat := (2 ^ 54 - 1) * 2 ^ 2044

/-- `y` is the buffer `x` after a push of the written word `v` (20_memory.md R68). -/
def PushedOnto (v : Word) (x y : OpBuf) : Prop :=
  y.count.toNat = min (x.count.toNat + 1) 0xFFFF ∧
  (∀ k, k < 128 → y.bits.getLsbD k = if k = x.count.toNat then decide (v.toNat % 256 = 0x31) else x.bits.getLsbD k) ∧
  (if v.toNat % 256 ≠ 0x30 ∧ v.toNat % 256 ≠ 0x31 ∧ x.bad = false
    then y.bad = true ∧ y.badSym.toNat = v.toNat % 256 ∧ y.badPos = x.count
    else y.bad = x.bad ∧ y.badSym = x.badSym ∧ y.badPos = x.badPos)

/-- `r` is the sample sequence `q` after an append of the written word `v` (20_memory.md R71). -/
def AppendedTo (depth : Nat) (v : Word) (q r : SampleSeq) : Prop :=
  r.latch = q.latch ∧ r.len.toNat = min (q.len.toNat + 1) 0xFFFF ∧
  (∀ i, i ≠ q.len.toNat → Table.get? r.mem i = Table.get? q.mem i) ∧
  (if q.len.toNat < depth then Table.get? r.mem q.len.toNat = some (v ++ q.latch)
    else Table.get? r.mem q.len.toNat = Table.get? q.mem q.len.toNat)

/-- The headings of a run: +0.0, then each angle in radians added to the one before (43_integrator.md R194), whatever the
patterns of NaN results. -/
def HeadingsOf (b : Block) (n : Nat) (theta : Nat → F64) : Prop :=
  theta 0 = 0#64 ∧ ∀ i, i < n → ∃ j k, theta (i + 1) =
    fadd j (theta i) (fmul k (Memory.read .smAng b.ang.mem i) 0x3F91DF46A2529D39#64)

/-- The three sample sequences have the same length, which fits (43_integrator.md R194): INTEGRATE runs. -/
def SamplesAligned (b : Block) : Prop :=
  b.tim.len = b.spd.len ∧ b.ang.len = b.spd.len ∧ b.spd.len.toNat ≤ b.sampleDepth.toNat

/-- Sensor `id` has a calibration entry (42_calibrate.md R170). -/
def HasCalibration (b : Block) (id : BitVec 11) : Prop :=
  id.toNat < b.calDepth.toNat ∧ (calGet b.cal id.toNat).v = true

/-- Two results of one operation on the same operands agree, but for the pattern of a NaN (decision D11). -/
def SameButNaN (a b : F64) : Prop := a = b ∨ (f64IsNaN a = true ∧ f64IsNaN b = true)

/-- Two position memories hold the same, but for the patterns of NaNs. -/
def SameMemoryButNaN (m n : Memory) : Prop :=
  ∀ i, (Table.get? m i = none ∧ Table.get? n i = none) ∨
    ∃ x y, Table.get? m i = some x ∧ Table.get? n i = some y ∧ SameButNaN x y

/-- Two blocks agree in every element, but for the patterns of NaNs in the results of arithmetic. -/
def SameBlockButNaN (b c : Block) : Prop :=
  c = { b with resCal := c.resCal, xm := c.xm, ym := c.ym, theta := c.theta, xacc := c.xacc, yacc := c.yacc } ∧
  SameButNaN b.resCal c.resCal ∧ SameButNaN b.theta c.theta ∧ SameButNaN b.xacc c.xacc ∧ SameButNaN b.yacc c.yacc ∧
  SameMemoryButNaN b.xm c.xm ∧ SameMemoryButNaN b.ym c.ym

/-- `c` is `b` but for the result registers the rule of command `i` names. -/
def SameButResultsOf (i : Instr) (b c : Block) : Prop :=
  match i with
  | .nop | .clrSamples => c = b
  | .parse => c = { b with fields := c.fields }
  | .decodeId => c = { b with resId := c.resId }
  | .decodeTs => c = { b with resTs := c.resTs }
  | .decodeData => c = { b with resData := c.resData }
  | .verify => c = { b with resSum := c.resSum, resMatch := c.resMatch }
  | .calibrate => c = { b with resCal := c.resCal }
  | .processFrame => c = { b with
      fields := c.fields, resId := c.resId, resTs := c.resTs, resData := c.resData, resSum := c.resSum,
      resMatch := c.resMatch, resCal := c.resCal, readingValid := c.readingValid, checksumOk := c.checksumOk }
  | .integrate => c = { b with
      xm := c.xm, ym := c.ym, outLen := c.outLen, theta := c.theta, xacc := c.xacc, yacc := c.yacc }

/-- A state from which the machine takes a next step: neither a fault nor a refusal. -/
def Advances (s : State) : Prop := ∃ t, step s = .next t

end Sys2Proof.Machine
end

