-- ==== Sys2Proof/Certificates/Slice0/Obligations.lean ====
section
/-! DEFINITION. The statements about the machine, from the spec's numbered rules. OBLIGATIONS.json lists them. -/
open Sys2Proof Sys2Proof.Machine

/-! ## Decoding and the step -/

/-- The opcode map (30_encoding.md R91), word by word as the table prints it. -/
def Obligations.SpecWordsDecode : Prop :=
  decode 0x00000000#32 = .ok .nop ∧ decode 0x00000001#32 = .ok .parse ∧ decode 0x00000002#32 = .ok .decodeId ∧
  decode 0x00000003#32 = .ok .decodeTs ∧ decode 0x00000004#32 = .ok .decodeData ∧ decode 0x00000005#32 = .ok .verify ∧
  decode 0x00000006#32 = .ok .calibrate ∧ decode 0x00000007#32 = .ok .processFrame ∧
  decode 0x00000008#32 = .ok .integrate ∧ decode 0x00000009#32 = .ok .clrSamples ∧
  decode 0x0000000A#32 = .error .reservedOpcode ∧ decode 0x00000101#32 = .error .reservedBits

/-- Every 32-bit word has exactly one meaning (R93): it is a command's word, or it is illegal, which is so exactly where
bits 31:8 are not zero or the opcode is 0x0A or more (R92). -/
def Obligations.EveryWordHasOneMeaning : Prop :=
  (∀ w i, decode w = .ok i ↔ w = encode i) ∧
  ∀ w : Word, (∃ e, decode w = .error e) ↔ (w.toNat / 256 ≠ 0 ∨ 0x0A ≤ w.toNat % 256)

/-- A step at the sequencer's turn runs exactly the command that PENDING decodes to (44_pipeline_control.md R221): nothing is
added around `exec`. The turn is the model's (log entry 2). -/
def Obligations.StepRunsDecodedCommand : Prop :=
  ∀ (s : State) (i : Instr), s.blk.busy = true → (s.wait = 0 ∨ s.ops = []) → decode s.blk.pending = .ok i →
    step s = exec i s

/-- Issue (44_pipeline_control.md R220): the four registers, and nothing else of the block; dropped while BUSY = 1. -/
def Obligations.IssueLatchesCommand : Prop :=
  ∀ (s : State) (o : Offset) (w : Word) (rest : List HostOp), s.ops = .write o w :: rest → regAt o = some .cmd →
    (s.blk.busy = false → ∃ t, step s = .next t ∧ t.ops = rest ∧ t.replies = s.replies ∧
      t.blk = { s.blk with pending := w, busy := true, lastOp := w.extractLsb' 0 8, err := .ok }) ∧
    (s.blk.busy = true → s.wait ≠ 0 → ∃ t, step s = .next t ∧ t.blk = { s.blk with wrBusy := true })

/-- An illegal word (30_encoding.md R92): its write to CMD is accepted, and its completion, at the sequencer's turn, changes
nothing but the status and the detail. -/
def Obligations.IllegalWordEndsWithError : Prop :=
  ∀ w : Word, (w.toNat / 256 ≠ 0 ∨ 0x0A ≤ w.toNat % 256) →
    (∀ (s : State) (o : Offset) (rest : List HostOp), s.ops = .write o w :: rest → regAt o = some .cmd →
      s.blk.busy = false →
      ∃ t, step s = .next t ∧ t.blk.busy = true ∧ t.blk.lastOp = w.extractLsb' 0 8 ∧ t.blk.pending = w) ∧
    (∀ s : State, s.blk.busy = true → s.blk.pending = w → (s.wait = 0 ∨ s.ops = []) →
      ∃ u, step s = .next u ∧ EndsWithError s u s.blk .illegalCommand 0x000067FF#32 0#32 w)

/-! ## Every command -/

/-- Every command completes from every state, and leaves the operands, the configuration, the sticky flags and the latches
as they stood at its issue. -/
def Obligations.EveryCommandCompletes : Prop :=
  ∀ (i : Instr) (s : State), ∃ t, exec i s = .next t ∧ HostUnchanged s t ∧ t.blk.busy = false ∧
    t.blk.calDepth = s.blk.calDepth ∧ t.blk.sampleDepth = s.blk.sampleDepth ∧ t.blk.pending = s.blk.pending ∧
    t.blk.lastOp = s.blk.lastOp ∧ t.blk.wrBusy = s.blk.wrBusy ∧ t.blk.cfgErr = s.blk.cfgErr ∧
    t.blk.cfgLock = s.blk.cfgLock ∧ t.blk.sensorCount = s.blk.sensorCount ∧ t.blk.calIdx = s.blk.calIdx ∧
    t.blk.cal = s.blk.cal ∧ t.blk.opa = s.blk.opa ∧ t.blk.opb = s.blk.opb ∧ t.blk.calIdIn = s.blk.calIdIn ∧
    t.blk.raw = s.blk.raw ∧ t.blk.outIdx = s.blk.outIdx ∧
    t.blk.spd.mem = s.blk.spd.mem ∧ t.blk.tim.mem = s.blk.tim.mem ∧ t.blk.ang.mem = s.blk.ang.mem ∧
    t.blk.spd.latch = s.blk.spd.latch ∧ t.blk.tim.latch = s.blk.tim.latch ∧ t.blk.ang.latch = s.blk.ang.latch

/-- No state is stuck, and none faults or is refused (93_implementation_defined.md). -/
def Obligations.MachineNeverStops : Prop := ∀ s : State, Advances s

/-- An error is precise (60_exceptions.md R251): a completion with an error code leaves everything but the status and the
detail as before the command, and but RES_FLAGS, which PROCESS_FRAME has cleared. -/
def Obligations.ErrorsArePrecise : Prop :=
  ∀ (i : Instr) (s t : State), exec i s = .next t → t.blk.err ≠ .ok → HostUnchanged s t ∧
    t.blk = { s.blk with
      err := t.blk.err, errInfo := t.blk.errInfo, errExpected := t.blk.errExpected, errActual := t.blk.errActual,
      busy := false,
      readingValid := if i = .processFrame then false else s.blk.readingValid,
      checksumOk := if i = .processFrame then false else s.blk.checksumOk }

/-- Which command writes which result register (10_state.md R40 to R44, 70_reset_and_hazards.md R289): a result register that
changes was written by a command whose rule names it. -/
def Obligations.ResultsHaveTheirWriters : Prop :=
  ∀ (i : Instr) (s t : State), exec i s = .next t →
    (t.blk.fields ≠ s.blk.fields → i = .parse ∨ i = .processFrame) ∧
    (t.blk.resId ≠ s.blk.resId → i = .decodeId ∨ i = .processFrame) ∧
    (t.blk.resTs ≠ s.blk.resTs → i = .decodeTs ∨ i = .processFrame) ∧
    (t.blk.resData ≠ s.blk.resData → i = .decodeData ∨ i = .processFrame) ∧
    (t.blk.resSum ≠ s.blk.resSum ∨ t.blk.resMatch ≠ s.blk.resMatch → i = .verify ∨ i = .processFrame) ∧
    (t.blk.resCal ≠ s.blk.resCal → i = .calibrate ∨ i = .processFrame) ∧
    (t.blk.readingValid ≠ s.blk.readingValid ∨ t.blk.checksumOk ≠ s.blk.checksumOk → i = .processFrame) ∧
    (t.blk.xm ≠ s.blk.xm ∨ t.blk.ym ≠ s.blk.ym ∨ t.blk.outLen ≠ s.blk.outLen ∨ t.blk.theta ≠ s.blk.theta ∨
      t.blk.xacc ≠ s.blk.xacc ∨ t.blk.yacc ≠ s.blk.yacc → i = .integrate) ∧
    (t.blk.spd.len ≠ s.blk.spd.len ∨ t.blk.tim.len ≠ s.blk.tim.len ∨ t.blk.ang.len ≠ s.blk.ang.len → i = .clrSamples)

/-- A command's completion does not depend on what happens while it is pending (20_memory.md R77): a dropped write shows in
WRBUSY alone, the host's queue, what it has read and the turn do not matter, and reads, which draw free values, change no
more than the pattern of a NaN. -/
def Obligations.CompletionIgnoresInterleaving : Prop :=
  ∀ (i : Instr) (s t : State) (wrBusy synced : Bool) (ops : List HostOp) (replies : List Word) (wait issues draws : Nat),
    exec i s = .next t →
    ∃ u, exec i { blk := { s.blk with wrBusy := wrBusy }, ops := ops, replies := replies, wait := wait, issues := issues,
                  draws := draws, synced := synced } = .next u ∧
      u.ops = ops ∧ u.replies = replies ∧ u.wait = wait ∧ u.issues = issues ∧ u.synced = synced ∧
      SameBlockButNaN { t.blk with wrBusy := wrBusy } u.blk ∧
      (draws = s.draws → u.blk = { t.blk with wrBusy := wrBusy } ∧ u.draws = t.draws)

/-- NOP (44_pipeline_control.md R223). -/
def Obligations.NopOnlyClearsError : Prop :=
  encode .nop = 0x00000000#32 ∧ ∀ s : State, ∃ t, exec .nop s = .next t ∧ CompletesWith s t s.blk ∧ t.draws = s.draws

/-! ## The frame extractor -/

/-- PARSE (40_frame_extract.md R121), in all its cases. -/
def Obligations.ParseSplitsFrame : Prop :=
  encode .parse = 0x00000001#32 ∧ ∀ s : State,
    (s.blk.opa.bad = true → ∃ t, exec .parse s = .next t ∧
      EndsWithError s t s.blk .typeMismatch (s.blk.opa.badPos ++ 0x21FF#16) 0x00003130#32 (s.blk.opa.badSym.zeroExtend 32)) ∧
    (s.blk.opa.bad = false → s.blk.opa.count.toNat ≠ 121 → ∃ t, exec .parse s = .next t ∧
      EndsWithError s t s.blk .lengthMismatch 0x000011FF#32 121#32 (s.blk.opa.count.zeroExtend 32)) ∧
    (s.blk.opa.bad = false → s.blk.opa.count.toNat = 121 → ∃ t, exec .parse s = .next t ∧
      CompletesWith s t { s.blk with fields := t.blk.fields } ∧ FieldsAre t.blk.fields s.blk.opa.bits ∧ FieldReads t)

/-- The fields joined in layout order rebuild the frame (40_frame_extract.md R122). -/
def Obligations.FieldsRebuildFrame : Prop :=
  ∀ s : State, s.blk.opa.bad = false → s.blk.opa.count.toNat = 121 → ∃ t, exec .parse s = .next t ∧
    ∀ p, p < 121 →
      (t.blk.fields.sof ++ (t.blk.fields.id ++ (t.blk.fields.stuff ++ (t.blk.fields.ide ++ (t.blk.fields.rsvd ++
        (t.blk.fields.msgLen ++ (t.blk.fields.ts ++ (t.blk.fields.data ++ (t.blk.fields.crc ++ (t.blk.fields.crcDel ++
        (t.blk.fields.ack ++ (t.blk.fields.ackDel ++ (t.blk.fields.eof ++ t.blk.fields.ifs)))))))))))) : BitVec 121).getLsbD
          (120 - p) = s.blk.opa.bits.getLsbD p

/-- DECODE_ID (40_frame_extract.md R123), in all its cases. -/
def Obligations.DecodeIdLooksUpSensor : Prop :=
  encode .decodeId = 0x00000002#32 ∧ ∀ s : State,
    (s.blk.cfgLock = false → ∃ t, exec .decodeId s = .next t ∧
      EndsWithError s t s.blk .notConfigured 0x000070FF#32 1#32 0#32) ∧
    (s.blk.cfgLock = true → s.blk.opa.bad = true → ∃ t, exec .decodeId s = .next t ∧
      EndsWithError s t s.blk .decodeError (s.blk.opa.badPos ++ 0x2101#16) 0x00003130#32 (s.blk.opa.badSym.zeroExtend 32)) ∧
    (s.blk.cfgLock = true → s.blk.opa.bad = false → s.blk.opa.count.toNat ≠ 11 → ∃ t, exec .decodeId s = .next t ∧
      EndsWithError s t s.blk .decodeError 0x00001101#32 11#32 (s.blk.opa.count.zeroExtend 32)) ∧
    (∀ v : BitVec 11, s.blk.cfgLock = true → Denotes s.blk.opa 11 v →
      (s.blk.sensorCount.toNat ≤ v.toNat → ∃ t, exec .decodeId s = .next t ∧
        EndsWithError s t s.blk .unknownSensorId 0x00003101#32 (s.blk.sensorCount.zeroExtend 32) (v.zeroExtend 32)) ∧
      (v.toNat < s.blk.sensorCount.toNat → ∃ t, exec .decodeId s = .next t ∧
        CompletesWith s t { s.blk with resId := v } ∧ hostReadValue (regOffset .resId) t = v.zeroExtend 32))

/-- DECODE_TS (40_frame_extract.md R124), in all its cases: the result is t/1000 rounded once. -/
def Obligations.DecodeTsDividesByThousand : Prop :=
  encode .decodeTs = 0x00000003#32 ∧ ∀ s : State,
    (s.blk.opa.bad = true → ∃ t, exec .decodeTs s = .next t ∧
      EndsWithError s t s.blk .decodeError (s.blk.opa.badPos ++ 0x2106#16) 0x00003130#32 (s.blk.opa.badSym.zeroExtend 32)) ∧
    (s.blk.opa.bad = false → s.blk.opa.count.toNat ≠ 16 → ∃ t, exec .decodeTs s = .next t ∧
      EndsWithError s t s.blk .decodeError 0x00001106#32 16#32 (s.blk.opa.count.zeroExtend 32)) ∧
    (∀ v : BitVec 16, Denotes s.blk.opa 16 v → ∃ t, exec .decodeTs s = .next t ∧
      CompletesWith s t { s.blk with resTs := t.blk.resTs } ∧
      NearestEven t.blk.resTs (v.toNat * unitScale) 1000 ∧ f64Sign t.blk.resTs = false)

/-- DECODE_DATA (40_frame_extract.md R125), in all its cases: every pattern is copied unchanged. -/
def Obligations.DecodeDataCopiesPattern : Prop :=
  encode .decodeData = 0x00000004#32 ∧ ∀ s : State,
    (s.blk.opa.bad = true → ∃ t, exec .decodeData s = .next t ∧
      EndsWithError s t s.blk .decodeError (s.blk.opa.badPos ++ 0x2107#16) 0x00003130#32 (s.blk.opa.badSym.zeroExtend 32)) ∧
    (s.blk.opa.bad = false → s.blk.opa.count.toNat ≠ 64 → ∃ t, exec .decodeData s = .next t ∧
      EndsWithError s t s.blk .decodeError 0x00001107#32 64#32 (s.blk.opa.count.zeroExtend 32)) ∧
    (∀ v : F64, Denotes s.blk.opa 64 v → ∃ t, exec .decodeData s = .next t ∧
      CompletesWith s t { s.blk with resData := v } ∧ t.draws = s.draws)

/-! ## The checksum validator -/

/-- The checksum is the exact weighted sum of the eight bytes, most significant first (41_checksum.md R150), and fits 15 bits
(R151). -/
def Obligations.ChecksumIsWeightedByteSum : Prop :=
  ∀ d : F64,
    chk d = (d.toNat / 2 ^ 56 % 256) * 5 + (d.toNat / 2 ^ 48 % 256) * 7 + (d.toNat / 2 ^ 40 % 256) * 11 +
      (d.toNat / 2 ^ 32 % 256) * 13 + (d.toNat / 2 ^ 24 % 256) * 17 + (d.toNat / 2 ^ 16 % 256) * 19 +
      (d.toNat / 2 ^ 8 % 256) * 23 + (d.toNat % 256) * 29 ∧
    chk d ≤ 31620

/-- VERIFY (41_checksum.md R152), in all its cases: a mismatch is no error, and so is a bad symbol among OPB's 15. -/
def Obligations.VerifyComparesChecksum : Prop :=
  encode .verify = 0x00000005#32 ∧ ∀ s : State,
    (s.blk.opa.bad = true → ∃ t, exec .verify s = .next t ∧
      EndsWithError s t s.blk .typeMismatch (s.blk.opa.badPos ++ 0x2107#16) 0x00003130#32 (s.blk.opa.badSym.zeroExtend 32)) ∧
    (s.blk.opa.bad = false → s.blk.opa.count.toNat ≠ 64 → ∃ t, exec .verify s = .next t ∧
      EndsWithError s t s.blk .lengthMismatch 0x00001107#32 64#32 (s.blk.opa.count.zeroExtend 32)) ∧
    (∀ d : F64, Denotes s.blk.opa 64 d → s.blk.opb.count.toNat ≠ 15 → ∃ t, exec .verify s = .next t ∧
      EndsWithError s t s.blk .lengthMismatch 0x00001208#32 15#32 (s.blk.opb.count.zeroExtend 32)) ∧
    (∀ d : F64, Denotes s.blk.opa 64 d → s.blk.opb.count.toNat = 15 → ∃ t, exec .verify s = .next t ∧
      CompletesWith s t { s.blk with resSum := t.blk.resSum, resMatch := t.blk.resMatch } ∧
      t.blk.resSum.toNat = chk d ∧
      hostReadValue (regOffset .resChk) t = 0#15 ++ (BitVec.ofBool t.blk.resMatch ++ (0#1 ++ t.blk.resSum)) ∧
      (t.blk.resMatch = true ↔ ∃ c : BitVec 15, Denotes s.blk.opb 15 c ∧ c.toNat = chk d))

/-- The verdict is the comparison of the received 15 symbols with the padded rendering of the sum, symbol for symbol
(41_checksum.md R153). -/
def Obligations.VerdictIsSymbolComparison : Prop :=
  ∀ (s : State) (d : F64), Denotes s.blk.opa 64 d → s.blk.opb.count.toNat = 15 → ∃ t, exec .verify s = .next t ∧
    (t.blk.resMatch = true ↔
      s.blk.opb.bad = false ∧ ∀ p, p < 15 → s.blk.opb.bits.getLsbD p = (chk d).testBit (14 - p))

/-- A flip of bit b of byte k changes the sum by the byte's prime times 2^b, up or down, so the verdict against the old sum
fails; changes of several bits can collide (41_checksum.md R154). -/
def Obligations.SingleBitFlipIsDetected : Prop :=
  (∀ (d : F64) (k b : Nat) (p : Nat), [5, 7, 11, 13, 17, 19, 23, 29][k]? = some p → b < 8 →
    (chk (d ^^^ (1#64 <<< (56 - 8 * k + b))) : Int) = chk d + p * 2 ^ b ∨
    (chk (d ^^^ (1#64 <<< (56 - 8 * k + b))) : Int) = chk d - p * 2 ^ b) ∧
  (∀ (s : State) (d : F64) (n : Nat) (c : BitVec 15), n < 64 → Denotes s.blk.opa 64 (d ^^^ (1#64 <<< n)) →
    Denotes s.blk.opb 15 c → c.toNat = chk d → ∃ t, exec .verify s = .next t ∧ t.blk.err = .ok ∧ t.blk.resMatch = false) ∧
  chk 0x0700000000000000#64 = 35 ∧ chk 0x0005000000000000#64 = 35

/-! ## Calibration -/

/-- CALIBRATE (42_calibrate.md R171), in all its cases: a subtraction, then a multiplication, each rounded. -/
def Obligations.CalibrateSubtractsThenScales : Prop :=
  encode .calibrate = 0x00000006#32 ∧ ∀ s : State,
    (s.blk.cfgLock = false → ∃ t, exec .calibrate s = .next t ∧
      EndsWithError s t s.blk .notConfigured 0x000070FF#32 1#32 0#32) ∧
    (s.blk.cfgLock = true → ¬ HasCalibration s.blk s.blk.calIdIn → ∃ t, exec .calibrate s = .next t ∧
      EndsWithError s t s.blk .unknownSensorId 0x000043FF#32 (s.blk.calDepth.zeroExtend 32) (s.blk.calIdIn.zeroExtend 32)) ∧
    (s.blk.cfgLock = true → HasCalibration s.blk s.blk.calIdIn → ∃ t j k, exec .calibrate s = .next t ∧
      CompletesWith s t { s.blk with
        resCal := fmul j (fsub k s.blk.raw (calGet s.blk.cal s.blk.calIdIn.toNat).b) (calGet s.blk.cal s.blk.calIdIn.toNat).w })

/-- A raw value equal to a finite bias maps to a zero with the sign of a finite weight (42_calibrate.md R172, first item). -/
def Obligations.BiasMapsToZero : Prop :=
  ∀ s : State, s.blk.cfgLock = true → HasCalibration s.blk s.blk.calIdIn →
    s.blk.raw = (calGet s.blk.cal s.blk.calIdIn.toNat).b → f64IsFinite s.blk.raw = true →
    f64IsFinite (calGet s.blk.cal s.blk.calIdIn.toNat).w = true →
    ∃ t, exec .calibrate s = .next t ∧ t.blk.err = .ok ∧
      t.blk.resCal = if f64Sign (calGet s.blk.cal s.blk.calIdIn.toNat).w then 0x8000000000000000#64 else 0x0000000000000000#64

/-- A calibration result depends on CAL_ID_IN, RAW and the entry alone, but for the pattern of a NaN (42_calibrate.md R174). -/
def Obligations.CalibrationHasNoHistory : Prop :=
  ∀ s u : State, s.blk.cfgLock = true → u.blk.cfgLock = true → HasCalibration s.blk s.blk.calIdIn →
    u.blk.calIdIn = s.blk.calIdIn → u.blk.raw = s.blk.raw → u.blk.calDepth = s.blk.calDepth →
    calGet u.blk.cal s.blk.calIdIn.toNat = calGet s.blk.cal s.blk.calIdIn.toNat →
    ∃ t v, exec .calibrate s = .next t ∧ exec .calibrate u = .next v ∧ SameButNaN t.blk.resCal v.blk.resCal

/-! ## The frame pipeline -/

/-- PROCESS_FRAME (44_pipeline_control.md R224), in all its cases. -/
def Obligations.ProcessFrameFollowsPipeline : Prop :=
  encode .processFrame = 0x00000007#32 ∧ ∀ s : State,
    (s.blk.cfgLock = false → ∃ t, exec .processFrame s = .next t ∧
      EndsWithError s t { s.blk with readingValid := false, checksumOk := false } .notConfigured 0x000070FF#32 1#32 0#32) ∧
    (s.blk.cfgLock = true → s.blk.opa.bad = true → ∃ t, exec .processFrame s = .next t ∧
      EndsWithError s t { s.blk with readingValid := false, checksumOk := false } .typeMismatch
        (s.blk.opa.badPos ++ 0x21FF#16) 0x00003130#32 (s.blk.opa.badSym.zeroExtend 32)) ∧
    (s.blk.cfgLock = true → s.blk.opa.bad = false → s.blk.opa.count.toNat ≠ 121 → ∃ t, exec .processFrame s = .next t ∧
      EndsWithError s t { s.blk with readingValid := false, checksumOk := false } .lengthMismatch 0x000011FF#32 121#32
        (s.blk.opa.count.zeroExtend 32)) ∧
    (∀ f : Fields, s.blk.cfgLock = true → s.blk.opa.bad = false → s.blk.opa.count.toNat = 121 →
      FieldsAre f s.blk.opa.bits →
      (s.blk.sensorCount.toNat ≤ f.id.toNat → ∃ t, exec .processFrame s = .next t ∧
        EndsWithError s t { s.blk with readingValid := false, checksumOk := false } .unknownSensorId 0x00003101#32
          (s.blk.sensorCount.zeroExtend 32) (f.id.zeroExtend 32)) ∧
      (f.id.toNat < s.blk.sensorCount.toNat → f.crc.toNat = chk f.data → ¬ HasCalibration s.blk f.id →
        ∃ t, exec .processFrame s = .next t ∧
        EndsWithError s t { s.blk with readingValid := false, checksumOk := false } .unknownSensorId 0x00004101#32
          (s.blk.calDepth.zeroExtend 32) (f.id.zeroExtend 32)) ∧
      (f.id.toNat < s.blk.sensorCount.toNat → f.crc.toNat = chk f.data → HasCalibration s.blk f.id →
        ∃ t j k, exec .processFrame s = .next t ∧
        CompletesWith s t { s.blk with
          fields := f, resId := f.id, resTs := t.blk.resTs, resData := f.data, resSum := t.blk.resSum, resMatch := true,
          resCal := fmul j (fsub k f.data (calGet s.blk.cal f.id.toNat).b) (calGet s.blk.cal f.id.toNat).w,
          readingValid := true, checksumOk := true } ∧
        NearestEven t.blk.resTs (f.ts.toNat * unitScale) 1000 ∧ f64Sign t.blk.resTs = false ∧
        t.blk.resSum.toNat = chk f.data ∧ ReadingReads t) ∧
      (f.id.toNat < s.blk.sensorCount.toNat → f.crc.toNat ≠ chk f.data → ∃ t, exec .processFrame s = .next t ∧
        CompletesWith s t { s.blk with
          fields := f, resId := f.id, resTs := t.blk.resTs, resData := f.data, resSum := t.blk.resSum, resMatch := false,
          readingValid := false, checksumOk := false } ∧
        NearestEven t.blk.resTs (f.ts.toNat * unitScale) 1000 ∧ f64Sign t.blk.resTs = false ∧
        t.blk.resSum.toNat = chk f.data ∧ ReadingReads t))

/-- PROCESS_FRAME computes what the separate commands compute on the frame's fields, but for the pattern of a NaN
(44_pipeline_control.md R225). An operand of the wrong width is a DecodeError of a decoder, which PROCESS_FRAME never ends
with. -/
def Obligations.PipelineMatchesCommands : Prop :=
  (∀ s t : State, exec .processFrame s = .next t → t.blk.err ≠ .decodeError ∧ (t.blk.err = .ok →
    (∃ u, exec .parse s = .next u ∧ u.blk.err = .ok ∧ u.blk.fields = t.blk.fields) ∧
    (∀ q : State, q.blk.cfgLock = true → q.blk.sensorCount = s.blk.sensorCount → Denotes q.blk.opa 11 t.blk.fields.id →
      ∃ u, exec .decodeId q = .next u ∧ u.blk.err = .ok ∧ u.blk.resId = t.blk.resId) ∧
    (∀ q : State, Denotes q.blk.opa 16 t.blk.fields.ts →
      ∃ u, exec .decodeTs q = .next u ∧ u.blk.err = .ok ∧ u.blk.resTs = t.blk.resTs) ∧
    (∀ q : State, Denotes q.blk.opa 64 t.blk.fields.data → Denotes q.blk.opb 15 t.blk.fields.crc →
      ∃ u, exec .verify q = .next u ∧ u.blk.err = .ok ∧ u.blk.resSum = t.blk.resSum ∧ u.blk.resMatch = t.blk.resMatch) ∧
    (∀ q : State, t.blk.readingValid = true → q.blk.cfgLock = true → q.blk.calDepth = s.blk.calDepth →
      q.blk.cal = s.blk.cal → q.blk.calIdIn = t.blk.resId → q.blk.raw = t.blk.fields.data →
      ∃ u, exec .calibrate q = .next u ∧ u.blk.err = .ok ∧ SameButNaN u.blk.resCal t.blk.resCal))) ∧
  (∀ q : State, q.blk.opa.count.toNat ≠ 16 → ∃ u, exec .decodeTs q = .next u ∧ u.blk.err = .decodeError) ∧
  (∀ q : State, q.blk.opa.count.toNat ≠ 64 → ∃ u, exec .decodeData q = .next u ∧ u.blk.err = .decodeError) ∧
  (∀ q : State, q.blk.cfgLock = true → q.blk.opa.count.toNat ≠ 11 →
    ∃ u, exec .decodeId q = .next u ∧ u.blk.err = .decodeError)

/-! ## The integrator -/

/-- INTEGRATE (43_integrator.md R194), in all its cases: the recurrence, sample by sample, from +0.0; the entries past the
run are unchanged. -/
def Obligations.IntegrateDeadReckons : Prop :=
  encode .integrate = 0x00000008#32 ∧ ∀ s : State,
    (s.blk.tim.len ≠ s.blk.spd.len → ∃ t, exec .integrate s = .next t ∧
      EndsWithError s t s.blk .lengthMismatch 0x000015FF#32 (s.blk.spd.len.zeroExtend 32) (s.blk.tim.len.zeroExtend 32)) ∧
    (s.blk.tim.len = s.blk.spd.len → s.blk.ang.len ≠ s.blk.spd.len → ∃ t, exec .integrate s = .next t ∧
      EndsWithError s t s.blk .lengthMismatch 0x000016FF#32 (s.blk.spd.len.zeroExtend 32) (s.blk.ang.len.zeroExtend 32)) ∧
    (s.blk.tim.len = s.blk.spd.len → s.blk.ang.len = s.blk.spd.len → s.blk.sampleDepth.toNat < s.blk.spd.len.toNat →
      ∃ t, exec .integrate s = .next t ∧
      EndsWithError s t s.blk .capacityExceeded 0x000054FF#32 (s.blk.sampleDepth.zeroExtend 32)
        (s.blk.spd.len.zeroExtend 32)) ∧
    (SamplesAligned s.blk → ∃ (t : State) (theta x y : Nat → F64), exec .integrate s = .next t ∧
      CompletesWith s t { s.blk with
        xm := t.blk.xm, ym := t.blk.ym, outLen := s.blk.spd.len,
        theta := theta s.blk.spd.len.toNat, xacc := x s.blk.spd.len.toNat, yacc := y s.blk.spd.len.toNat } ∧
      theta 0 = 0#64 ∧ x 0 = 0#64 ∧ y 0 = 0#64 ∧
      (∀ i, i < s.blk.spd.len.toNat → ∃ (k : Nat → Nat) (d : F64),
        d = fmul (k 2) (fmul (k 1) (Memory.read .smSpd s.blk.spd.mem i) 0x3F323810E8858FF7#64)
          (Memory.read .smTim s.blk.tim.mem i) ∧
        theta (i + 1) = fadd (k 3) (theta i) (fmul (k 0) (Memory.read .smAng s.blk.ang.mem i) 0x3F91DF46A2529D39#64) ∧
        x (i + 1) = fadd (k 5) (x i) (fmul (k 4) d (cos64 (theta (i + 1)))) ∧
        y (i + 1) = fadd (k 7) (y i) (fmul (k 6) d (sin64 (theta (i + 1)))) ∧
        Table.get? t.blk.xm i = some (x (i + 1)) ∧ Table.get? t.blk.ym i = some (y (i + 1))) ∧
      (∀ i, s.blk.spd.len.toNat ≤ i →
        Table.get? t.blk.xm i = Table.get? s.blk.xm i ∧ Table.get? t.blk.ym i = Table.get? s.blk.ym i))

/-- With every speed a zero, a position is +0.0 where every time and every heading up to its sample are finite; from a sample on
whose time or heading is not finite, they are NaNs (43_integrator.md R197). -/
def Obligations.ZeroSpeedStaysAtOrigin : Prop :=
  ∀ (s : State) (theta : Nat → F64), SamplesAligned s.blk → HeadingsOf s.blk s.blk.spd.len.toNat theta →
    (∀ i, i < s.blk.spd.len.toNat → f64IsZero (Memory.read .smSpd s.blk.spd.mem i) = true) →
    ∃ t, exec .integrate s = .next t ∧ t.blk.err = .ok ∧
      (∀ i, i < s.blk.spd.len.toNat →
        (∀ j, j ≤ i → f64IsFinite (Memory.read .smTim s.blk.tim.mem j) = true ∧ f64IsFinite (theta (j + 1)) = true) →
        Table.get? t.blk.xm i = some 0#64 ∧ Table.get? t.blk.ym i = some 0#64) ∧
      (∀ j, j < s.blk.spd.len.toNat →
        (f64IsFinite (Memory.read .smTim s.blk.tim.mem j) = false ∨ f64IsFinite (theta (j + 1)) = false) →
        ∀ i, j ≤ i → i < s.blk.spd.len.toNat →
          f64IsNaN (Memory.read .xm t.blk.xm i) = true ∧ f64IsNaN (Memory.read .ym t.blk.ym i) = true)

/-- Issued twice on the same samples, INTEGRATE gives the same outputs, but for the pattern of a NaN (43_integrator.md R196,
decision D11). -/
def Obligations.IntegrateIsRepeatable : Prop :=
  ∀ s t : State, exec .integrate s = .next t → t.blk.err = .ok →
    ∃ u, exec .integrate t = .next u ∧ u.blk.err = .ok ∧ u.blk.outLen = t.blk.outLen ∧ SameBlockButNaN t.blk u.blk

/-- The source's example of one sample, speed 3600, time 1000, angle 0: x = 1000.8 and y = 0 for every admissible cosine and
sine (95_test_vectors.md V-I1). -/
def Obligations.SingleSampleExample : Prop :=
  ∀ s : State, s.blk.spd.len = 1#16 → s.blk.tim.len = 1#16 → s.blk.ang.len = 1#16 → 1 ≤ s.blk.sampleDepth.toNat →
    Table.get? s.blk.spd.mem 0 = some 0x40AC200000000000#64 → Table.get? s.blk.tim.mem 0 = some 0x408F400000000000#64 →
    Table.get? s.blk.ang.mem 0 = some 0#64 →
    ∃ t, exec .integrate s = .next t ∧ Table.get? t.blk.xm 0 = some 0x408F466666666666#64 ∧
      Table.get? t.blk.ym 0 = some 0#64 ∧ t.blk.theta = 0#64

/-- CLR_SAMPLES (43_integrator.md R195). -/
def Obligations.ClrSamplesEmptiesSequences : Prop :=
  encode .clrSamples = 0x00000009#32 ∧ ∀ s : State, ∃ t, exec .clrSamples s = .next t ∧ t.draws = s.draws ∧
    CompletesWith s t { s.blk with
      spd := { s.blk.spd with len := 0#16 }, tim := { s.blk.tim with len := 0#16 },
      ang := { s.blk.ang with len := 0#16 } }

/-! ## Binary64 arithmetic -/

/-- A finite sum is the exact sum rounded once, ties to even (00_scope.md R11); an exact zero sum is -0.0 only of two negative
zeros. -/
def Obligations.FaddRoundsOnce : Prop :=
  ∀ (k : Nat) (a b : F64), f64IsFinite a = true → f64IsFinite b = true → f64IsFinite (fadd k a b) = true →
    NearestEven (fadd k a b) (f64Int a + f64Int b) 1 ∧
    (f64Int a + f64Int b ≠ 0 → (f64Sign (fadd k a b) = true ↔ f64Int a + f64Int b < 0)) ∧
    (f64Int a + f64Int b = 0 → fadd k a b = if f64Sign a && f64Sign b then 0x8000000000000000#64 else 0#64)

/-- A finite product is the exact product rounded once, ties to even, and its sign is the product of the signs (R11). -/
def Obligations.FmulRoundsOnce : Prop :=
  ∀ (k : Nat) (a b : F64), f64IsFinite a = true → f64IsFinite b = true → f64IsFinite (fmul k a b) = true →
    NearestEven (fmul k a b) (f64Int a * f64Int b) unitScale ∧
    f64Sign (fmul k a b) = (f64Sign a != f64Sign b)

/-- A finite quotient by a value that is not zero is the exact quotient rounded once, ties to even (R11). -/
def Obligations.FdivRoundsOnce : Prop :=
  ∀ (k : Nat) (a b : F64), f64IsFinite a = true → f64IsFinite b = true → f64IsZero b = false →
    f64IsFinite (fdiv k a b) = true →
    NearestEven (fdiv k a b) (if f64Sign b then -(f64Int a * unitScale) else f64Int a * unitScale) (f64Units b) ∧
    f64Sign (fdiv k a b) = (f64Sign a != f64Sign b)

/-- A product or sum of finite values overflows to infinity exactly from half a unit past the greatest finite value on
(42_calibrate.md R172, third item). -/
def Obligations.OverflowGoesToInfinity : Prop :=
  ∀ (k : Nat) (a b : F64), f64IsFinite a = true → f64IsFinite b = true →
    (f64IsInf (fmul k a b) = true ↔ overflowUnits * unitScale ≤ |f64Int a * f64Int b|) ∧
    (f64IsInf (fadd k a b) = true ↔ overflowUnits ≤ |f64Int a + f64Int b|)

/-- Which operations give a NaN, and that it is always a quiet one (42_calibrate.md R172, second item; decision D11). -/
def Obligations.NanResultsAreQuiet : Prop :=
  ∀ (k : Nat) (a b : F64),
    (f64IsNaN (fsub k a b) = true ↔ f64IsNaN a = true ∨ f64IsNaN b = true ∨
      (f64IsInf a = true ∧ f64IsInf b = true ∧ f64Sign a = f64Sign b)) ∧
    (f64IsNaN (fmul k a b) = true ↔ f64IsNaN a = true ∨ f64IsNaN b = true ∨
      (f64IsInf a = true ∧ f64IsZero b = true) ∨ (f64IsZero a = true ∧ f64IsInf b = true)) ∧
    (f64IsNaN (fsub k a b) = true → f64IsQuietNaN (fsub k a b) = true) ∧
    (f64IsNaN (fmul k a b) = true → f64IsQuietNaN (fmul k a b) = true)

/-- The properties of every admissible cosine and sine (43_integrator.md R193). -/
def Obligations.CosineAndSineAreAdmissible : Prop :=
  cos64 0x0000000000000000#64 = 0x3FF0000000000000#64 ∧ cos64 0x8000000000000000#64 = 0x3FF0000000000000#64 ∧
  sin64 0x0000000000000000#64 = 0x0000000000000000#64 ∧ sin64 0x8000000000000000#64 = 0x8000000000000000#64 ∧
  ∀ a : F64,
    (f64IsFinite a = false → f64IsNaN (cos64 a) = true ∧ f64IsNaN (sin64 a) = true) ∧
    (f64IsFinite a = true → f64IsFinite (cos64 a) = true ∧ |f64Int (cos64 a)| ≤ unitScale ∧
      f64IsFinite (sin64 a) = true ∧ |f64Int (sin64 a)| ≤ unitScale)

/-! ## The host's accesses -/

/-- While BUSY = 1 every write is dropped, whatever its offset, and sets WRBUSY (20_memory.md R77). -/
def Obligations.BusyWritesAreDropped : Prop :=
  ∀ (s : State) (o : Offset) (v : Word) (rest : List HostOp), s.ops = .write o v :: rest → s.blk.busy = true →
    s.wait ≠ 0 → ∃ t, step s = .next t ∧ t.blk = { s.blk with wrBusy := true } ∧ t.ops = rest ∧ t.replies = s.replies

/-- A read never changes the block (20_memory.md R67), and gives the host one word. -/
def Obligations.ReadsChangeNothing : Prop :=
  ∀ (s : State) (o : Offset) (rest : List HostOp), s.ops = .read o :: rest → (s.blk.busy = false ∨ s.wait ≠ 0) →
    ∃ t, step s = .next t ∧ t.blk = s.blk ∧ t.ops = rest ∧ t.replies = hostReadValue o s :: s.replies

/-- `RDW` reads until its test holds (30_encoding.md R103). That the model performs one read at a step, gives the host the word
of each of them, and keeps the operation at the head of the queue until the test holds is its own choice (log entry 22), and so
are the queue and the turn (log entries 1 and 2). -/
def Obligations.SpinWaitEndsOnMatch : Prop :=
  ∀ (s : State) (o : Offset) (mask value : Word) (rest : List HostOp), s.ops = .readUntil o mask value :: rest →
    (s.blk.busy = false ∨ s.wait ≠ 0) →
    ∃ t, step s = .next t ∧ t.blk = s.blk ∧ t.replies = hostReadValue o s :: s.replies ∧
      (hostReadValue o s &&& mask = value → t.ops = rest) ∧
      (hostReadValue o s &&& mask ≠ value → t.ops = s.ops)

/-- A read of STATUS, PARAMS, CTRL or the layout returns its current value, also while BUSY = 1 (20_memory.md R76, 10_state.md
R25, R27, R28, R45). -/
def Obligations.StatusReadsInEitherPhase : Prop :=
  ∀ (s : State) (o : Offset),
    (o &&& 0x3FC#10 = 0x004#10 → hostReadValue o s = statusWord s.blk) ∧
    (o &&& 0x3FC#10 = 0x00C#10 → hostReadValue o s = 0#4 ++ (s.blk.calDepth ++ s.blk.sampleDepth)) ∧
    (o &&& 0x3FC#10 = 0x010#10 → hostReadValue o s = if s.blk.cfgLock then 1#32 else 0#32) ∧
    (o &&& 0x3FC#10 = 0x200#10 → hostReadValue o s = 121#32) ∧
    (∀ j : Fin 14, o &&& 0x3FC#10 = BitVec.ofNat 10 (0x204 + 4 * j.val) → hostReadValue o s = layoutWord j.val)

/-- STATUS (10_state.md R25), bit by bit. -/
def Obligations.StatusWordBits : Prop :=
  ∀ b : Block,
    (statusWord b).getLsbD 0 = b.busy ∧ (statusWord b).extractLsb' 1 3 = 0#3 ∧
    ((statusWord b).extractLsb' 4 4 = match b.err with
      | .ok => 0#4 | .lengthMismatch => 1#4 | .typeMismatch => 2#4 | .unknownSensorId => 3#4 | .decodeError => 4#4
      | .illegalCommand => 5#4 | .notConfigured => 6#4 | .capacityExceeded => 7#4) ∧
    (statusWord b).getLsbD 8 = b.cfgLock ∧ (statusWord b).getLsbD 9 = b.wrBusy ∧ (statusWord b).getLsbD 10 = b.cfgErr ∧
    (statusWord b).extractLsb' 11 5 = 0#5 ∧ (statusWord b).extractLsb' 16 8 = b.lastOp ∧
    (statusWord b).extractLsb' 24 8 = 0#8

/-- LAYOUT_TOTAL and LAYOUT_j at their offsets (10_state.md R45, 30_encoding.md R95). -/
def Obligations.LayoutReadsAsPrinted : Prop :=
  ∀ s : State, hostReadValue 0x200#10 s = 121#32 ∧
    ((List.range 14).map (fun j => hostReadValue (BitVec.ofNat 10 (0x204 + 4 * j)) s)) =
      [0x00000001#32, 0x0000010B#32, 0x00000C01#32, 0x00000D01#32, 0x00000E01#32, 0x00000F04#32, 0x00001310#32,
       0x00002340#32, 0x0000630F#32, 0x00007201#32, 0x00007301#32, 0x00007401#32, 0x00007501#32, 0x00007603#32]

/-- Offset bits 1:0 are ignored by every access (20_memory.md R61). -/
def Obligations.LowOffsetBitsIgnored : Prop :=
  ∀ (o : Offset) (s : State) (v : Word),
    hostReadValue o s = hostReadValue (o &&& 0x3FC#10) s ∧ hostWrite o v s = hostWrite (o &&& 0x3FC#10) v s

/-- The register map (10_state.md R23): every register answers at its own offset, the registers that no read shows at the
offsets the map prints, and every other word offset is reserved; a reserved offset reads 0 in either phase and ignores writes,
which while BUSY = 1 still set WRBUSY (20_memory.md R62). -/
def Obligations.RegisterMapIsClosed : Prop :=
  (∀ r : Reg, regAt (regOffset r) = some r) ∧
  (∀ (o : Offset) (r : Reg), regAt o = some r → o &&& 0x3FC#10 = regOffset r) ∧
  (regAt 0x000#10 = some .cmd ∧ regAt 0x008#10 = some .statusClr ∧ regAt 0x040#10 = some .opaSym ∧
    regAt 0x044#10 = some .opaCtl ∧ regAt 0x050#10 = some .opbSym ∧ regAt 0x054#10 = some .opbCtl ∧
    regAt 0x100#10 = some .spdLo ∧ regAt 0x104#10 = some .spdHi ∧ regAt 0x108#10 = some .timLo ∧
    regAt 0x10C#10 = some .timHi ∧ regAt 0x110#10 = some .angLo ∧ regAt 0x114#10 = some .angHi ∧
    regAt 0x12C#10 = some .xLo ∧ regAt 0x130#10 = some .xHi ∧ regAt 0x134#10 = some .yLo ∧ regAt 0x138#10 = some .yHi) ∧
  (∀ (o : Offset) (s : State) (v : Word), regAt o = none →
    hostReadValue o s = 0#32 ∧ (s.blk.busy = false → hostWrite o v s = s) ∧
    (s.blk.busy = true → hostWrite o v s = { s with blk := { s.blk with wrBusy := true } }))

/-- The access column of the register map (10_state.md R23, 20_memory.md R67): a write to a read-only register is ignored, and a
write-only register reads 0, while the block is idle. -/
def Obligations.AccessColumnHolds : Prop :=
  ∀ (s : State) (o : Offset) (v : Word) (rest : List HostOp) (row : RegRow), row ∈ regMap → regAt o = some row.reg →
    s.blk.busy = false →
    (row.access = .ro → s.ops = .write o v :: rest → ∃ t, step s = .next t ∧ t.blk = s.blk) ∧
    (row.access = .wo → hostReadValue o s = 0#32)

/-- What a read of each register that holds state returns while the block is idle (10_state.md R23, R29 to R44, 20_memory.md
R65, R67), at the offsets the register map prints. STATUS, PARAMS, CTRL, the layout and the position window have statements of
their own. -/
def Obligations.IdleRegistersRead : Prop :=
  ∀ s : State, s.blk.busy = false →
    (hostReadValue 0x014#10 s = s.blk.errInfo ∧ hostReadValue 0x018#10 s = s.blk.errExpected ∧
      hostReadValue 0x01C#10 s = s.blk.errActual) ∧
    (hostReadValue 0x020#10 s = s.blk.sensorCount.zeroExtend 32 ∧ hostReadValue 0x024#10 s = s.blk.calIdx.zeroExtend 32) ∧
    (s.blk.calIdx.toNat < s.blk.calDepth.toNat →
      hostReadValue 0x02C#10 s ++ hostReadValue 0x028#10 s = (calGet s.blk.cal s.blk.calIdx.toNat).w ∧
      hostReadValue 0x034#10 s ++ hostReadValue 0x030#10 s = (calGet s.blk.cal s.blk.calIdx.toNat).b ∧
      hostReadValue 0x038#10 s = 0#31 ++ BitVec.ofBool (calGet s.blk.cal s.blk.calIdx.toNat).v) ∧
    (s.blk.calDepth.toNat ≤ s.blk.calIdx.toNat → hostReadValue 0x028#10 s = 0#32 ∧ hostReadValue 0x02C#10 s = 0#32 ∧
      hostReadValue 0x030#10 s = 0#32 ∧ hostReadValue 0x034#10 s = 0#32 ∧ hostReadValue 0x038#10 s = 0#32) ∧
    (hostReadValue 0x048#10 s = s.blk.opa.badSym ++ (0#7 ++ (BitVec.ofBool s.blk.opa.bad ++ s.blk.opa.count)) ∧
      hostReadValue 0x04C#10 s = s.blk.opa.badPos.zeroExtend 32 ∧
      hostReadValue 0x058#10 s = s.blk.opb.badSym ++ (0#7 ++ (BitVec.ofBool s.blk.opb.bad ++ s.blk.opb.count)) ∧
      hostReadValue 0x05C#10 s = s.blk.opb.badPos.zeroExtend 32) ∧
    (hostReadValue 0x060#10 s = s.blk.calIdIn.zeroExtend 32 ∧ hostReadValue 0x068#10 s ++ hostReadValue 0x064#10 s = s.blk.raw) ∧
    (hostReadValue 0x080#10 s = s.blk.fields.sof.zeroExtend 32 ∧ hostReadValue 0x084#10 s = s.blk.fields.id.zeroExtend 32 ∧
      hostReadValue 0x088#10 s = s.blk.fields.stuff.zeroExtend 32 ∧ hostReadValue 0x08C#10 s = s.blk.fields.ide.zeroExtend 32 ∧
      hostReadValue 0x090#10 s = s.blk.fields.rsvd.zeroExtend 32 ∧
      hostReadValue 0x094#10 s = s.blk.fields.msgLen.zeroExtend 32 ∧
      hostReadValue 0x098#10 s = s.blk.fields.ts.zeroExtend 32 ∧
      hostReadValue 0x0A0#10 s ++ hostReadValue 0x09C#10 s = s.blk.fields.data ∧
      hostReadValue 0x0A4#10 s = s.blk.fields.crc.zeroExtend 32 ∧
      hostReadValue 0x0A8#10 s = s.blk.fields.crcDel.zeroExtend 32 ∧ hostReadValue 0x0AC#10 s = s.blk.fields.ack.zeroExtend 32 ∧
      hostReadValue 0x0B0#10 s = s.blk.fields.ackDel.zeroExtend 32 ∧ hostReadValue 0x0B4#10 s = s.blk.fields.eof.zeroExtend 32 ∧
      hostReadValue 0x0B8#10 s = s.blk.fields.ifs.zeroExtend 32) ∧
    (hostReadValue 0x0C0#10 s = s.blk.resId.zeroExtend 32 ∧
      hostReadValue 0x0C8#10 s ++ hostReadValue 0x0C4#10 s = s.blk.resTs ∧
      hostReadValue 0x0D0#10 s ++ hostReadValue 0x0CC#10 s = s.blk.resData ∧
      hostReadValue 0x0D4#10 s = 0#15 ++ (BitVec.ofBool s.blk.resMatch ++ (0#1 ++ s.blk.resSum)) ∧
      hostReadValue 0x0DC#10 s ++ hostReadValue 0x0D8#10 s = s.blk.resCal ∧
      hostReadValue 0x0E0#10 s = 0#30 ++ (BitVec.ofBool s.blk.checksumOk ++ BitVec.ofBool s.blk.readingValid)) ∧
    (hostReadValue 0x118#10 s = s.blk.spd.len.zeroExtend 32 ∧ hostReadValue 0x11C#10 s = s.blk.tim.len.zeroExtend 32 ∧
      hostReadValue 0x120#10 s = s.blk.ang.len.zeroExtend 32 ∧ hostReadValue 0x124#10 s = s.blk.outLen.zeroExtend 32 ∧
      hostReadValue 0x128#10 s = s.blk.outIdx.zeroExtend 32) ∧
    (hostReadValue 0x140#10 s ++ hostReadValue 0x13C#10 s = s.blk.theta ∧
      hostReadValue 0x148#10 s ++ hostReadValue 0x144#10 s = s.blk.xacc ∧
      hostReadValue 0x150#10 s ++ hostReadValue 0x14C#10 s = s.blk.yacc)

/-- A symbol push on OPA or OPB (20_memory.md R68), and nothing else of the block. -/
def Obligations.PushAppendsSymbol : Prop :=
  ∀ (s : State) (o : Offset) (v : Word) (rest : List HostOp), s.ops = .write o v :: rest → s.blk.busy = false →
    (regAt o = some .opaSym → ∃ t, step s = .next t ∧ t.blk = { s.blk with opa := t.blk.opa } ∧
      PushedOnto v s.blk.opa t.blk.opa) ∧
    (regAt o = some .opbSym → ∃ t, step s = .next t ∧ t.blk = { s.blk with opb := t.blk.opb } ∧
      PushedOnto v s.blk.opb t.blk.opb)

/-- A string of at most 128 bit characters pushed into a cleared buffer, left to right, is the number it denotes with its
first character the most significant bit (20_memory.md R66, 30_encoding.md R97). -/
def Obligations.PushedStringIsBigEndian : Prop :=
  ∀ (n w : Nat), w ≤ 128 → n < 2 ^ w →
    Denotes (((List.range w).reverse.map (fun b => if n.testBit b then 0x31#32 else 0x30#32)).foldl
      (fun x v => pushSymbol v x) OpBuf.empty) w (BitVec.ofNat w n)

/-- A buffer clear (20_memory.md R69). -/
def Obligations.ClearEmptiesBuffer : Prop :=
  ∀ (s : State) (o : Offset) (v : Word) (rest : List HostOp), s.ops = .write o v :: rest → s.blk.busy = false →
    (regAt o = some .opaCtl → ∃ t, step s = .next t ∧
      t.blk = if v.getLsbD 0 then { s.blk with opa := ⟨0#16, false, 0#8, 0#16, 0#128⟩ } else s.blk) ∧
    (regAt o = some .opbCtl → ∃ t, step s = .next t ∧
      t.blk = if v.getLsbD 0 then { s.blk with opb := ⟨0#16, false, 0#8, 0#16, 0#128⟩ } else s.blk)

/-- A latch write and a sample append (20_memory.md R70, R71) on each of the three sequences, and nothing else of the block. -/
def Obligations.AppendStoresSample : Prop :=
  ∀ (s : State) (o : Offset) (v : Word) (rest : List HostOp), s.ops = .write o v :: rest → s.blk.busy = false →
    ∃ t, step s = .next t ∧
    (regAt o = some .spdLo → t.blk = { s.blk with spd := { s.blk.spd with latch := v } }) ∧
    (regAt o = some .timLo → t.blk = { s.blk with tim := { s.blk.tim with latch := v } }) ∧
    (regAt o = some .angLo → t.blk = { s.blk with ang := { s.blk.ang with latch := v } }) ∧
    (regAt o = some .spdHi → t.blk = { s.blk with spd := t.blk.spd } ∧
      AppendedTo s.blk.sampleDepth.toNat v s.blk.spd t.blk.spd) ∧
    (regAt o = some .timHi → t.blk = { s.blk with tim := t.blk.tim } ∧
      AppendedTo s.blk.sampleDepth.toNat v s.blk.tim t.blk.tim) ∧
    (regAt o = some .angHi → t.blk = { s.blk with ang := t.blk.ang } ∧
      AppendedTo s.blk.sampleDepth.toNat v s.blk.ang t.blk.ang)

/-- CTRL and STATUS_CLR (10_state.md R28, R26; 20_memory.md R72): the lock can be set and not cleared, and a sticky flag is
cleared by writing 1 to its bit. -/
def Obligations.ControlWritesFollowRules : Prop :=
  ∀ (s : State) (o : Offset) (v : Word) (rest : List HostOp), s.ops = .write o v :: rest → s.blk.busy = false →
    ∃ t, step s = .next t ∧
    (regAt o = some .ctrl → t.blk = if v.getLsbD 0 then { s.blk with cfgLock := true } else s.blk) ∧
    (regAt o = some .statusClr → t.blk = { s.blk with
      wrBusy := if v.getLsbD 9 then false else s.blk.wrBusy, cfgErr := if v.getLsbD 10 then false else s.blk.cfgErr })

/-- Operand register writes (20_memory.md R73): the written bits of the register's field, and no other effect. -/
def Obligations.OperandWritesStoreBits : Prop :=
  ∀ (s : State) (o : Offset) (v : Word) (rest : List HostOp), s.ops = .write o v :: rest → s.blk.busy = false →
    ∃ t, step s = .next t ∧
    (regAt o = some .calIdIn → t.blk = { s.blk with calIdIn := BitVec.ofNat 11 v.toNat }) ∧
    (regAt o = some .calIdx → t.blk = { s.blk with calIdx := BitVec.ofNat 11 v.toNat }) ∧
    (regAt o = some .outIdx → t.blk = { s.blk with outIdx := BitVec.ofNat 16 v.toNat }) ∧
    (regAt o = some .rawLo → t.blk = { s.blk with raw := s.blk.raw.extractLsb' 32 32 ++ v }) ∧
    (regAt o = some .rawHi → t.blk = { s.blk with raw := v ++ s.blk.raw.extractLsb' 0 32 })

/-- SENSOR_COUNT (10_state.md R31, 20_memory.md R74): min(v[11:0], 2048) while unlocked; dropped under the lock, which sets
CFGERR. -/
def Obligations.SensorCountWrites : Prop :=
  ∀ (s : State) (o : Offset) (v : Word) (rest : List HostOp), s.ops = .write o v :: rest → regAt o = some .sensorCount →
    s.blk.busy = false → ∃ t, step s = .next t ∧
      (s.blk.cfgLock = true → t.blk = { s.blk with cfgErr := true }) ∧
      (s.blk.cfgLock = false → t.blk = { s.blk with sensorCount := t.blk.sensorCount } ∧
        t.blk.sensorCount.toNat = min (v.toNat % 4096) 2048)

/-- The calibration registers (10_state.md R33, R34; 20_memory.md R74). With CAL_IDX in range, an unlocked write changes one part
of the selected entry and no other entry, a locked one is dropped and sets CFGERR. Out of range, a write is ignored without
setting CFGERR and a read gives 0 (R33, decision D45), locked or not; that this holds against R74 under the lock is the model's
reading (log entry 10). -/
def Obligations.CalibrationRegisterWrites : Prop :=
  ∀ (s : State) (o : Offset) (v : Word) (rest : List HostOp), s.ops = .write o v :: rest → s.blk.busy = false →
    (regAt o = some .calWLo ∨ regAt o = some .calWHi ∨ regAt o = some .calBLo ∨ regAt o = some .calBHi ∨
      regAt o = some .calValid) →
    (s.blk.calIdx.toNat < s.blk.calDepth.toNat → s.blk.cfgLock = true →
      ∃ t, step s = .next t ∧ t.blk = { s.blk with cfgErr := true }) ∧
    (s.blk.calDepth.toNat ≤ s.blk.calIdx.toNat →
      hostReadValue o s = 0#32 ∧ ∃ t, step s = .next t ∧ t.blk = s.blk) ∧
    (s.blk.calIdx.toNat < s.blk.calDepth.toNat → s.blk.cfgLock = false →
      ∃ t, step s = .next t ∧ t.blk = { s.blk with cal := t.blk.cal } ∧
        (∀ e, e ≠ s.blk.calIdx.toNat → calGet t.blk.cal e = calGet s.blk.cal e) ∧
        hostReadValue o t = (if regAt o = some .calValid then v &&& 1#32 else v) ∧
        (∀ (q : Offset) (r : Reg), regAt q = some r → regAt o ≠ some r → hostReadValue q t = hostReadValue q s))

/-- The position window (10_state.md R43) while idle. At or past OUT_LEN the word is free and nothing is stated. -/
def Obligations.WindowReadsSelectedEntry : Prop :=
  ∀ (s : State) (o : Offset) (x y : F64), s.blk.busy = false → s.blk.outIdx.toNat < s.blk.outLen.toNat →
    Table.get? s.blk.xm s.blk.outIdx.toNat = some x → Table.get? s.blk.ym s.blk.outIdx.toNat = some y →
    (regAt o = some .xLo → hostReadValue o s = x.extractLsb' 0 32) ∧
    (regAt o = some .xHi → hostReadValue o s = x.extractLsb' 32 32) ∧
    (regAt o = some .yLo → hostReadValue o s = y.extractLsb' 0 32) ∧
    (regAt o = some .yHi → hostReadValue o s = y.extractLsb' 32 32)

/-! ## Reset and whole-machine rules -/

/-- Reset (70_reset_and_hazards.md R280, R281): whatever was pending, every state element takes its reset value. The two
parameters of the instance stay. -/
def Obligations.ResetSetsEveryElement : Prop :=
  ∀ (s : State) (rest : List HostOp), s.ops = .reset :: rest → (s.blk.busy = false ∨ s.wait ≠ 0) →
    ∃ t, step s = .next t ∧ t.ops = rest ∧ t.replies = s.replies ∧
      t.blk.calDepth = s.blk.calDepth ∧ t.blk.sampleDepth = s.blk.sampleDepth ∧
      statusWord t.blk = 0#32 ∧ t.blk.cfgLock = false ∧ t.blk.pending = 0#32 ∧
      t.blk.errInfo = 0#32 ∧ t.blk.errExpected = 0#32 ∧ t.blk.errActual = 0#32 ∧
      t.blk.sensorCount = 15#12 ∧ t.blk.calIdx = 0#11 ∧ (∀ e, calGet t.blk.cal e = ⟨0#64, 0#64, false⟩) ∧
      t.blk.opa = ⟨0#16, false, 0#8, 0#16, 0#128⟩ ∧ t.blk.opb = ⟨0#16, false, 0#8, 0#16, 0#128⟩ ∧
      t.blk.calIdIn = 0#11 ∧ t.blk.raw = 0#64 ∧
      t.blk.fields = ⟨0#1, 0#11, 0#1, 0#1, 0#1, 0#4, 0#16, 0#64, 0#15, 0#1, 0#1, 0#1, 0#1, 0#3⟩ ∧
      t.blk.resId = 0#11 ∧ t.blk.resTs = 0#64 ∧ t.blk.resData = 0#64 ∧ t.blk.resSum = 0#15 ∧ t.blk.resMatch = false ∧
      t.blk.resCal = 0#64 ∧ t.blk.readingValid = false ∧ t.blk.checksumOk = false ∧
      t.blk.spd.len = 0#16 ∧ t.blk.tim.len = 0#16 ∧ t.blk.ang.len = 0#16 ∧
      t.blk.spd.latch = 0#32 ∧ t.blk.tim.latch = 0#32 ∧ t.blk.ang.latch = 0#32 ∧
      t.blk.outLen = 0#16 ∧ t.blk.outIdx = 0#16 ∧ t.blk.theta = 0#64 ∧ t.blk.xacc = 0#64 ∧ t.blk.yacc = 0#64

/-- Once the configuration is locked, only reset unlocks it or changes SENSOR_COUNT or a calibration entry
(70_reset_and_hazards.md R282). -/
def Obligations.LockHoldsUntilReset : Prop :=
  ∀ s t : State, step s = .next t → s.blk.cfgLock = true →
    (t.blk.cfgLock = true ∧ t.blk.sensorCount = s.blk.sensorCount ∧ t.blk.cal = s.blk.cal) ∨
    (s.ops.head? = some .reset ∧ t.blk = Block.reset s.blk.calDepth s.blk.sampleDepth)

/-- A pending command completes after finitely many steps (70_reset_and_hazards.md R292), at most one more than the free count
of host accesses before its completion; the count is the model's (log entry 2). A run ends when the host has performed its last
operation (R294): an issue leaves the host waiting until it reads STATUS with BUSY = 0; if it has, the end state is the block's
state; if not, a command still pending has completed or has not, and its result registers are not determined (how the model
says so is log entry 8). -/
def Obligations.CommandsCompleteAndRunsEnd : Prop :=
  (∀ s : State, s.blk.busy = true → ∃ n t, n ≤ s.wait + 1 ∧ Sys2Proof.core.run n s = .next t ∧ t.blk.busy = false) ∧
  (∀ (s : State) (o : Offset) (v : Word) (rest : List HostOp), s.ops = .write o v :: rest → regAt o = some .cmd →
    s.blk.busy = false → ∃ t, step s = .next t ∧ t.synced = false) ∧
  (∀ (s : State) (o : Offset) (rest : List HostOp),
    (s.ops = .read o :: rest ∨ s.ops = .readUntil o 1#32 0#32 :: rest) → regAt o = some .status → s.blk.busy = false →
    ∃ t, step s = .next t ∧ t.ops = rest ∧ t.blk = s.blk ∧ t.synced = true) ∧
  (∀ s : State, s.ops ≠ [] → endBlock s = none) ∧
  (∀ s : State, s.ops = [] → s.synced = true → endBlock s = some s.blk) ∧
  (∀ (s : State) (i : Instr), s.ops = [] → s.synced = false → decode s.blk.pending = .ok i →
    ∃ b c, endBlock s = some c ∧ SameButResultsOf i b c ∧
      (b = s.blk ∨ (s.blk.busy = true ∧ ∃ t, step s = .next t ∧ b = t.blk)))

/-- The machine right after reset meets the invariant. -/
def Obligations.ResetMeetsInvariant : Prop := State.Inv State.reset

/-- The invariant holds after every step from every state in which it holds: the memories and the calibration table keep their
canonical form and lie within their depths, every counted sample and position is held, the buffers keep no bit past COUNT,
and the status registers agree with each other. -/
def Obligations.StepKeepsInvariant : Prop :=
  ∀ s t : State, State.Inv s → step s = .next t → State.Inv t
end

