-- ==== Sys2Proof/Laws/Table.lean ====
section
/-! SUPPORT. The laws of the internal memories: a read after a write, that a write leaves every other index alone, that every
operation keeps the canonical form, and that equal contents in canonical form are equal data. -/
namespace Sys2Proof.Machine

variable {α : Type}

theorem Table.wf_cons (p : Nat × α) (rest : Table α) :
    Table.wf (p :: rest) ↔ (∀ q ∈ rest, p.1 < q.1) ∧ Table.wf rest := List.pairwise_cons

theorem Table.get?_none_of_above {t : Table α} {i : Nat} (h : ∀ p ∈ t, i < p.1) : Table.get? t i = none := by
  induction t with
  | nil => rfl
  | cons p rest ih =>
    obtain ⟨k, v⟩ := p
    have hk : i < k := h (k, v) (by simp)
    rw [Table.get?, if_neg (by omega)]
    exact ih (fun q hq => h q (by simp [hq]))

theorem Table.mem_of_get? {t : Table α} {i : Nat} {v : α} (h : Table.get? t i = some v) : (i, v) ∈ t := by
  induction t with
  | nil => simp [Table.get?] at h
  | cons p rest ih =>
    obtain ⟨k, w⟩ := p
    rw [Table.get?] at h
    split at h
    · next hik => subst hik; simp_all
    · exact List.mem_cons_of_mem _ (ih h)

theorem Table.get?_of_mem {t : Table α} {i : Nat} {v : α} (hw : Table.wf t) (h : (i, v) ∈ t) :
    Table.get? t i = some v := by
  induction t with
  | nil => simp at h
  | cons p rest ih =>
    obtain ⟨k, w⟩ := p
    obtain ⟨hlt, hr⟩ := (Table.wf_cons _ _).1 hw
    rw [Table.get?]
    rcases List.mem_cons.1 h with heq | hmem
    · obtain ⟨rfl, rfl⟩ := Prod.mk.inj heq
      simp
    · have : k < i := hlt _ hmem
      rw [if_neg (by omega)]
      exact ih hr hmem

/-- Two tables in canonical form with the same contents are the same data. -/
theorem Table.ext_of_wf : ∀ {t u : Table α}, Table.wf t → Table.wf u → (∀ i, Table.get? t i = Table.get? u i) → t = u
  | [], [], _, _, _ => rfl
  | [], (k, v) :: rest, _, _, h => by simpa [Table.get?] using h k
  | (k, v) :: rest, [], _, _, h => by simpa [Table.get?] using h k
  | (k, v) :: t, (j, w) :: u, ht, hu, h => by
    obtain ⟨htk, ht'⟩ := (Table.wf_cons _ _).1 ht
    obtain ⟨huj, hu'⟩ := (Table.wf_cons _ _).1 hu
    have hkj : k = j := by
      rcases Nat.lt_trichotomy k j with hlt | heq | hgt
      · have hk := h k
        rw [Table.get?, if_pos rfl, Table.get?_none_of_above (fun p hp => ?_)] at hk
        · simp at hk
        · rcases List.mem_cons.1 hp with rfl | hp
          · exact hlt
          · exact lt_trans hlt (huj p hp)
      · exact heq
      · have hj := h j
        rw [Table.get?_none_of_above (t := (k, v) :: t) (fun p hp => ?_), Table.get?, if_pos rfl] at hj
        · simp at hj
        · rcases List.mem_cons.1 hp with rfl | hp
          · exact hgt
          · exact lt_trans hgt (htk p hp)
    subst hkj
    have hv : v = w := by simpa [Table.get?] using h k
    subst hv
    congr 1
    refine Table.ext_of_wf ht' hu' (fun i => ?_)
    by_cases hik : i = k
    · subst hik
      rw [Table.get?_none_of_above htk, Table.get?_none_of_above huj]
    · simpa [Table.get?, hik] using h i

/-- A read of the index written gives the value written. -/
@[simp] theorem Table.get?_put_same (t : Table α) (i : Nat) (v : α) : Table.get? (Table.put t i v) i = some v := by
  induction t with
  | nil => simp [Table.put, Table.get?]
  | cons p rest ih =>
    obtain ⟨k, w⟩ := p
    rw [Table.put]
    split
    · simp [Table.get?]
    · split
      · simp [Table.get?]
      · next h1 h2 => rw [Table.get?, if_neg h2]; exact ih

/-- A write leaves every other index alone. -/
theorem Table.get?_put_other (t : Table α) {i j : Nat} (v : α) (h : j ≠ i) :
    Table.get? (Table.put t i v) j = Table.get? t j := by
  induction t with
  | nil => simp [Table.put, Table.get?, h]
  | cons p rest ih =>
    obtain ⟨k, w⟩ := p
    rw [Table.put]
    split
    · simp [Table.get?, h]
    · split
      · next h1 h2 => subst h2; simp [Table.get?, h]
      · simp only [Table.get?, ih]

theorem Table.mem_put {t : Table α} {i : Nat} {v : α} {p : Nat × α} (h : p ∈ Table.put t i v) :
    p = (i, v) ∨ p ∈ t := by
  induction t with
  | nil => simpa [Table.put] using h
  | cons q rest ih =>
    obtain ⟨k, w⟩ := q
    rw [Table.put] at h
    split at h
    · rcases List.mem_cons.1 h with h | h
      · exact .inl h
      · exact .inr h
    · split at h
      · rcases List.mem_cons.1 h with h | h
        · exact .inl h
        · exact .inr (by simp [h])
      · rcases List.mem_cons.1 h with h | h
        · exact .inr (by simp [h])
        · rcases ih h with h | h
          · exact .inl h
          · exact .inr (by simp [h])

/-- A write keeps the canonical form. -/
theorem Table.put_wf {t : Table α} (i : Nat) (v : α) (h : Table.wf t) : Table.wf (Table.put t i v) := by
  induction t with
  | nil => simp [Table.put, Table.wf]
  | cons p rest ih =>
    obtain ⟨k, w⟩ := p
    obtain ⟨hlt, hr⟩ := (Table.wf_cons _ _).1 h
    rw [Table.put]
    split
    · next hik =>
      refine (Table.wf_cons _ _).2 ⟨fun q hq => ?_, h⟩
      rcases List.mem_cons.1 hq with rfl | hq
      · exact hik
      · exact lt_trans hik (hlt q hq)
    · split
      · next h1 h2 => subst h2; exact (Table.wf_cons _ _).2 ⟨hlt, hr⟩
      · next h1 h2 =>
        refine (Table.wf_cons _ _).2 ⟨fun q hq => ?_, ih hr⟩
        rcases Table.mem_put hq with rfl | hq
        · show k < i
          omega
        · exact hlt q hq

theorem Table.mem_del {t : Table α} {i : Nat} {p : Nat × α} (h : p ∈ Table.del t i) : p ∈ t := by
  induction t with
  | nil => simp [Table.del] at h
  | cons q rest ih =>
    obtain ⟨k, w⟩ := q
    rw [Table.del] at h
    split at h
    · exact List.mem_cons_of_mem _ (ih h)
    · rcases List.mem_cons.1 h with h | h
      · simp [h]
      · exact List.mem_cons_of_mem _ (ih h)

/-- A removal keeps the canonical form. -/
theorem Table.del_wf {t : Table α} (i : Nat) (h : Table.wf t) : Table.wf (Table.del t i) := by
  induction t with
  | nil => simp [Table.del, Table.wf]
  | cons p rest ih =>
    obtain ⟨k, w⟩ := p
    obtain ⟨hlt, hr⟩ := (Table.wf_cons _ _).1 h
    rw [Table.del]
    split
    · exact ih hr
    · exact (Table.wf_cons _ _).2 ⟨fun q hq => hlt q (Table.mem_del hq), ih hr⟩

/-- A read of the index removed finds nothing. -/
@[simp] theorem Table.get?_del_same (t : Table α) (i : Nat) : Table.get? (Table.del t i) i = none := by
  induction t with
  | nil => rfl
  | cons p rest ih =>
    obtain ⟨k, w⟩ := p
    rw [Table.del]
    split
    · exact ih
    · next h => rw [Table.get?, if_neg h]; exact ih

/-- A removal leaves every other index alone. -/
theorem Table.get?_del_other (t : Table α) {i j : Nat} (h : j ≠ i) :
    Table.get? (Table.del t i) j = Table.get? t j := by
  induction t with
  | nil => rfl
  | cons p rest ih =>
    obtain ⟨k, w⟩ := p
    rw [Table.del]
    split
    · next hik => subst hik; rw [Table.get?, if_neg h]; exact ih
    · simp only [Table.get?, ih]

/-- A memory read of the entry written gives the value written. -/
@[simp] theorem Memory.read_write_same (name : MemName) (m : Memory) (i : Nat) (v : F64) :
    Memory.read name (Memory.write m i v) i = v := by
  simp [Memory.read, Memory.write]

/-- A memory write leaves every other entry alone. -/
theorem Memory.read_write_other (name : MemName) (m : Memory) {i j : Nat} (v : F64) (h : j ≠ i) :
    Memory.read name (Memory.write m i v) j = Memory.read name m j := by
  simp [Memory.read, Memory.write, Table.get?_put_other m v h]

/-- A memory write keeps the canonical form. -/
theorem Memory.write_wf {m : Memory} (i : Nat) (v : F64) (h : Memory.wf m) : Memory.wf (Memory.write m i v) :=
  Table.put_wf i v h

/-- A read of the calibration entry stored gives the entry stored. -/
@[simp] theorem calGet_calSet_same (cal : Table CalEntry) (e : Nat) (x : CalEntry) : calGet (calSet cal e x) e = x := by
  unfold calGet calSet
  split
  · next h => simp [h]
  · simp

/-- A store to the calibration table leaves every other entry alone. -/
theorem calGet_calSet_other (cal : Table CalEntry) {e j : Nat} (x : CalEntry) (h : j ≠ e) :
    calGet (calSet cal e x) j = calGet cal j := by
  unfold calGet calSet
  split
  · rw [Table.get?_del_other cal h]
  · rw [Table.get?_put_other cal x h]

/-- A store keeps the calibration table's canonical form. -/
theorem calSet_wf {cal : Table CalEntry} (e : Nat) (x : CalEntry) (h : calWf cal) : calWf (calSet cal e x) := by
  unfold calSet
  split
  · exact ⟨Table.del_wf e h.1, fun p hp => h.2 p (Table.mem_del hp)⟩
  · next hx =>
    refine ⟨Table.put_wf e x h.1, fun p hp => ?_⟩
    rcases Table.mem_put hp with rfl | hp
    · exact hx
    · exact h.2 p hp

/-- A store lists no index but the one stored to and those listed before. -/
theorem calSet_within {cal : Table CalEntry} {e n : Nat} (x : CalEntry) (he : e < n) (h : ∀ p ∈ cal, p.1 < n) :
    ∀ p ∈ calSet cal e x, p.1 < n := by
  unfold calSet
  split
  · exact fun p hp => h p (Table.mem_del hp)
  · intro p hp
    rcases Table.mem_put hp with rfl | hp
    · exact he
    · exact h p hp

end Sys2Proof.Machine
end

