-- ==== Sys2Proof/Laws/Operands.lean ====
section
/-! SUPPORT. What the operand forms and the buffer operations can do: the value of a bit string, the shape check, a push, a
clear, an append, and that each keeps its part of the invariant. -/
namespace Sys2Proof.Machine

/-- A bit string of width w is below 2^w. -/
theorem valNat_lt (bits : BitVec 128) (w : Nat) : valNat bits w < 2 ^ w := by
  induction w with
  | zero => simp [valNat]
  | succ w ih =>
    have := Bool.toNat_lt (bits.getLsbD w)
    rw [valNat, Nat.pow_succ]
    omega

/-- The number a buffer's first w symbols denote. -/
theorem val_toNat (x : OpBuf) (w : Nat) : (val x w).toNat = valNat x.bits w := by
  simp [val, Nat.mod_eq_of_lt (valNat_lt x.bits w)]

/-- Bit b of a bit string of width w is the symbol at position w-1-b (30_encoding.md R97). -/
theorem valNat_testBit (bits : BitVec 128) (w b : Nat) (h : b < w) :
    (valNat bits w).testBit b = bits.getLsbD (w - 1 - b) := by
  induction w generalizing b with
  | zero => omega
  | succ w ih =>
    rw [valNat]
    cases b with
    | zero =>
      cases hb : bits.getLsbD w <;> simp [Nat.testBit_zero, hb]
    | succ b =>
      have hdiv : (2 * valNat bits w + (bits.getLsbD w).toNat) / 2 = valNat bits w := by
        have := Bool.toNat_lt (bits.getLsbD w)
        omega
      rw [Nat.testBit_succ, hdiv, ih b (by omega)]
      congr 1
      omega

/-- Bit b of `val(X, w)` is the symbol at position w-1-b (R97). -/
theorem val_getLsbD (x : OpBuf) (w b : Nat) (h : b < w) : (val x w).getLsbD b = x.bits.getLsbD (w - 1 - b) := by
  rw [← BitVec.testBit_toNat, val_toNat, valNat_testBit _ _ _ h]

/-- A shape check passes exactly for a buffer of the required width with no bad symbol. -/
theorem checkShape_none {x : OpBuf} {opn : BitVec 4} {w : Nat} {j : BitVec 8} {mode : ShapeMode} :
    checkShape x opn w j mode = none ↔ x.bad = false ∧ x.count.toNat = w := by
  unfold checkShape
  cases x.bad <;> by_cases h : x.count.toNat = w <;> simp [h]

/-- What a failing shape check raises: the symbol error first, else the length error. -/
theorem checkShape_some {x : OpBuf} {opn : BitVec 4} {w : Nat} {j : BitVec 8} {mode : ShapeMode} {r : Raise} :
    checkShape x opn w j mode = some r ↔
      (x.bad = true ∧ r = symbolRaise x opn j mode.symbolError) ∨
      (x.bad = false ∧ x.count.toNat ≠ w ∧ r = lengthRaise x opn w j mode.lengthError) := by
  unfold checkShape
  cases x.bad <;> by_cases h : x.count.toNat = w <;> simp [h, eq_comm]

theorem setBit_getLsbD (bits : BitVec 128) (pos : Nat) (bit : Bool) (hp : pos < 128) (k : Nat) :
    (setBit bits pos bit).getLsbD k = if k = pos then bit else bits.getLsbD k := by
  unfold setBit
  by_cases hk : k < 128
  · rcases Nat.lt_trichotomy k pos with h | h | h
    · simp [hk, h, Nat.ne_of_lt h]
    · subst h
      cases bit <;> simp [hk]
    · have h1 : ¬ k < pos := by omega
      have h2 : k ≠ pos := by omega
      have h3 : k - pos ≠ 0 := by omega
      cases bit <;> simp [hk, h1, h2, h3]
  · have : k ≠ pos := by omega
    simp [this, BitVec.getLsbD_of_ge _ _ (Nat.le_of_not_lt hk)]

/-- A push keeps a buffer as pushes and clears leave it. -/
theorem pushSymbol_keeps {x : OpBuf} (v : Word) (h : BufferInv x) : BufferInv (pushSymbol v x) := by
  obtain ⟨hc, hs, hp, hb⟩ := h
  have hcount : (if x.count ≠ 0xFFFF#16 then x.count + 1#16 else x.count).toNat =
      if x.count.toNat ≠ 0xFFFF then x.count.toNat + 1 else x.count.toNat := by
    have := x.count.isLt
    by_cases hx : x.count = 0xFFFF#16
    · simp [hx]
    · have hx' : x.count.toNat ≠ 65535 := fun e => hx (BitVec.eq_of_toNat_eq (by simpa using e))
      simp only [ne_eq, hx, hx', not_false_eq_true, if_true, BitVec.toNat_add, BitVec.toNat_ofNat]
      omega
  refine ⟨?_, ?_, ?_, ?_⟩
  · simp only [pushSymbol]
    intro hbad
    split at hbad
    · simp at hbad
    · next hn => rw [if_neg hn, if_neg hn]; exact hc hbad
  · simp only [pushSymbol]
    intro hbad
    split at hbad
    · next hn => rw [if_pos hn]; exact ⟨hn.1, hn.2.1⟩
    · next hn => rw [if_neg hn]; exact hs hbad
  · simp only [pushSymbol]
    intro hbad
    rw [hcount]
    split at hbad
    · next hn =>
      rw [if_pos hn]
      by_cases hx : x.count.toNat = 0xFFFF
      · exact .inr (BitVec.eq_of_toNat_eq (by simpa using hx))
      · left; rw [if_pos hx]; omega
    · next hn =>
      rw [if_neg hn]
      rcases hp hbad with h | h
      · left; split <;> omega
      · exact .inr h
  · intro k hk
    have hk' : (if x.count.toNat ≠ 0xFFFF then x.count.toNat + 1 else x.count.toNat) ≤ k := by
      rw [← hcount]; exact hk
    have hge : x.count.toNat ≤ k := by split at hk' <;> omega
    show (if x.count.toNat < 128 then setBit x.bits x.count.toNat _ else x.bits).getLsbD k = false
    split
    · next hlt =>
      have : x.count.toNat + 1 ≤ k := by rw [if_pos (by omega)] at hk'; exact hk'
      rw [setBit_getLsbD _ _ _ hlt, if_neg (by omega)]
      exact hb k hge
    · exact hb k hge

theorem bufferInv_empty : BufferInv OpBuf.empty := by
  constructor <;> simp [OpBuf.empty]

/-- A clear keeps it too. -/
theorem clearBuffer_keeps {x : OpBuf} (v : Word) (h : BufferInv x) : BufferInv (clearBuffer v x) := by
  unfold clearBuffer
  split
  · exact bufferInv_empty
  · exact h

theorem memoryInv_write {depth : Nat} {m : Memory} {i : Nat} (v : F64) (hi : i < depth) (h : MemoryInv depth m) :
    MemoryInv depth (Memory.write m i v) := by
  refine ⟨Memory.write_wf i v h.wf, fun p hp => ?_⟩
  rcases Table.mem_put hp with rfl | hp
  · exact hi
  · exact h.within p hp

/-- A write never takes an entry away. -/
theorem isSome_write {m : Memory} {i j : Nat} (v : F64) (h : (Table.get? m j).isSome = true) :
    (Table.get? (Memory.write m i v) j).isSome = true := by
  by_cases hij : j = i
  · subst hij; simp [Memory.write]
  · simpa [Memory.write, Table.get?_put_other m v hij] using h

/-- The length after an append: one more, but saturating (20_memory.md R71). -/
theorem appendSample_len (d : BitVec 16) (v : Word) (q : SampleSeq) :
    (appendSample d v q).len.toNat = if q.len.toNat ≠ 0xFFFF then q.len.toNat + 1 else q.len.toNat := by
  have := q.len.isLt
  show (if q.len ≠ 0xFFFF#16 then q.len + 1#16 else q.len).toNat = _
  by_cases hx : q.len = 0xFFFF#16
  · simp [hx]
  · have hx' : q.len.toNat ≠ 65535 := fun e => hx (BitVec.eq_of_toNat_eq (by simpa using e))
    simp only [ne_eq, hx, hx', not_false_eq_true, if_true, BitVec.toNat_add, BitVec.toNat_ofNat]
    omega

/-- An append keeps a sample sequence holding every counted sample that fits. -/
theorem appendSample_keeps {d : BitVec 16} {q : SampleSeq} (v : Word) (h : SequenceInv d.toNat q) :
    SequenceInv d.toNat (appendSample d v q) := by
  obtain ⟨hm, hh⟩ := h
  have hmem : (appendSample d v q).mem =
      if q.len.toNat < d.toNat then Memory.write q.mem q.len.toNat (join64 v q.latch) else q.mem := rfl
  refine ⟨?_, fun i hi hd => ?_⟩
  · rw [hmem]
    split
    · next hlt => exact memoryInv_write _ hlt hm
    · exact hm
  · rw [hmem]
    rw [appendSample_len] at hi
    split
    · next hlt =>
      by_cases hil : i = q.len.toNat
      · subst hil; simp [Memory.write]
      · exact isSome_write _ (hh i (by split at hi <;> omega) hd)
    · exact hh i (by split at hi <;> omega) hd

end Sys2Proof.Machine
end

