-- ==== Sys2Proof/Laws/State.lean ====
section
/-! SUPPORT. One lemma per field per update: what each named update of the state leaves in each field of `State`, true by
unfolding once, so that no later proof unfolds a record update. The fields of the block follow from the `_blk` lemma. -/
namespace Sys2Proof.Machine

@[simp] theorem raiseError_blk (r : Raise) (s : State) : (raiseError r s).blk = { s.blk with err := r.code, errInfo := packErrInfo r, errExpected := r.expected, errActual := r.actual, busy := false } := rfl
@[simp] theorem raiseError_ops (r : Raise) (s : State) : (raiseError r s).ops = s.ops := rfl
@[simp] theorem raiseError_replies (r : Raise) (s : State) : (raiseError r s).replies = s.replies := rfl
@[simp] theorem raiseError_wait (r : Raise) (s : State) : (raiseError r s).wait = s.wait := rfl
@[simp] theorem raiseError_issues (r : Raise) (s : State) : (raiseError r s).issues = s.issues := rfl
@[simp] theorem raiseError_draws (r : Raise) (s : State) : (raiseError r s).draws = s.draws := rfl
@[simp] theorem raiseError_synced (r : Raise) (s : State) : (raiseError r s).synced = s.synced := rfl

@[simp] theorem succeed_blk (s : State) : (succeed s).blk = { s.blk with err := .ok, errInfo := 0#32, errExpected := 0#32, errActual := 0#32, busy := false } := rfl
@[simp] theorem succeed_ops (s : State) : (succeed s).ops = s.ops := rfl
@[simp] theorem succeed_replies (s : State) : (succeed s).replies = s.replies := rfl
@[simp] theorem succeed_wait (s : State) : (succeed s).wait = s.wait := rfl
@[simp] theorem succeed_issues (s : State) : (succeed s).issues = s.issues := rfl
@[simp] theorem succeed_draws (s : State) : (succeed s).draws = s.draws := rfl
@[simp] theorem succeed_synced (s : State) : (succeed s).synced = s.synced := rfl

@[simp] theorem issue_blk (w : Word) (s : State) : (issue w s).blk = { s.blk with pending := w, busy := true, lastOp := w.extractLsb' 0 8, err := .ok } := rfl
@[simp] theorem issue_ops (w : Word) (s : State) : (issue w s).ops = s.ops := rfl
@[simp] theorem issue_replies (w : Word) (s : State) : (issue w s).replies = s.replies := rfl
@[simp] theorem issue_wait (w : Word) (s : State) : (issue w s).wait = Config.latency s.issues := rfl
@[simp] theorem issue_issues (w : Word) (s : State) : (issue w s).issues = s.issues + 1 := rfl
@[simp] theorem issue_draws (w : Word) (s : State) : (issue w s).draws = s.draws := rfl
@[simp] theorem issue_synced (w : Word) (s : State) : (issue w s).synced = false := rfl

@[simp] theorem resetBlock_blk (s : State) : (resetBlock s).blk = Block.reset s.blk.calDepth s.blk.sampleDepth := rfl
@[simp] theorem resetBlock_ops (s : State) : (resetBlock s).ops = s.ops := rfl
@[simp] theorem resetBlock_replies (s : State) : (resetBlock s).replies = s.replies := rfl
@[simp] theorem resetBlock_wait (s : State) : (resetBlock s).wait = 0 := rfl
@[simp] theorem resetBlock_issues (s : State) : (resetBlock s).issues = s.issues := rfl
@[simp] theorem resetBlock_draws (s : State) : (resetBlock s).draws = s.draws := rfl
@[simp] theorem resetBlock_synced (s : State) : (resetBlock s).synced = true := rfl

@[simp] theorem clearReading_blk (s : State) : (clearReading s).blk = { s.blk with readingValid := false, checksumOk := false } := rfl
@[simp] theorem clearReading_ops (s : State) : (clearReading s).ops = s.ops := rfl
@[simp] theorem clearReading_replies (s : State) : (clearReading s).replies = s.replies := rfl
@[simp] theorem clearReading_wait (s : State) : (clearReading s).wait = s.wait := rfl
@[simp] theorem clearReading_issues (s : State) : (clearReading s).issues = s.issues := rfl
@[simp] theorem clearReading_draws (s : State) : (clearReading s).draws = s.draws := rfl
@[simp] theorem clearReading_synced (s : State) : (clearReading s).synced = s.synced := rfl

@[simp] theorem hostRead_blk (o : Offset) (s : State) : (hostRead o s).blk = s.blk := rfl
@[simp] theorem hostRead_ops (o : Offset) (s : State) : (hostRead o s).ops = s.ops := rfl
@[simp] theorem hostRead_replies (o : Offset) (s : State) : (hostRead o s).replies = hostReadValue o s :: s.replies := rfl
@[simp] theorem hostRead_wait (o : Offset) (s : State) : (hostRead o s).wait = s.wait := rfl
@[simp] theorem hostRead_issues (o : Offset) (s : State) : (hostRead o s).issues = s.issues := rfl
@[simp] theorem hostRead_draws (o : Offset) (s : State) : (hostRead o s).draws = s.draws + 1 := rfl
@[simp] theorem hostRead_synced (o : Offset) (s : State) : (hostRead o s).synced = (s.synced || showsIdle o s) := rfl

@[simp] theorem dropWrite_blk (s : State) : (dropWrite s).blk = { s.blk with wrBusy := true } := rfl
@[simp] theorem dropWrite_ops (s : State) : (dropWrite s).ops = s.ops := rfl
@[simp] theorem dropWrite_replies (s : State) : (dropWrite s).replies = s.replies := rfl
@[simp] theorem dropWrite_wait (s : State) : (dropWrite s).wait = s.wait := rfl
@[simp] theorem dropWrite_issues (s : State) : (dropWrite s).issues = s.issues := rfl
@[simp] theorem dropWrite_draws (s : State) : (dropWrite s).draws = s.draws := rfl
@[simp] theorem dropWrite_synced (s : State) : (dropWrite s).synced = s.synced := rfl

@[simp] theorem takeOp_blk (rest : List HostOp) (s : State) : (takeOp rest s).blk = s.blk := rfl
@[simp] theorem takeOp_ops (rest : List HostOp) (s : State) : (takeOp rest s).ops = rest := rfl
@[simp] theorem takeOp_replies (rest : List HostOp) (s : State) : (takeOp rest s).replies = s.replies := rfl
@[simp] theorem takeOp_wait (rest : List HostOp) (s : State) : (takeOp rest s).wait = s.wait - 1 := rfl
@[simp] theorem takeOp_issues (rest : List HostOp) (s : State) : (takeOp rest s).issues = s.issues := rfl
@[simp] theorem takeOp_draws (rest : List HostOp) (s : State) : (takeOp rest s).draws = s.draws := rfl
@[simp] theorem takeOp_synced (rest : List HostOp) (s : State) : (takeOp rest s).synced = s.synced := rfl

@[simp] theorem placeCommand_blk (w : Word) (s : State) : (placeCommand w s).blk = { s.blk with pending := w, busy := true, lastOp := w.extractLsb' 0 8, err := .ok } := rfl
@[simp] theorem placeCommand_ops (w : Word) (s : State) : (placeCommand w s).ops = s.ops := rfl
@[simp] theorem placeCommand_replies (w : Word) (s : State) : (placeCommand w s).replies = s.replies := rfl
@[simp] theorem placeCommand_wait (w : Word) (s : State) : (placeCommand w s).wait = 0 := rfl
@[simp] theorem placeCommand_issues (w : Word) (s : State) : (placeCommand w s).issues = s.issues + 1 := rfl
@[simp] theorem placeCommand_draws (w : Word) (s : State) : (placeCommand w s).draws = s.draws := rfl
@[simp] theorem placeCommand_synced (w : Word) (s : State) : (placeCommand w s).synced = false := rfl

/-- ERR_INFO of an illegal command word (60_exceptions.md R252). -/
theorem illegalCommand_info : (0#16 ++ (6#4 ++ (7#4 ++ 0xFF#8)) : Word) = 0x000067FF#32 := by decide

@[simp] theorem illegalCommand_blk (w : Word) (s : State) : (illegalCommand w s).blk =
    { s.blk with err := .illegalCommand, errInfo := 0x000067FF#32, errExpected := 0#32, errActual := w, busy := false } := by
  simp only [illegalCommand, raiseError_blk, packErrInfo, illegalCommand_info]

end Sys2Proof.Machine
end

