-- ==== Sys2Proof/Laws/Exec.lean ====
section
/-! SUPPORT. What each command's completion can do: one inversion lemma per meaning ("if it answers next t, then one of these
cases holds"), so that no later proof unfolds a meaning; and that each completion keeps the block's invariant. -/
namespace Sys2Proof.Machine

/-- The checksum is at most 255 times the sum of the weights (41_checksum.md R151). -/
theorem chk_le (d : F64) : chk d ≤ 31620 := by
  have h : ∀ k, payloadByte d k < 256 := fun k => (d.extractLsb' (56 - 8 * k) 8).isLt
  have := h 0; have := h 1; have := h 2; have := h 3; have := h 4; have := h 5; have := h 6; have := h 7
  unfold chk
  omega

/-- The 15-bit pattern of a checksum is the checksum (R151). -/
theorem chkBits_toNat (d : F64) : (chkBits d).toNat = chk d := by
  have := chk_le d
  simp only [chkBits, BitVec.toNat_ofNat]
  omega

/-- What PARSE can do. -/
theorem execParse_cases {s t : State} (h : execParse s = .next t) :
    (∃ r, checkShape s.blk.opa 1#4 121 0xFF#8 .parser = some r ∧ t = raiseError r s) ∨
    (checkShape s.blk.opa 1#4 121 0xFF#8 .parser = none ∧
      t = succeed { s with blk := { s.blk with fields := frameFields s.blk.opa } }) := by
  unfold execParse at h
  split at h
  · next r hr => exact .inl ⟨r, hr, (Host.Outcome.next.inj h).symm⟩
  · next hr => exact .inr ⟨hr, (Host.Outcome.next.inj h).symm⟩

/-- What DECODE_ID can do. -/
theorem execDecodeId_cases {s t : State} (h : execDecodeId s = .next t) :
    (s.blk.cfgLock = false ∧ t = raiseError notConfigured s) ∨
    (∃ r, s.blk.cfgLock = true ∧ checkShape s.blk.opa 1#4 11 1#8 .decoder = some r ∧ t = raiseError r s) ∨
    (s.blk.cfgLock = true ∧ checkShape s.blk.opa 1#4 11 1#8 .decoder = none ∧
      s.blk.sensorCount.toNat ≤ (val s.blk.opa 11).toNat ∧
      t = raiseError (unknownIdentity s.blk.sensorCount (val s.blk.opa 11)) s) ∨
    (s.blk.cfgLock = true ∧ checkShape s.blk.opa 1#4 11 1#8 .decoder = none ∧
      (val s.blk.opa 11).toNat < s.blk.sensorCount.toNat ∧
      t = succeed { s with blk := { s.blk with resId := val s.blk.opa 11 } }) := by
  unfold execDecodeId at h
  split at h
  · next hl => exact .inl ⟨hl, (Host.Outcome.next.inj h).symm⟩
  · next hl =>
    have hl : s.blk.cfgLock = true := by simpa using hl
    split at h
    · next r hr => exact .inr (.inl ⟨r, hl, hr, (Host.Outcome.next.inj h).symm⟩)
    · next hr =>
      simp only at h
      split at h
      · next hv => exact .inr (.inr (.inl ⟨hl, hr, hv, (Host.Outcome.next.inj h).symm⟩))
      · next hv => exact .inr (.inr (.inr ⟨hl, hr, Nat.lt_of_not_le hv, (Host.Outcome.next.inj h).symm⟩))

/-- What DECODE_TS can do. -/
theorem execDecodeTs_cases {s t : State} (h : execDecodeTs s = .next t) :
    (∃ r, checkShape s.blk.opa 1#4 16 6#8 .decoder = some r ∧ t = raiseError r s) ∨
    (checkShape s.blk.opa 1#4 16 6#8 .decoder = none ∧
      t = succeed { s with blk := { s.blk with resTs := timestampSeconds s.draws (val s.blk.opa 16) },
                           draws := s.draws + 1 }) := by
  unfold execDecodeTs at h
  split at h
  · next r hr => exact .inl ⟨r, hr, (Host.Outcome.next.inj h).symm⟩
  · next hr => exact .inr ⟨hr, (Host.Outcome.next.inj h).symm⟩

/-- What DECODE_DATA can do. -/
theorem execDecodeData_cases {s t : State} (h : execDecodeData s = .next t) :
    (∃ r, checkShape s.blk.opa 1#4 64 7#8 .decoder = some r ∧ t = raiseError r s) ∨
    (checkShape s.blk.opa 1#4 64 7#8 .decoder = none ∧
      t = succeed { s with blk := { s.blk with resData := val s.blk.opa 64 } }) := by
  unfold execDecodeData at h
  split at h
  · next r hr => exact .inl ⟨r, hr, (Host.Outcome.next.inj h).symm⟩
  · next hr => exact .inr ⟨hr, (Host.Outcome.next.inj h).symm⟩

/-- What VERIFY can do. -/
theorem execVerify_cases {s t : State} (h : execVerify s = .next t) :
    (∃ r, checkShape s.blk.opa 1#4 64 7#8 .parser = some r ∧ t = raiseError r s) ∨
    (checkShape s.blk.opa 1#4 64 7#8 .parser = none ∧ s.blk.opb.count.toNat ≠ 15 ∧
      t = raiseError (lengthRaise s.blk.opb 2#4 15 8#8 .lengthMismatch) s) ∨
    (checkShape s.blk.opa 1#4 64 7#8 .parser = none ∧ s.blk.opb.count.toNat = 15 ∧
      t = succeed { s with blk := { s.blk with
        resSum := chkBits (val s.blk.opa 64),
        resMatch := if s.blk.opb.bad then false else decide ((val s.blk.opb 15).toNat = chk (val s.blk.opa 64)) } }) := by
  unfold execVerify at h
  split at h
  · next r hr => exact .inl ⟨r, hr, (Host.Outcome.next.inj h).symm⟩
  · next hr =>
    split at h
    · next hc => exact .inr (.inl ⟨hr, hc, (Host.Outcome.next.inj h).symm⟩)
    · next hc => exact .inr (.inr ⟨hr, not_not.1 hc, (Host.Outcome.next.inj h).symm⟩)

/-- What CALIBRATE can do. -/
theorem execCalibrate_cases {s t : State} (h : execCalibrate s = .next t) :
    (s.blk.cfgLock = false ∧ t = raiseError notConfigured s) ∨
    (s.blk.cfgLock = true ∧ calLookup s.blk s.blk.calIdIn = none ∧
      t = raiseError (unknownCalibration 0xFF#8 3#4 s.blk.calDepth s.blk.calIdIn) s) ∨
    (∃ e, s.blk.cfgLock = true ∧ calLookup s.blk s.blk.calIdIn = some e ∧
      t = succeed { s with blk := { s.blk with resCal := calibrated s.draws s.blk.raw e }, draws := s.draws + 2 }) := by
  unfold execCalibrate at h
  split at h
  · next hl => exact .inl ⟨hl, (Host.Outcome.next.inj h).symm⟩
  · next hl =>
    have hl : s.blk.cfgLock = true := by simpa using hl
    split at h
    · next hr => exact .inr (.inl ⟨hl, hr, (Host.Outcome.next.inj h).symm⟩)
    · next e hr => exact .inr (.inr ⟨e, hl, hr, (Host.Outcome.next.inj h).symm⟩)

/-- What PROCESS_FRAME can do. -/
theorem execProcessFrame_cases {s t : State} (h : execProcessFrame s = .next t) :
    (s.blk.cfgLock = false ∧ t = raiseError notConfigured (clearReading s)) ∨
    (∃ r, s.blk.cfgLock = true ∧ checkShape s.blk.opa 1#4 121 0xFF#8 .parser = some r ∧
      t = raiseError r (clearReading s)) ∨
    (s.blk.cfgLock = true ∧ checkShape s.blk.opa 1#4 121 0xFF#8 .parser = none ∧
      s.blk.sensorCount.toNat ≤ (frameFields s.blk.opa).id.toNat ∧
      t = raiseError (unknownIdentity s.blk.sensorCount (frameFields s.blk.opa).id) (clearReading s)) ∨
    (s.blk.cfgLock = true ∧ checkShape s.blk.opa 1#4 121 0xFF#8 .parser = none ∧
      (frameFields s.blk.opa).id.toNat < s.blk.sensorCount.toNat ∧
      (frameFields s.blk.opa).crc.toNat = chk (frameFields s.blk.opa).data ∧
      calLookup s.blk (frameFields s.blk.opa).id = none ∧
      t = raiseError (unknownCalibration 1#8 1#4 s.blk.calDepth (frameFields s.blk.opa).id) (clearReading s)) ∨
    (∃ e, s.blk.cfgLock = true ∧ checkShape s.blk.opa 1#4 121 0xFF#8 .parser = none ∧
      (frameFields s.blk.opa).id.toNat < s.blk.sensorCount.toNat ∧
      (frameFields s.blk.opa).crc.toNat = chk (frameFields s.blk.opa).data ∧
      calLookup s.blk (frameFields s.blk.opa).id = some e ∧
      t = succeed { s with
        blk := { commitFrame (frameFields s.blk.opa) s.draws true s.blk with
                 resCal := calibrated (s.draws + 1) (frameFields s.blk.opa).data e },
        draws := s.draws + 3 }) ∨
    (s.blk.cfgLock = true ∧ checkShape s.blk.opa 1#4 121 0xFF#8 .parser = none ∧
      (frameFields s.blk.opa).id.toNat < s.blk.sensorCount.toNat ∧
      (frameFields s.blk.opa).crc.toNat ≠ chk (frameFields s.blk.opa).data ∧
      t = succeed { s with blk := commitFrame (frameFields s.blk.opa) s.draws false s.blk, draws := s.draws + 1 }) := by
  unfold execProcessFrame at h
  split at h
  · next hl => exact .inl ⟨hl, (Host.Outcome.next.inj h).symm⟩
  · next hl =>
    have hl : s.blk.cfgLock = true := by simpa using hl
    split at h
    · next r hr => exact .inr (.inl ⟨r, hl, hr, (Host.Outcome.next.inj h).symm⟩)
    · next hr =>
      simp only at h
      split at h
      · next hv => exact .inr (.inr (.inl ⟨hl, hr, hv, (Host.Outcome.next.inj h).symm⟩))
      · next hv =>
        have hv := Nat.lt_of_not_le hv
        split at h
        · next hc =>
          split at h
          · next he => exact .inr (.inr (.inr (.inl ⟨hl, hr, hv, hc, he, (Host.Outcome.next.inj h).symm⟩)))
          · next e he =>
            exact .inr (.inr (.inr (.inr (.inl ⟨e, hl, hr, hv, hc, he, (Host.Outcome.next.inj h).symm⟩))))
        · next hc => exact .inr (.inr (.inr (.inr (.inr ⟨hl, hr, hv, hc, (Host.Outcome.next.inj h).symm⟩))))

/-- What INTEGRATE can do. -/
theorem execIntegrate_cases {s t : State} (h : execIntegrate s = .next t) :
    (s.blk.tim.len ≠ s.blk.spd.len ∧ t = raiseError (sequenceRaise 5#4 s.blk.spd.len s.blk.tim.len) s) ∨
    (s.blk.tim.len = s.blk.spd.len ∧ s.blk.ang.len ≠ s.blk.spd.len ∧
      t = raiseError (sequenceRaise 6#4 s.blk.spd.len s.blk.ang.len) s) ∨
    (s.blk.tim.len = s.blk.spd.len ∧ s.blk.ang.len = s.blk.spd.len ∧
      s.blk.sampleDepth.toNat < s.blk.spd.len.toNat ∧
      t = raiseError (capacityRaise s.blk.sampleDepth s.blk.spd.len) s) ∨
    (s.blk.tim.len = s.blk.spd.len ∧ s.blk.ang.len = s.blk.spd.len ∧
      s.blk.spd.len.toNat ≤ s.blk.sampleDepth.toNat ∧
      t = succeed { s with
        blk := commitTrack s.blk s.blk.spd.len (trackLoop s.blk s.draws s.blk.spd.len.toNat),
        draws := s.draws + 8 * s.blk.spd.len.toNat }) := by
  unfold execIntegrate at h
  simp only at h
  split at h
  · next h1 => exact .inl ⟨h1, (Host.Outcome.next.inj h).symm⟩
  · next h1 =>
    have h1 := not_not.1 h1
    split at h
    · next h2 => exact .inr (.inl ⟨h1, h2, (Host.Outcome.next.inj h).symm⟩)
    · next h2 =>
      have h2 := not_not.1 h2
      split at h
      · next h3 => exact .inr (.inr (.inl ⟨h1, h2, h3, (Host.Outcome.next.inj h).symm⟩))
      · next h3 => exact .inr (.inr (.inr ⟨h1, h2, Nat.le_of_not_lt h3, (Host.Outcome.next.inj h).symm⟩))

/-- An error whose code is not OK and whose OPERAND and SUBCODE are not reserved (60_exceptions.md R250, 10_state.md R29). -/
structure RaiseLegal (r : Raise) : Prop where
  code : r.code ≠ .ok
  operand : r.operand.getLsbD 3 = false
  subcode : r.subcode.getLsbD 3 = false

theorem packErrInfo_reserved {r : Raise} (h : RaiseLegal r) :
    (packErrInfo r).getLsbD 11 = false ∧ (packErrInfo r).getLsbD 15 = false := by
  obtain ⟨-, ho, hs⟩ := h
  unfold packErrInfo
  simp only [BitVec.getLsbD_append]
  simpa using ⟨ho, hs⟩

theorem checkShape_legal {x : OpBuf} {opn : BitVec 4} {w : Nat} {j : BitVec 8} {mode : ShapeMode} {r : Raise}
    (ho : opn.getLsbD 3 = false) (h : checkShape x opn w j mode = some r) : RaiseLegal r := by
  rcases checkShape_some.1 h with ⟨-, rfl⟩ | ⟨-, -, rfl⟩
  · exact ⟨by cases mode <;> simp [symbolRaise, ShapeMode.symbolError], ho, by simp [symbolRaise]⟩
  · exact ⟨by cases mode <;> simp [lengthRaise, ShapeMode.lengthError], ho, by simp [lengthRaise]⟩

/-- A block that differs from one with the invariant only outside the configuration, the operands and the samples has it
if its outputs and its status do. -/
theorem inv_of_same {b c : Block} (h : Block.Inv b) (hcd : c.calDepth = b.calDepth) (hsd : c.sampleDepth = b.sampleDepth)
    (hsc : c.sensorCount = b.sensorCount) (hcal : c.cal = b.cal) (hopa : c.opa = b.opa) (hopb : c.opb = b.opb)
    (hspd : c.spd = b.spd) (htim : c.tim = b.tim) (hang : c.ang = b.ang) (hout : OutputInv c) (hst : StatusInv c) :
    Block.Inv c :=
  { calDepth := hcd ▸ h.calDepth, sampleDepth := hsd ▸ h.sampleDepth, sensorCount := hsc ▸ h.sensorCount
    cal := ⟨hcal ▸ h.cal.wf, by rw [hcal, hcd]; exact h.cal.within⟩
    opa := hopa ▸ h.opa, opb := hopb ▸ h.opb
    spd := by rw [hsd, hspd]; exact h.spd
    tim := by rw [hsd, htim]; exact h.tim
    ang := by rw [hsd, hang]; exact h.ang
    out := hout, status := hst }

theorem outputInv_of_same {b c : Block} (h : OutputInv b) (hsd : c.sampleDepth = b.sampleDepth) (hxm : c.xm = b.xm)
    (hym : c.ym = b.ym) (hlen : c.outLen = b.outLen) : OutputInv c :=
  { xm := by rw [hsd, hxm]; exact h.xm
    ym := by rw [hsd, hym]; exact h.ym
    len := by rw [hlen, hsd]; exact h.len
    held := by rw [hlen, hxm, hym]; exact h.held }

/-- An error completion keeps the invariant. -/
theorem raiseError_keeps {r : Raise} {s : State} (hr : RaiseLegal r) (h : Block.Inv s.blk) :
    Block.Inv (raiseError r s).blk := by
  refine inv_of_same h rfl rfl rfl rfl rfl rfl rfl rfl rfl (outputInv_of_same h.out rfl rfl rfl rfl) ?_
  exact ⟨fun hb => by simp at hb, h.status.lastOp, fun _ he => absurd he hr.code, packErrInfo_reserved hr,
    h.status.sum, h.status.reading⟩

/-- Clearing the reading flags keeps the invariant. -/
theorem clearReading_keeps {s : State} (h : Block.Inv s.blk) : Block.Inv (clearReading s).blk :=
  inv_of_same h rfl rfl rfl rfl rfl rfl rfl rfl rfl (outputInv_of_same h.out rfl rfl rfl rfl)
    ⟨h.status.pending, h.status.lastOp, h.status.detail, h.status.reserved, h.status.sum, rfl⟩

/-- A successful completion has the status part of the invariant if the results it commits do. -/
theorem succeed_status {s : State} (hl : s.blk.lastOp = s.blk.pending.extractLsb' 0 8) (hs : s.blk.resSum.toNat ≤ 31620)
    (hr : s.blk.readingValid = s.blk.checksumOk) : StatusInv (succeed s).blk :=
  ⟨fun hb => by simp at hb, hl, fun _ _ => ⟨rfl, rfl, rfl⟩, by simp, hs, hr⟩

/-- A successful completion that writes no output memory, sample sequence or configuration keeps the invariant. -/
theorem succeed_keeps {s : State} {b : Block} {d : Nat} (h : Block.Inv s.blk) (hcd : b.calDepth = s.blk.calDepth)
    (hsd : b.sampleDepth = s.blk.sampleDepth) (hsc : b.sensorCount = s.blk.sensorCount) (hcal : b.cal = s.blk.cal)
    (hopa : b.opa = s.blk.opa) (hopb : b.opb = s.blk.opb) (hspd : b.spd = s.blk.spd) (htim : b.tim = s.blk.tim)
    (hang : b.ang = s.blk.ang) (hxm : b.xm = s.blk.xm) (hym : b.ym = s.blk.ym) (hlen : b.outLen = s.blk.outLen)
    (hl : b.lastOp = b.pending.extractLsb' 0 8) (hs : b.resSum.toNat ≤ 31620) (hr : b.readingValid = b.checksumOk) :
    Block.Inv (succeed { s with blk := b, draws := d }).blk :=
  inv_of_same h hcd hsd hsc hcal hopa hopb hspd htim hang (outputInv_of_same h.out hsd hxm hym hlen)
    (succeed_status hl hs hr)

/-- The loop writes no entry outside its samples, keeps the memories' form and holds every entry it wrote or found. -/
theorem trackLoop_keeps {b : Block} (h : Block.Inv b) (draws n : Nat) (hn : n ≤ b.sampleDepth.toNat) :
    MemoryInv b.sampleDepth.toNat (trackLoop b draws n).xm ∧ MemoryInv b.sampleDepth.toNat (trackLoop b draws n).ym ∧
    ∀ i, i < n → (Table.get? (trackLoop b draws n).xm i).isSome = true ∧
      (Table.get? (trackLoop b draws n).ym i).isSome = true := by
  induction n with
  | zero => exact ⟨h.out.xm, h.out.ym, fun i hi => absurd hi (Nat.not_lt_zero i)⟩
  | succ n ih =>
    obtain ⟨hx, hy, hh⟩ := ih (by omega)
    refine ⟨memoryInv_write _ (by omega) hx, memoryInv_write _ (by omega) hy, fun i hi => ?_⟩
    by_cases hin : i = n
    · subst hin
      exact ⟨by simp [trackLoop, trackStep, Memory.write], by simp [trackLoop, trackStep, Memory.write]⟩
    · obtain ⟨h1, h2⟩ := hh i (by omega)
      exact ⟨isSome_write _ h1, isSome_write _ h2⟩

/-- CLR_SAMPLES keeps a sample sequence's invariant. -/
theorem sequenceInv_cleared {d : Nat} {q : SampleSeq} (h : SequenceInv d q) : SequenceInv d { q with len := 0#16 } :=
  ⟨h.mem, fun i hi => by simp at hi⟩

/-! What each command does, case by case, in the direction that computes its outcome. -/

theorem execParse_error {s : State} {r : Raise} (hr : checkShape s.blk.opa 1#4 121 0xFF#8 .parser = some r) :
    execParse s = .next (raiseError r s) := by simp only [execParse, hr]

theorem execParse_ok {s : State} (hr : checkShape s.blk.opa 1#4 121 0xFF#8 .parser = none) :
    execParse s = .next (succeed { s with blk := { s.blk with fields := frameFields s.blk.opa } }) := by
  simp only [execParse, hr]

theorem execDecodeId_unlocked {s : State} (h : s.blk.cfgLock = false) :
    execDecodeId s = .next (raiseError notConfigured s) := if_pos h

theorem execDecodeId_shape {s : State} {r : Raise} (h : s.blk.cfgLock = true)
    (hr : checkShape s.blk.opa 1#4 11 1#8 .decoder = some r) : execDecodeId s = .next (raiseError r s) := by
  rw [execDecodeId, if_neg (by simp [h]), hr]

theorem execDecodeId_unknown {s : State} (h : s.blk.cfgLock = true)
    (hr : checkShape s.blk.opa 1#4 11 1#8 .decoder = none) (hv : s.blk.sensorCount.toNat ≤ (val s.blk.opa 11).toNat) :
    execDecodeId s = .next (raiseError (unknownIdentity s.blk.sensorCount (val s.blk.opa 11)) s) := by
  rw [execDecodeId, if_neg (by simp [h]), hr]; exact if_pos hv

theorem execDecodeId_ok {s : State} (h : s.blk.cfgLock = true)
    (hr : checkShape s.blk.opa 1#4 11 1#8 .decoder = none) (hv : (val s.blk.opa 11).toNat < s.blk.sensorCount.toNat) :
    execDecodeId s = .next (succeed { s with blk := { s.blk with resId := val s.blk.opa 11 } }) := by
  rw [execDecodeId, if_neg (by simp [h]), hr]; exact if_neg (Nat.not_le.2 hv)

theorem execDecodeTs_error {s : State} {r : Raise} (hr : checkShape s.blk.opa 1#4 16 6#8 .decoder = some r) :
    execDecodeTs s = .next (raiseError r s) := by simp only [execDecodeTs, hr]

theorem execDecodeTs_ok {s : State} (hr : checkShape s.blk.opa 1#4 16 6#8 .decoder = none) :
    execDecodeTs s = .next (succeed { s with
      blk := { s.blk with resTs := timestampSeconds s.draws (val s.blk.opa 16) }
      draws := s.draws + 1 }) := by simp only [execDecodeTs, hr]

theorem execDecodeData_error {s : State} {r : Raise} (hr : checkShape s.blk.opa 1#4 64 7#8 .decoder = some r) :
    execDecodeData s = .next (raiseError r s) := by simp only [execDecodeData, hr]

theorem execDecodeData_ok {s : State} (hr : checkShape s.blk.opa 1#4 64 7#8 .decoder = none) :
    execDecodeData s = .next (succeed { s with blk := { s.blk with resData := val s.blk.opa 64 } }) := by
  simp only [execDecodeData, hr]

theorem execVerify_error {s : State} {r : Raise} (hr : checkShape s.blk.opa 1#4 64 7#8 .parser = some r) :
    execVerify s = .next (raiseError r s) := by simp only [execVerify, hr]

theorem execVerify_length {s : State} (hr : checkShape s.blk.opa 1#4 64 7#8 .parser = none)
    (hc : s.blk.opb.count.toNat ≠ 15) :
    execVerify s = .next (raiseError (lengthRaise s.blk.opb 2#4 15 8#8 .lengthMismatch) s) := by
  rw [execVerify, hr]; exact if_pos hc

theorem execVerify_ok {s : State} (hr : checkShape s.blk.opa 1#4 64 7#8 .parser = none)
    (hc : s.blk.opb.count.toNat = 15) :
    execVerify s = .next (succeed { s with blk := { s.blk with
      resSum := chkBits (val s.blk.opa 64),
      resMatch := if s.blk.opb.bad then false else decide ((val s.blk.opb 15).toNat = chk (val s.blk.opa 64)) } }) := by
  rw [execVerify, hr]; exact if_neg (by simp [hc])

/-- The lookup finds the entry of a sensor that has one (42_calibrate.md R170). -/
theorem calLookup_some {b : Block} {id : BitVec 11} (h : HasCalibration b id) :
    calLookup b id = some (calGet b.cal id.toNat) := if_pos h

theorem calLookup_none {b : Block} {id : BitVec 11} (h : ¬ HasCalibration b id) : calLookup b id = none := if_neg h

theorem execCalibrate_unlocked {s : State} (h : s.blk.cfgLock = false) :
    execCalibrate s = .next (raiseError notConfigured s) := if_pos h

theorem execCalibrate_unknown {s : State} (h : s.blk.cfgLock = true) (hl : calLookup s.blk s.blk.calIdIn = none) :
    execCalibrate s = .next (raiseError (unknownCalibration 0xFF#8 3#4 s.blk.calDepth s.blk.calIdIn) s) := by
  rw [execCalibrate, if_neg (by simp [h]), hl]

theorem execCalibrate_ok {s : State} {e : CalEntry} (h : s.blk.cfgLock = true)
    (hl : calLookup s.blk s.blk.calIdIn = some e) :
    execCalibrate s = .next (succeed { s with
      blk := { s.blk with resCal := calibrated s.draws s.blk.raw e }
      draws := s.draws + 2 }) := by
  rw [execCalibrate, if_neg (by simp [h]), hl]

theorem execProcessFrame_unlocked {s : State} (h : s.blk.cfgLock = false) :
    execProcessFrame s = .next (raiseError notConfigured (clearReading s)) := if_pos h

theorem execProcessFrame_shape {s : State} {r : Raise} (h : s.blk.cfgLock = true)
    (hr : checkShape s.blk.opa 1#4 121 0xFF#8 .parser = some r) :
    execProcessFrame s = .next (raiseError r (clearReading s)) := by
  rw [execProcessFrame, if_neg (by simp [h]), hr]

theorem execProcessFrame_unknownId {s : State} (h : s.blk.cfgLock = true)
    (hr : checkShape s.blk.opa 1#4 121 0xFF#8 .parser = none)
    (hv : s.blk.sensorCount.toNat ≤ (frameFields s.blk.opa).id.toNat) :
    execProcessFrame s =
      .next (raiseError (unknownIdentity s.blk.sensorCount (frameFields s.blk.opa).id) (clearReading s)) := by
  rw [execProcessFrame, if_neg (by simp [h]), hr]; exact if_pos hv

theorem execProcessFrame_mismatch {s : State} (h : s.blk.cfgLock = true)
    (hr : checkShape s.blk.opa 1#4 121 0xFF#8 .parser = none)
    (hv : (frameFields s.blk.opa).id.toNat < s.blk.sensorCount.toNat)
    (hc : (frameFields s.blk.opa).crc.toNat ≠ chk (frameFields s.blk.opa).data) :
    execProcessFrame s = .next (succeed { s with
      blk := commitFrame (frameFields s.blk.opa) s.draws false s.blk, draws := s.draws + 1 }) := by
  rw [execProcessFrame, if_neg (by simp [h]), hr]
  exact (if_neg (Nat.not_le.2 hv)).trans (if_neg hc)

theorem execProcessFrame_uncalibrated {s : State} (h : s.blk.cfgLock = true)
    (hr : checkShape s.blk.opa 1#4 121 0xFF#8 .parser = none)
    (hv : (frameFields s.blk.opa).id.toNat < s.blk.sensorCount.toNat)
    (hc : (frameFields s.blk.opa).crc.toNat = chk (frameFields s.blk.opa).data)
    (hl : calLookup s.blk (frameFields s.blk.opa).id = none) :
    execProcessFrame s =
      .next (raiseError (unknownCalibration 1#8 1#4 s.blk.calDepth (frameFields s.blk.opa).id) (clearReading s)) := by
  rw [execProcessFrame, if_neg (by simp [h]), hr]
  refine (if_neg (Nat.not_le.2 hv)).trans ((if_pos hc).trans ?_)
  rw [hl]

theorem execProcessFrame_reading {s : State} {e : CalEntry} (h : s.blk.cfgLock = true)
    (hr : checkShape s.blk.opa 1#4 121 0xFF#8 .parser = none)
    (hv : (frameFields s.blk.opa).id.toNat < s.blk.sensorCount.toNat)
    (hc : (frameFields s.blk.opa).crc.toNat = chk (frameFields s.blk.opa).data)
    (hl : calLookup s.blk (frameFields s.blk.opa).id = some e) :
    execProcessFrame s = .next (succeed { s with
      blk := { commitFrame (frameFields s.blk.opa) s.draws true s.blk with
        resCal := calibrated (s.draws + 1) (frameFields s.blk.opa).data e }
      draws := s.draws + 3 }) := by
  rw [execProcessFrame, if_neg (by simp [h]), hr]
  refine (if_neg (Nat.not_le.2 hv)).trans ((if_pos hc).trans ?_)
  rw [hl]

theorem execIntegrate_times {s : State} (h : s.blk.tim.len ≠ s.blk.spd.len) :
    execIntegrate s = .next (raiseError (sequenceRaise 5#4 s.blk.spd.len s.blk.tim.len) s) := if_pos h

theorem execIntegrate_angles {s : State} (h : s.blk.tim.len = s.blk.spd.len) (h' : s.blk.ang.len ≠ s.blk.spd.len) :
    execIntegrate s = .next (raiseError (sequenceRaise 6#4 s.blk.spd.len s.blk.ang.len) s) :=
  (if_neg (not_not.2 h)).trans (if_pos h')

theorem execIntegrate_capacity {s : State} (h : s.blk.tim.len = s.blk.spd.len) (h' : s.blk.ang.len = s.blk.spd.len)
    (hn : s.blk.sampleDepth.toNat < s.blk.spd.len.toNat) :
    execIntegrate s = .next (raiseError (capacityRaise s.blk.sampleDepth s.blk.spd.len) s) :=
  (if_neg (not_not.2 h)).trans ((if_neg (not_not.2 h')).trans (if_pos hn))

theorem execIntegrate_ok {s : State} (h : SamplesAligned s.blk) :
    execIntegrate s = .next (succeed { s with
      blk := commitTrack s.blk s.blk.spd.len (trackLoop s.blk s.draws s.blk.spd.len.toNat)
      draws := s.draws + 8 * s.blk.spd.len.toNat }) :=
  (if_neg (not_not.2 h.1)).trans ((if_neg (not_not.2 h.2.1)).trans (if_neg (Nat.not_lt.2 h.2.2)))

end Sys2Proof.Machine
end

