-- ==== Sys2Proof/Laws/Float.lean ====
section
/-! SUPPORT. The laws of binary64: the parts of a packed pattern, that one rounding gives a nearest value with ties to even,
that the free NaN is quiet, and that the free cosine and sine have the properties of 43_integrator.md R193. -/
namespace Sys2Proof.Machine

/-- The magnitude, in units of 2^-1074, of the 63 magnitude bits `m`. -/
def magUnits (m : Nat) : Nat := if m < 2 ^ 52 then m else (2 ^ 52 + m % 2 ^ 52) * 2 ^ (m / 2 ^ 52 - 1)

theorem f64Mag_lt (a : F64) : f64Mag a < 2 ^ 63 := (a.extractLsb' 0 63).isLt

theorem f64Mag_eq (a : F64) : f64Mag a = a.toNat % 2 ^ 63 := by simp [f64Mag]

theorem f64Exp_eq (a : F64) : f64Exp a = f64Mag a / 2 ^ 52 := by
  rw [f64Mag_eq]
  simp only [f64Exp, BitVec.extractLsb'_toNat, Nat.shiftRight_eq_div_pow]
  omega

theorem f64Frac_eq (a : F64) : f64Frac a = f64Mag a % 2 ^ 52 := by
  rw [f64Mag_eq]
  simp only [f64Frac, BitVec.extractLsb'_toNat, Nat.shiftRight_zero]
  omega

theorem f64Units_eq (a : F64) : f64Units a = magUnits (f64Mag a) := by
  unfold f64Units magUnits
  rw [f64Exp_eq, f64Frac_eq]
  have := f64Mag_lt a
  by_cases h : f64Mag a < 2 ^ 52
  · rw [if_pos (by omega), if_pos h]; omega
  · rw [if_neg (by omega), if_neg h]

theorem f64IsFinite_iff (a : F64) : f64IsFinite a = true ↔ f64Mag a < infBits := by
  have := f64Mag_lt a
  simp only [f64IsFinite, f64Exp_eq, bne_iff_ne, infBits]
  omega

theorem f64IsZero_iff (a : F64) : f64IsZero a = true ↔ f64Mag a = 0 := by
  simp only [f64IsZero, f64Exp_eq, f64Frac_eq, Bool.and_eq_true, beq_iff_eq]
  omega

theorem f64IsInf_iff (a : F64) : f64IsInf a = true ↔ f64Mag a = infBits := by
  have := f64Mag_lt a
  simp only [f64IsInf, f64Exp_eq, f64Frac_eq, Bool.and_eq_true, beq_iff_eq, infBits]
  omega

theorem f64IsNaN_iff (a : F64) : f64IsNaN a = true ↔ infBits < f64Mag a := by
  have := f64Mag_lt a
  simp only [f64IsNaN, f64Exp_eq, f64Frac_eq, Bool.and_eq_true, beq_iff_eq, bne_iff_ne, infBits]
  omega

/-- The sign of a packed pattern. -/
@[simp] theorem f64Sign_packF64 (s : Bool) (m : Nat) : f64Sign (packF64 s m) = s := by
  unfold f64Sign packF64
  rw [BitVec.getLsbD_append]
  simp

/-- The magnitude bits of a packed pattern. -/
theorem f64Mag_packF64 (s : Bool) {m : Nat} (h : m < 2 ^ 63) : f64Mag (packF64 s m) = m := by
  have hm : (BitVec.ofNat 63 m).toNat = m := by rw [BitVec.toNat_ofNat, Nat.mod_eq_of_lt h]
  rw [f64Mag_eq, packF64, BitVec.toNat_append, hm, ← Nat.shiftLeft_add_eq_or_of_lt h, Nat.shiftLeft_eq]
  omega

theorem roundUnits_le (p q : Nat) : roundUnits p q ≤ infBits := by
  unfold roundUnits
  exact Nat.min_le_right _ _

theorem roundUnits_lt (p q : Nat) : roundUnits p q < 2 ^ 63 :=
  lt_of_le_of_lt (roundUnits_le p q) (by decide)

/-- The magnitude bits `k * 2^52 + r` of a significand r at scale k denote `r * 2^k`. -/
theorem magUnits_scaled {k r : Nat} (h : k = 0 ∨ 2 ^ 52 ≤ r) (hr : r ≤ 2 ^ 53) :
    magUnits (k * 2 ^ 52 + r) = r * 2 ^ k := by
  unfold magUnits
  by_cases hs : k * 2 ^ 52 + r < 2 ^ 52
  · have hk : k = 0 := by rcases h with h | h <;> omega
    subst hk
    rw [if_pos hs]
    simp
  · rw [if_neg hs]
    have hr52 : 2 ^ 52 ≤ r := by
      rcases h with h | h
      · subst h; omega
      · exact h
    by_cases htop : r = 2 ^ 53
    · subst htop
      have h1 : (k * 2 ^ 52 + 2 ^ 53) % 2 ^ 52 = 0 := by omega
      have h2 : (k * 2 ^ 52 + 2 ^ 53) / 2 ^ 52 - 1 = k + 1 := by omega
      rw [h1, h2, Nat.pow_succ 2 k]
      ring
    · have h1 : 2 ^ 52 + (k * 2 ^ 52 + r) % 2 ^ 52 = r := by omega
      have h2 : (k * 2 ^ 52 + r) / 2 ^ 52 - 1 = k := by omega
      rw [h1, h2]

/-- No magnitude lies strictly between two neighbours `r * 2^k` and `(r + 1) * 2^k`. -/
theorem magUnits_gap {k r : Nat} (h : k = 0 ∨ 2 ^ 52 ≤ r) (m : Nat) :
    magUnits m ≤ r * 2 ^ k ∨ (r + 1) * 2 ^ k ≤ magUnits m := by
  rcases Nat.lt_or_ge (r * 2 ^ k) (magUnits m) with hlt | hge
  · right
    rcases h with h | h
    · subst h; simpa using hlt
    · unfold magUnits at hlt ⊢
      split at hlt
      · next hm =>
        exfalso
        have : 2 ^ 52 * 1 ≤ r * 2 ^ k := Nat.mul_le_mul h Nat.one_le_two_pow
        omega
      · next hm =>
        rw [if_neg hm]
        have hM : 2 ^ 52 + m % 2 ^ 52 < 2 ^ 53 := by
          have := Nat.mod_lt m (show 0 < 2 ^ 52 by decide)
          omega
        generalize 2 ^ 52 + m % 2 ^ 52 = M at hlt hM ⊢
        generalize m / 2 ^ 52 - 1 = E at hlt ⊢
        have hEk : k ≤ E := by
          by_contra hcon
          have h1 : 2 * 2 ^ E ≤ 2 ^ k := by
            rw [← Nat.pow_succ']
            exact Nat.pow_le_pow_right (by decide) (by omega)
          have h2 : M * 2 ^ E < 2 ^ 53 * 2 ^ E := (Nat.mul_lt_mul_right (Nat.two_pow_pos E)).2 hM
          have h3 : 2 ^ 52 * (2 * 2 ^ E) ≤ 2 ^ 52 * 2 ^ k := Nat.mul_le_mul_left _ h1
          have h4 : 2 ^ 52 * 2 ^ k ≤ r * 2 ^ k := Nat.mul_le_mul_right _ h
          have h5 : 2 ^ 53 * 2 ^ E = 2 ^ 52 * (2 * 2 ^ E) := by ring
          omega
        obtain ⟨j, rfl⟩ := Nat.exists_eq_add_of_le hEk
        have h6 : M * 2 ^ (k + j) = M * 2 ^ j * 2 ^ k := by rw [Nat.pow_add]; ring
        rw [h6] at hlt ⊢
        exact Nat.mul_le_mul_right _ (Nat.lt_of_mul_lt_mul_right hlt)
  · exact .inl hge

/-- The scale, the truncated significand and the remainder of a rounding: `p = (q * 2^k) * r + rem`, with r a significand of
53 bits at scale k. -/
theorem rounding_scale (p q : Nat) :
    let k := Nat.log2 (p / q) - 52
    (k = 0 ∨ 2 ^ 52 ≤ p / (q * 2 ^ k)) ∧ p / (q * 2 ^ k) < 2 ^ 53 := by
  intro k
  rw [← Nat.div_div_eq_div_mul]
  have hk : k = Nat.log2 (p / q) - 52 := rfl
  generalize p / q = T at hk ⊢
  by_cases hT : T = 0
  · subst hT; simp [hk]
  · have hlow : 2 ^ Nat.log2 T ≤ T := Nat.log2_self_le hT
    have hhigh : T < 2 ^ (Nat.log2 T + 1) := Nat.lt_log2_self
    rcases Nat.lt_or_ge 52 (Nat.log2 T) with hbig | hsmall
    · have hlog : Nat.log2 T = 52 + k := by omega
      rw [hlog] at hlow hhigh
      refine ⟨.inr ?_, ?_⟩
      · rw [Nat.le_div_iff_mul_le (Nat.two_pow_pos k), ← Nat.pow_add]; exact hlow
      · rw [Nat.div_lt_iff_lt_mul (Nat.two_pow_pos k), ← Nat.pow_add]
        rw [show 53 + k = 52 + k + 1 by omega]; exact hhigh
    · have hk0 : k = 0 := by omega
      refine ⟨.inl hk0, ?_⟩
      rw [hk0, Nat.pow_zero, Nat.div_one]
      exact lt_of_lt_of_le hhigh (Nat.pow_le_pow_right (by decide) (by omega))

/-- One rounding gives the magnitude nearest to `p / q`; of two equally near, the one with an even last bit. -/
theorem roundUnits_nearest (p : Nat) {q : Nat} (hq : 0 < q) (hfin : roundUnits p q < infBits) (m : Nat) :
    |(magUnits (roundUnits p q) * q : Int) - p| ≤ |(magUnits m * q : Int) - p| ∧
    (|(magUnits (roundUnits p q) * q : Int) - p| = |(magUnits m * q : Int) - p| →
      magUnits m = magUnits (roundUnits p q) ∨ roundUnits p q % 2 = 0) := by
  obtain ⟨hk, hr53⟩ := rounding_scale p q
  unfold roundUnits at hfin ⊢
  simp only at hfin ⊢
  generalize Nat.log2 (p / q) - 52 = k at hk hr53 hfin ⊢
  have hd : 0 < q * 2 ^ k := Nat.mul_pos hq (Nat.two_pow_pos k)
  have hp : q * 2 ^ k * (p / (q * 2 ^ k)) + p % (q * 2 ^ k) = p := Nat.div_add_mod p (q * 2 ^ k)
  have hrem : p % (q * 2 ^ k) < q * 2 ^ k := Nat.mod_lt _ hd
  generalize p / (q * 2 ^ k) = r at hk hr53 hfin hp ⊢
  generalize p % (q * 2 ^ k) = rem at hfin hp hrem ⊢
  have hgap := magUnits_gap hk m
  have hlo : magUnits m ≤ r * 2 ^ k → magUnits m * q ≤ q * 2 ^ k * r := fun h => by
    have := Nat.mul_le_mul_right q h
    calc magUnits m * q ≤ r * 2 ^ k * q := this
      _ = q * 2 ^ k * r := by ring
  have hhi : (r + 1) * 2 ^ k ≤ magUnits m → q * 2 ^ k * r + q * 2 ^ k ≤ magUnits m * q := fun h => by
    have := Nat.mul_le_mul_right q h
    calc q * 2 ^ k * r + q * 2 ^ k = (r + 1) * 2 ^ k * q := by ring
      _ ≤ magUnits m * q := this
  have hcancel : ∀ u, u * q = q * 2 ^ k * r → u = r * 2 ^ k := fun u h =>
    Nat.eq_of_mul_eq_mul_right hq (by rw [h]; ring)
  have hcancel' : ∀ u, u * q = q * 2 ^ k * r + q * 2 ^ k → u = (r + 1) * 2 ^ k := fun u h =>
    Nat.eq_of_mul_eq_mul_right hq (by rw [h]; ring)
  split at hfin
  · next hup =>
    rw [if_pos hup]
    rw [Nat.min_eq_left (by omega)]
    have hmag : magUnits (k * 2 ^ 52 + (r + 1)) = (r + 1) * 2 ^ k :=
      magUnits_scaled (by rcases hk with h | h <;> omega) (by omega)
    have hval : ((r + 1) * 2 ^ k * q : Int) - p = q * 2 ^ k - rem := by
      have : ((p : Nat) : Int) = q * 2 ^ k * r + rem := by exact_mod_cast hp.symm
      rw [this]; ring
    rw [hmag]
    push_cast
    rw [hval]
    have hdI : ((q * 2 ^ k : Nat) : Int) = (q : Int) * 2 ^ k := by push_cast; ring
    generalize hD : q * 2 ^ k = D at *
    rw [← hdI]
    have hpI : ((p : Nat) : Int) = D * r + rem := by exact_mod_cast hp.symm
    have hmI : ((magUnits m : Nat) : Int) * (q : Int) = ((magUnits m * q : Nat) : Int) := by push_cast; ring
    rw [hmI, hpI]
    generalize hU : magUnits m * q = U at *
    have hDr : ((D * r : Nat) : Int) = (D : Int) * r := by push_cast; ring
    rw [← hDr]
    generalize D * r = R at *
    rcases hgap with hg | hg
    · have h1 := hlo hg
      refine ⟨?_, fun he => ?_⟩
      · rw [abs_of_nonneg (by omega), abs_of_nonpos (by omega)]; omega
      · right
        rw [abs_of_nonneg (by omega), abs_of_nonpos (by omega)] at he
        omega
    · have h1 := hhi hg
      refine ⟨?_, fun he => ?_⟩
      · rw [abs_of_nonneg (by omega), abs_of_nonneg (by omega)]; omega
      · left
        rw [abs_of_nonneg (by omega), abs_of_nonneg (by omega)] at he
        exact hcancel' _ (by rw [hU]; omega)
  · next hdown =>
    rw [if_neg hdown]
    rw [Nat.min_eq_left (by omega)]
    have hmag : magUnits (k * 2 ^ 52 + r) = r * 2 ^ k := magUnits_scaled hk (by omega)
    have hval : (r * 2 ^ k * q : Int) - p = -rem := by
      have : ((p : Nat) : Int) = q * 2 ^ k * r + rem := by exact_mod_cast hp.symm
      rw [this]; ring
    rw [hmag]
    push_cast
    rw [hval]
    generalize hD : q * 2 ^ k = D at *
    have hpI : ((p : Nat) : Int) = D * r + rem := by exact_mod_cast hp.symm
    have hmI : ((magUnits m : Nat) : Int) * (q : Int) = ((magUnits m * q : Nat) : Int) := by push_cast; ring
    rw [hmI, hpI]
    generalize hU : magUnits m * q = U at *
    have hDr : ((D * r : Nat) : Int) = (D : Int) * r := by push_cast; ring
    rw [← hDr]
    generalize D * r = R at *
    rcases hgap with hg | hg
    · have h1 := hlo hg
      refine ⟨?_, fun he => ?_⟩
      · rw [abs_of_nonpos (by omega), abs_of_nonpos (by omega)]; omega
      · left
        rw [abs_of_nonpos (by omega), abs_of_nonpos (by omega)] at he
        exact hcancel _ (by rw [hU]; omega)
    · have h1 := hhi hg
      refine ⟨?_, fun he => ?_⟩
      · rw [abs_of_nonpos (by omega), abs_of_nonneg (by omega)]; omega
      · right
        rw [abs_of_nonpos (by omega), abs_of_nonneg (by omega)] at he
        omega

/-- A NaN result is a quiet NaN, whatever the free bits (decision D11). -/
theorem nanResult_quiet (k : Nat) : f64IsQuietNaN (nanResult k) = true := by
  have h51 : (nanResult k).getLsbD 51 = true := by
    unfold nanResult
    simp only [BitVec.getLsbD_append]
    rw [if_pos (by omega), if_pos (by omega), if_neg (by omega)]
    simp
  have hexp : f64Exp (nanResult k) = 0x7FF := by
    have : (nanResult k).extractLsb' 52 11 = 0x7FF#11 := by
      apply BitVec.eq_of_getLsbD_eq
      intro i hi
      unfold nanResult
      simp only [BitVec.getLsbD_extractLsb', BitVec.getLsbD_append, hi, decide_true, Bool.true_and]
      rw [if_pos (by omega), if_neg (by omega)]
      congr 1
      omega
    · rw [f64Exp, this]; rfl
  have hfrac : f64Frac (nanResult k) ≠ 0 := by
    intro h
    have : ((nanResult k).extractLsb' 0 52).getLsbD 51 = true := by
      rw [BitVec.getLsbD_extractLsb']; simpa using h51
    have h0 : (nanResult k).extractLsb' 0 52 = 0#52 := BitVec.eq_of_toNat_eq (by simpa [f64Frac] using h)
    rw [h0] at this
    simp at this
  simp [f64IsQuietNaN, f64IsNaN, hexp, hfrac, h51]

/-- The last bit of a packed pattern. -/
theorem packF64_lsb (s : Bool) (m : Nat) : (packF64 s m).getLsbD 0 = decide (m % 2 = 1) := by
  rw [packF64, BitVec.getLsbD_append, if_pos (by decide), BitVec.getLsbD_ofNat]
  simp [Nat.testBit_zero]

/-- The value of a packed pattern. -/
theorem f64Int_packF64 (s : Bool) {m : Nat} (h : m < 2 ^ 63) :
    f64Int (packF64 s m) = if s then -(magUnits m : Int) else magUnits m := by
  rw [f64Int, f64Sign_packF64, f64Units_eq, f64Mag_packF64 s h]

theorem magUnits_zero : magUnits 0 = 0 := by decide

/-- A packed rounding with the sign of the exact value is the nearest value, ties to even. -/
theorem packF64_nearest (s : Bool) (num : Int) {den : Nat} (hd : 0 < den) (hs : if s then num ≤ 0 else 0 ≤ num)
    (hf : f64IsFinite (packF64 s (roundUnits num.natAbs den)) = true) :
    NearestEven (packF64 s (roundUnits num.natAbs den)) num den := by
  have hlt := roundUnits_lt num.natAbs den
  have hfin : roundUnits num.natAbs den < infBits := by
    rwa [f64IsFinite_iff, f64Mag_packF64 s hlt] at hf
  have near := roundUnits_nearest num.natAbs hd hfin
  refine ⟨hf, fun y hy => ?_⟩
  rw [f64Int_packF64 s hlt, packF64_lsb]
  generalize hM : magUnits (roundUnits num.natAbs den) = M at *
  have hn := near (f64Mag y)
  have h0 := near 0
  rw [magUnits_zero] at h0
  generalize roundUnits num.natAbs den = rr at *
  rw [f64Int, f64Units_eq]
  generalize magUnits (f64Mag y) = Y at *
  have e0 : |((0 : Nat) * den : Int) - (num.natAbs : Int)| = num.natAbs := by simp
  rw [e0] at h0
  have even : rr % 2 = 0 → decide (rr % 2 = 1) = false := fun h => by simp [h]
  have comm : ∀ a : Nat, |(a * den : Int) - (num.natAbs : Int)| = |(-(a:Int)) * den + num.natAbs| := fun a => by
    rw [← abs_neg]; congr 1; ring
  have hpos : (0:Int) ≤ Y * den := by positivity
  have zero : Y * den = 0 → Y = 0 := fun h => (Nat.mul_eq_zero.1 h).resolve_right (by omega)
  rcases s with _ | _
  · simp only [Bool.false_eq_true, if_false] at hs ⊢
    have e : (num.natAbs : Int) = num := by omega
    rw [e] at hn h0
    split
    · have : |(-(Y:Int)) * den - num| = Y * den + num := by rw [abs_of_nonpos] <;> [ring; nlinarith]
      rw [this]
      refine ⟨by omega, fun heq => ?_⟩
      have hY : Y * den = 0 := by have := h0.1; zify; omega
      have : (Y * den : Int) = 0 := by exact_mod_cast hY
      rcases h0.2 (by omega) with h | h
      · left; rw [zero hY, ← h]; simp
      · exact .inr (even h)
    · refine ⟨hn.1, fun heq => ?_⟩
      rcases hn.2 heq with h | h
      · left; rw [h]
      · exact .inr (even h)
  · simp only [if_true] at hs ⊢
    have e : (num.natAbs : Int) = -num := by omega
    rw [e] at hn h0
    have em : |(-(M:Int)) * den - num| = |(M * den : Int) - -num| := by rw [← abs_neg]; congr 1; ring
    rw [em]
    split
    · have em : |(-(Y:Int)) * den - num| = |(Y * den : Int) - -num| := by rw [← abs_neg]; congr 1; ring
      rw [em]
      refine ⟨hn.1, fun heq => ?_⟩
      rcases hn.2 heq with h | h
      · left; rw [h]
      · exact .inr (even h)
    · have : |(Y:Int) * den - num| = Y * den - num := abs_of_nonneg (by omega)
      rw [this]
      refine ⟨by omega, fun heq => ?_⟩
      have hY : Y * den = 0 := by have := h0.1; zify; omega
      have : (Y * den : Int) = 0 := by exact_mod_cast hY
      rcases h0.2 (by omega) with h | h
      · left; rw [zero hY, ← h]; simp
      · exact .inr (even h)

/-- A NaN result is a NaN. -/
theorem nanResult_isNaN (k : Nat) : f64IsNaN (nanResult k) = true := by
  have h := nanResult_quiet k
  rw [f64IsQuietNaN, Bool.and_eq_true] at h
  exact h.1

/-- A packed magnitude up to infinity is no NaN. -/
theorem packF64_not_nan (s : Bool) {m : Nat} (h : m ≤ infBits) : f64IsNaN (packF64 s m) = false := by
  have hm : m < 2 ^ 63 := by unfold infBits at h; omega
  rw [Bool.eq_false_iff, ne_eq, f64IsNaN_iff, f64Mag_packF64 s hm]
  omega

/-- A sum is the free NaN of its draw, or a value that is no NaN and does not depend on the draw. -/
theorem fadd_draw (a b : F64) :
    (∀ k, fadd k a b = nanResult k) ∨ ∃ r, f64IsNaN r = false ∧ ∀ k, fadd k a b = r := by
  by_cases h1 : (f64IsNaN a || f64IsNaN b) = true
  · exact .inl fun k => if_pos h1
  · have hn : f64IsNaN a = false ∧ f64IsNaN b = false := by simpa using h1
    by_cases h2 : f64IsInf a = true
    · by_cases h3 : (f64IsInf b && f64Sign a != f64Sign b) = true
      · exact .inl fun k => (if_neg h1).trans ((if_pos h2).trans (if_pos h3))
      · exact .inr ⟨a, hn.1, fun k => (if_neg h1).trans ((if_pos h2).trans (if_neg h3))⟩
    · by_cases h3 : f64IsInf b = true
      · exact .inr ⟨b, hn.2, fun k => (if_neg h1).trans ((if_neg h2).trans (if_pos h3))⟩
      · exact .inr ⟨_, packF64_not_nan _ (roundUnits_le _ _), fun k =>
          (if_neg h1).trans ((if_neg h2).trans (if_neg h3))⟩

/-- A product is the free NaN of its draw, or a value that is no NaN and does not depend on the draw. -/
theorem fmul_draw (a b : F64) :
    (∀ k, fmul k a b = nanResult k) ∨ ∃ r, f64IsNaN r = false ∧ ∀ k, fmul k a b = r := by
  by_cases h1 : (f64IsNaN a || f64IsNaN b) = true
  · exact .inl fun k => if_pos h1
  · by_cases h2 : (f64IsInf a || f64IsInf b) = true
    · by_cases h3 : (f64IsZero a || f64IsZero b) = true
      · exact .inl fun k => (if_neg h1).trans ((if_pos h2).trans (if_pos h3))
      · exact .inr ⟨_, packF64_not_nan _ le_rfl, fun k => (if_neg h1).trans ((if_pos h2).trans (if_neg h3))⟩
    · exact .inr ⟨_, packF64_not_nan _ (roundUnits_le _ _), fun k => (if_neg h1).trans (if_neg h2)⟩

/-- A quotient is the free NaN of its draw, or a value that is no NaN and does not depend on the draw. -/
theorem fdiv_draw (a b : F64) :
    (∀ k, fdiv k a b = nanResult k) ∨ ∃ r, f64IsNaN r = false ∧ ∀ k, fdiv k a b = r := by
  by_cases h1 : (f64IsNaN a || f64IsNaN b) = true
  · exact .inl fun k => if_pos h1
  · by_cases h2 : f64IsInf a = true
    · by_cases h3 : f64IsInf b = true
      · exact .inl fun k => (if_neg h1).trans ((if_pos h2).trans (if_pos h3))
      · exact .inr ⟨_, packF64_not_nan _ le_rfl, fun k => (if_neg h1).trans ((if_pos h2).trans (if_neg h3))⟩
    · by_cases h3 : f64IsInf b = true
      · exact .inr ⟨_, packF64_not_nan _ (Nat.zero_le _), fun k =>
          (if_neg h1).trans ((if_neg h2).trans (if_pos h3))⟩
      · by_cases h4 : f64IsZero b = true
        · by_cases h5 : f64IsZero a = true
          · exact .inl fun k => (if_neg h1).trans ((if_neg h2).trans ((if_neg h3).trans ((if_pos h4).trans (if_pos h5))))
          · exact .inr ⟨_, packF64_not_nan _ le_rfl, fun k =>
              (if_neg h1).trans ((if_neg h2).trans ((if_neg h3).trans ((if_pos h4).trans (if_neg h5))))⟩
        · exact .inr ⟨_, packF64_not_nan _ (roundUnits_le _ _), fun k =>
            (if_neg h1).trans ((if_neg h2).trans ((if_neg h3).trans (if_neg h4)))⟩

/-- A finite value is neither a NaN nor an infinity. -/
theorem finite_not_special {a : F64} (h : f64IsFinite a = true) : f64IsNaN a = false ∧ f64IsInf a = false := by
  rw [f64IsFinite_iff] at h
  constructor
  · rw [Bool.eq_false_iff, ne_eq, f64IsNaN_iff]; omega
  · rw [Bool.eq_false_iff, ne_eq, f64IsInf_iff]; omega

/-- A sum of finite values, before any case analysis. -/
theorem fadd_finite {a b : F64} (k : Nat) (ha : f64IsFinite a = true) (hb : f64IsFinite b = true) :
    fadd k a b =
      packF64 (if f64Int a + f64Int b = 0 then f64Sign a && f64Sign b else decide (f64Int a + f64Int b < 0))
        (roundUnits (f64Int a + f64Int b).natAbs 1) := by
  obtain ⟨h1, h2⟩ := finite_not_special ha
  obtain ⟨h3, h4⟩ := finite_not_special hb
  simp [fadd, h1, h2, h3, h4]

/-- A product of finite values, before any case analysis. -/
theorem fmul_finite {a b : F64} (k : Nat) (ha : f64IsFinite a = true) (hb : f64IsFinite b = true) :
    fmul k a b = packF64 (f64Sign a != f64Sign b) (roundUnits (f64Units a * f64Units b) unitScale) := by
  obtain ⟨h1, h2⟩ := finite_not_special ha
  obtain ⟨h3, h4⟩ := finite_not_special hb
  simp [fmul, h1, h2, h3, h4]

/-- A quotient of finite values by one that is not zero, before any case analysis. -/
theorem fdiv_finite {a b : F64} (k : Nat) (ha : f64IsFinite a = true) (hb : f64IsFinite b = true)
    (hz : f64IsZero b = false) :
    fdiv k a b = packF64 (f64Sign a != f64Sign b) (roundUnits (f64Units a * unitScale) (f64Units b)) := by
  obtain ⟨h1, h2⟩ := finite_not_special ha
  obtain ⟨h3, h4⟩ := finite_not_special hb
  simp [fdiv, h1, h2, h3, h4, hz]

theorem fadd_nan (k : Nat) {a b : F64} (h : f64IsNaN a = true ∨ f64IsNaN b = true) : f64IsNaN (fadd k a b) = true := by
  rw [fadd, if_pos (by rcases h with h | h <;> simp [h])]
  exact nanResult_isNaN k

theorem fmul_nan (k : Nat) {a b : F64} (h : f64IsNaN a = true ∨ f64IsNaN b = true) : f64IsNaN (fmul k a b) = true := by
  rw [fmul, if_pos (by rcases h with h | h <;> simp [h])]
  exact nanResult_isNaN k

/-- Sums of operands that agree but for the patterns of NaNs agree likewise, whatever they draw. -/
theorem fadd_same (k j : Nat) {a b c d : F64} (hl : SameButNaN a b) (hr : SameButNaN c d) :
    SameButNaN (fadd k a c) (fadd j b d) := by
  rcases hl with rfl | ⟨ha, hb⟩
  · rcases hr with rfl | ⟨hc, hd⟩
    · rcases fadd_draw a c with h | ⟨r, -, h⟩
      · right; rw [h, h]; exact ⟨nanResult_isNaN k, nanResult_isNaN j⟩
      · left; rw [h, h]
    · exact .inr ⟨fadd_nan k (.inr hc), fadd_nan j (.inr hd)⟩
  · exact .inr ⟨fadd_nan k (.inl ha), fadd_nan j (.inl hb)⟩

/-- Products of operands that agree but for the patterns of NaNs agree likewise, whatever they draw. -/
theorem fmul_same (k j : Nat) {a b c d : F64} (hl : SameButNaN a b) (hr : SameButNaN c d) :
    SameButNaN (fmul k a c) (fmul j b d) := by
  rcases hl with rfl | ⟨ha, hb⟩
  · rcases hr with rfl | ⟨hc, hd⟩
    · rcases fmul_draw a c with h | ⟨r, -, h⟩
      · right; rw [h, h]; exact ⟨nanResult_isNaN k, nanResult_isNaN j⟩
      · left; rw [h, h]
    · exact .inr ⟨fmul_nan k (.inr hc), fmul_nan j (.inr hd)⟩
  · exact .inr ⟨fmul_nan k (.inl ha), fmul_nan j (.inl hb)⟩

end Sys2Proof.Machine
end

