-- ==== Sys2Proof/Laws/PerInstr.lean ====
section
/-! SUPPORT. Statements made instruction by instruction: what each command's word looks like as format C asks
(30_encoding.md R90, R92). -/
namespace Sys2Proof.Laws.WordIsLegal

/-- A command is well formed, its word has zero above the opcode, and the opcode is one the map defines. -/
def Statement (i : Instr) : Prop :=
  i.wellFormed = true ∧ wordLegal (encode i) = true ∧ (encode i).extractLsb' 0 8 = opcodeOf i

theorem nop : Statement .nop := by unfold Statement; decide
theorem parse : Statement .parse := by unfold Statement; decide
theorem decodeId : Statement .decodeId := by unfold Statement; decide
theorem decodeTs : Statement .decodeTs := by unfold Statement; decide
theorem decodeData : Statement .decodeData := by unfold Statement; decide
theorem verify : Statement .verify := by unfold Statement; decide
theorem calibrate : Statement .calibrate := by unfold Statement; decide
theorem processFrame : Statement .processFrame := by unfold Statement; decide
theorem integrate : Statement .integrate := by unfold Statement; decide
theorem clrSamples : Statement .clrSamples := by unfold Statement; decide

end Sys2Proof.Laws.WordIsLegal
end

