-- ==== Sys2Proof/Laws/Registers.lean ====
section
/-! SUPPORT. What a host access can do: what a write to each register leaves in the block, that it keeps the invariant, and
the inversion of the machine's step. -/
namespace Sys2Proof.Machine

theorem clampSensorCount_le (v : Word) : (clampSensorCount v).toNat ≤ 2048 := by
  unfold clampSensorCount
  split
  · simp
  · omega

/-- What SENSOR_COUNT stores: the smaller of the written bits 11:0 and 2048 (10_state.md R31). -/
theorem clampSensorCount_toNat (v : Word) : (clampSensorCount v).toNat = min (v.toNat % 4096) 2048 := by
  have : (v.extractLsb' 0 12).toNat = v.toNat % 4096 := by simp
  unfold clampSensorCount
  split
  · simp only [BitVec.toNat_ofNat]; omega
  · omega

/-- What a calibration write can do: nothing out of range, CFGERR alone under the lock, else one entry. -/
theorem writeCal_cases (f : CalEntry → CalEntry) (b : Block) :
    (b.calDepth.toNat ≤ b.calIdx.toNat ∧ writeCal f b = b) ∨
    (b.cfgLock = true ∧ b.calIdx.toNat < b.calDepth.toNat ∧ writeCal f b = { b with cfgErr := true }) ∨
    (b.cfgLock = false ∧ b.calIdx.toNat < b.calDepth.toNat ∧
      writeCal f b = { b with cal := calSet b.cal b.calIdx.toNat (f (calGet b.cal b.calIdx.toNat)) }) := by
  unfold writeCal
  simp only
  split
  · next he => exact .inl ⟨he, rfl⟩
  · next he =>
    have he := Nat.lt_of_not_le he
    split
    · next hl => exact .inr (.inl ⟨hl, he, rfl⟩)
    · next hl => exact .inr (.inr ⟨by simpa using hl, he, rfl⟩)

theorem writeCal_keeps (f : CalEntry → CalEntry) {b : Block} (h : Block.Inv b) : Block.Inv (writeCal f b) := by
  rcases writeCal_cases f b with ⟨-, hw⟩ | ⟨-, -, hw⟩ | ⟨-, he, hw⟩
  · rw [hw]; exact h
  · rw [hw]
    exact inv_of_same h rfl rfl rfl rfl rfl rfl rfl rfl rfl (outputInv_of_same h.out rfl rfl rfl rfl)
      ⟨h.status.pending, h.status.lastOp, h.status.detail, h.status.reserved, h.status.sum, h.status.reading⟩
  · rw [hw]
    exact { h with
      cal := ⟨calSet_wf _ _ h.cal.wf, calSet_within _ he h.cal.within⟩
      out := outputInv_of_same h.out rfl rfl rfl rfl
      status := ⟨h.status.pending, h.status.lastOp, h.status.detail, h.status.reserved, h.status.sum, h.status.reading⟩ }

/-- A block changed only in registers the invariant does not speak of. -/
theorem inv_of_scalars {b c : Block} (h : Block.Inv b) (hcd : c.calDepth = b.calDepth) (hsd : c.sampleDepth = b.sampleDepth)
    (hsc : c.sensorCount.toNat ≤ 2048) (hcal : c.cal = b.cal) (hopa : BufferInv c.opa) (hopb : BufferInv c.opb)
    (hspd : SequenceInv b.sampleDepth.toNat c.spd) (htim : SequenceInv b.sampleDepth.toNat c.tim)
    (hang : SequenceInv b.sampleDepth.toNat c.ang) (hxm : c.xm = b.xm) (hym : c.ym = b.ym) (hlen : c.outLen = b.outLen)
    (hst : StatusInv c) : Block.Inv c :=
  { calDepth := hcd ▸ h.calDepth, sampleDepth := hsd ▸ h.sampleDepth, sensorCount := hsc
    cal := ⟨hcal ▸ h.cal.wf, by rw [hcal, hcd]; exact h.cal.within⟩
    opa := hopa, opb := hopb
    spd := by rw [hsd]; exact hspd
    tim := by rw [hsd]; exact htim
    ang := by rw [hsd]; exact hang
    out := outputInv_of_same h.out hsd hxm hym hlen, status := hst }

theorem statusInv_of_same {b c : Block} (h : StatusInv b) (h1 : c.busy = b.busy) (h2 : c.err = b.err)
    (h3 : c.lastOp = b.lastOp) (h4 : c.pending = b.pending) (h5 : c.errInfo = b.errInfo)
    (h6 : c.errExpected = b.errExpected) (h7 : c.errActual = b.errActual) (h8 : c.resSum = b.resSum)
    (h9 : c.readingValid = b.readingValid) (h10 : c.checksumOk = b.checksumOk) : StatusInv c :=
  { pending := by rw [h1, h2]; exact h.pending
    lastOp := by rw [h3, h4]; exact h.lastOp
    detail := by rw [h1, h2, h5, h6, h7]; exact h.detail
    reserved := by rw [h5]; exact h.reserved
    sum := by rw [h8]; exact h.sum
    reading := by rw [h9, h10]; exact h.reading }

theorem sequenceInv_latch {d : Nat} {q : SampleSeq} (v : Word) (h : SequenceInv d q) :
    SequenceInv d { q with latch := v } := ⟨h.mem, h.held⟩

/-- A register write while idle keeps the invariant. -/
theorem writeReg_keeps (r : Reg) (v : Word) {b : Block} (h : Block.Inv b) : Block.Inv (writeReg r v b) := by
  have st : ∀ {c : Block}, c.busy = b.busy → c.err = b.err → c.lastOp = b.lastOp → c.pending = b.pending →
      c.errInfo = b.errInfo → c.errExpected = b.errExpected → c.errActual = b.errActual → c.resSum = b.resSum →
      c.readingValid = b.readingValid → c.checksumOk = b.checksumOk → StatusInv c := statusInv_of_same h.status
  cases r
  case statusClr =>
    exact inv_of_scalars h rfl rfl h.sensorCount rfl h.opa h.opb h.spd h.tim h.ang rfl rfl rfl
      (st rfl rfl rfl rfl rfl rfl rfl rfl rfl rfl)
  case sensorCount =>
    show Block.Inv (writeSensorCount v b)
    unfold writeSensorCount
    split
    · exact inv_of_scalars h rfl rfl h.sensorCount rfl h.opa h.opb h.spd h.tim h.ang rfl rfl rfl
        (st rfl rfl rfl rfl rfl rfl rfl rfl rfl rfl)
    · exact inv_of_scalars h rfl rfl (clampSensorCount_le v) rfl h.opa h.opb h.spd h.tim h.ang rfl rfl rfl
        (st rfl rfl rfl rfl rfl rfl rfl rfl rfl rfl)
  case calWLo => unfold writeReg; exact writeCal_keeps _ h
  case calWHi => unfold writeReg; exact writeCal_keeps _ h
  case calBLo => unfold writeReg; exact writeCal_keeps _ h
  case calBHi => unfold writeReg; exact writeCal_keeps _ h
  case calValid => unfold writeReg; exact writeCal_keeps _ h
  case opaSym =>
    exact inv_of_scalars h rfl rfl h.sensorCount rfl (pushSymbol_keeps v h.opa) h.opb h.spd h.tim h.ang rfl rfl rfl
      (st rfl rfl rfl rfl rfl rfl rfl rfl rfl rfl)
  case opbSym =>
    exact inv_of_scalars h rfl rfl h.sensorCount rfl h.opa (pushSymbol_keeps v h.opb) h.spd h.tim h.ang rfl rfl rfl
      (st rfl rfl rfl rfl rfl rfl rfl rfl rfl rfl)
  case opaCtl =>
    exact inv_of_scalars h rfl rfl h.sensorCount rfl (clearBuffer_keeps v h.opa) h.opb h.spd h.tim h.ang rfl rfl rfl
      (st rfl rfl rfl rfl rfl rfl rfl rfl rfl rfl)
  case opbCtl =>
    exact inv_of_scalars h rfl rfl h.sensorCount rfl h.opa (clearBuffer_keeps v h.opb) h.spd h.tim h.ang rfl rfl rfl
      (st rfl rfl rfl rfl rfl rfl rfl rfl rfl rfl)
  case spdLo =>
    exact inv_of_scalars h rfl rfl h.sensorCount rfl h.opa h.opb (sequenceInv_latch v h.spd) h.tim h.ang rfl rfl rfl
      (st rfl rfl rfl rfl rfl rfl rfl rfl rfl rfl)
  case timLo =>
    exact inv_of_scalars h rfl rfl h.sensorCount rfl h.opa h.opb h.spd (sequenceInv_latch v h.tim) h.ang rfl rfl rfl
      (st rfl rfl rfl rfl rfl rfl rfl rfl rfl rfl)
  case angLo =>
    exact inv_of_scalars h rfl rfl h.sensorCount rfl h.opa h.opb h.spd h.tim (sequenceInv_latch v h.ang) rfl rfl rfl
      (st rfl rfl rfl rfl rfl rfl rfl rfl rfl rfl)
  case spdHi =>
    exact inv_of_scalars h rfl rfl h.sensorCount rfl h.opa h.opb (appendSample_keeps v h.spd) h.tim h.ang rfl rfl rfl
      (st rfl rfl rfl rfl rfl rfl rfl rfl rfl rfl)
  case timHi =>
    exact inv_of_scalars h rfl rfl h.sensorCount rfl h.opa h.opb h.spd (appendSample_keeps v h.tim) h.ang rfl rfl rfl
      (st rfl rfl rfl rfl rfl rfl rfl rfl rfl rfl)
  case angHi =>
    exact inv_of_scalars h rfl rfl h.sensorCount rfl h.opa h.opb h.spd h.tim (appendSample_keeps v h.ang) rfl rfl rfl
      (st rfl rfl rfl rfl rfl rfl rfl rfl rfl rfl)
  all_goals
    exact inv_of_scalars h rfl rfl h.sensorCount rfl h.opa h.opb h.spd h.tim h.ang rfl rfl rfl
      (st rfl rfl rfl rfl rfl rfl rfl rfl rfl rfl)

/-- An issue keeps the invariant. -/
theorem issue_keeps (w : Word) {s : State} (h : Block.Inv s.blk) : Block.Inv (issue w s).blk :=
  inv_of_same h rfl rfl rfl rfl rfl rfl rfl rfl rfl (outputInv_of_same h.out rfl rfl rfl rfl)
    ⟨fun _ => rfl, rfl, fun hb => by simp at hb, h.status.reserved, h.status.sum, h.status.reading⟩

/-- What a write while idle can do: an issue, a register write, or nothing at a reserved offset. -/
theorem idleWrite_cases (o : Offset) (v : Word) (s : State) :
    (regAt o = some .cmd ∧ idleWrite o v s = issue v s) ∨
    (∃ r, regAt o = some r ∧ r ≠ .cmd ∧ idleWrite o v s = { s with blk := writeReg r v s.blk }) ∨
    (regAt o = none ∧ idleWrite o v s = s) := by
  cases ho : regAt o with
  | none => exact .inr (.inr ⟨rfl, by simp [idleWrite, ho]⟩)
  | some r =>
    by_cases hr : r = .cmd
    · subst hr; exact .inl ⟨rfl, by simp [idleWrite, ho]⟩
    · exact .inr (.inl ⟨r, rfl, hr, by unfold idleWrite; rw [ho]; split <;> simp_all⟩)

/-- What a host write can do: be dropped while BUSY = 1, else what a write while idle does. -/
theorem hostWrite_cases (o : Offset) (v : Word) (s : State) :
    (s.blk.busy = true ∧ hostWrite o v s = dropWrite s) ∨
    (s.blk.busy = false ∧ hostWrite o v s = idleWrite o v s) := by
  unfold hostWrite
  cases s.blk.busy <;> simp

/-- What the host's next operation can do: write, read, spin, or reset. -/
theorem hostStep_cases (op : HostOp) (rest : List HostOp) (s : State) :
    (∃ o v, op = .write o v ∧ hostStep op rest s = hostWrite o v (takeOp rest s)) ∨
    (∃ o, (op = .read o ∨ ∃ m v, op = .readUntil o m v ∧ hostReadValue o s &&& m = v) ∧
      hostStep op rest s = hostRead o (takeOp rest s)) ∨
    (∃ o m v, op = .readUntil o m v ∧ hostReadValue o s &&& m ≠ v ∧
      hostStep op rest s = hostRead o (takeOp (op :: rest) s)) ∨
    (op = .reset ∧ hostStep op rest s = resetBlock (takeOp rest s)) := by
  cases op with
  | write o v => exact .inl ⟨o, v, rfl, rfl⟩
  | read o => exact .inr (.inl ⟨o, .inl rfl, rfl⟩)
  | readUntil o m v =>
    by_cases h : hostReadValue o s &&& m = v
    · exact .inr (.inl ⟨o, .inr ⟨m, v, rfl, h⟩, by simp [hostStep, h]⟩)
    · exact .inr (.inr (.inl ⟨o, m, v, rfl, h, by simp [hostStep, h]⟩))
  | reset => exact .inr (.inr (.inr ⟨rfl, rfl⟩))

/-- What a step can do: the completion at the sequencer's turn, else the host's next operation, else nothing. -/
theorem step_cases (s : State) :
    (sequencerTurn s = true ∧ step s = completionStep s) ∨
    (∃ op rest, sequencerTurn s = false ∧ s.ops = op :: rest ∧ step s = .next (hostStep op rest s)) ∨
    (sequencerTurn s = false ∧ s.ops = [] ∧ step s = .next s) := by
  unfold step machineStep
  cases ht : sequencerTurn s
  · right
    cases ho : s.ops with
    | nil => exact .inr ⟨rfl, rfl, by simp⟩
    | cons op rest => exact .inl ⟨op, rest, rfl, rfl, by simp⟩
  · exact .inl ⟨rfl, by simp⟩

/-- What the completion step can do: run the decoded command, or end an illegal word with its error. -/
theorem completionStep_cases (s : State) :
    (∃ i, decode s.blk.pending = .ok i ∧ completionStep s = exec i s) ∨
    (∃ e, decode s.blk.pending = .error e ∧ completionStep s = .next (illegalCommand s.blk.pending s)) := by
  unfold completionStep
  cases h : decode s.blk.pending with
  | ok i => exact .inl ⟨i, rfl, rfl⟩
  | error e => exact .inr ⟨e, rfl, rfl⟩

/-- The host moves where the sequencer does not. -/
theorem step_host {s : State} {op : HostOp} {rest : List HostOp} (h : s.blk.busy = false ∨ s.wait ≠ 0)
    (ho : s.ops = op :: rest) : step s = .next (hostStep op rest s) := by
  have ht : sequencerTurn s = false := by rcases h with h | h <;> simp [sequencerTurn, h, ho]
  simp only [step, machineStep, ht, ho, Bool.false_eq_true, if_false]

/-- The sequencer moves where a command is pending and its turn has come. -/
theorem step_sequencer {s : State} (hb : s.blk.busy = true) (hw : s.wait = 0 ∨ s.ops = []) : step s = completionStep s := by
  have ht : sequencerTurn s = true := by rcases hw with h | h <;> simp [sequencerTurn, h, hb]
  simp only [step, machineStep, ht, if_true]

/-- A host's write of a register other than CMD, to an idle block. -/
theorem step_write {s : State} {o : Offset} {v : Word} {rest : List HostOp} {r : Reg} (hb : s.blk.busy = false)
    (ho : s.ops = .write o v :: rest) (hr : regAt o = some r) (hc : r ≠ .cmd) :
    step s = .next { takeOp rest s with blk := writeReg r v s.blk } := by
  rw [step_host (.inl hb) ho]
  have hb' : (takeOp rest s).blk.busy = false := hb
  simp only [hostStep, hostWrite, hb', Bool.false_eq_true, if_false]
  rcases idleWrite_cases o v (takeOp rest s) with ⟨h, -⟩ | ⟨r', h, -, he⟩ | ⟨h, -⟩
  · rw [hr] at h; exact absurd (Option.some.inj h) hc
  · rw [hr] at h; rw [he, ← Option.some.inj h]; rfl
  · rw [hr] at h; cases h

end Sys2Proof.Machine
end

