-- ==== Sys2Proof/Laws/RunEnd.lean ====
section
/-! SUPPORT. What the end of a run can be (70_reset_and_hazards.md R294): one lemma for each definition of Machine/RunEnd.lean. -/
namespace Sys2Proof.Machine

/-- Freeing a command's results changes nothing else. -/
theorem freeResults_same (k : Nat) (i : Instr) (b : Block) : SameButResultsOf i b (freeResults k i b) := by
  cases i <;> rfl

/-- What the end of a run can be: none while the host has operations, the block where the host has seen it idle, else the
undetermined end. -/
theorem endBlock_cases (s : State) :
    (s.ops ≠ [] ∧ endBlock s = none) ∨ (s.ops = [] ∧ s.synced = true ∧ endBlock s = some s.blk) ∨
    (s.ops = [] ∧ s.synced = false ∧ endBlock s = some (undeterminedEnd s)) := by
  unfold endBlock
  cases s.ops with
  | cons op rest => exact .inl ⟨by simp, rfl⟩
  | nil => cases s.synced <;> simp

/-- What an undetermined end can be, of a command's word: its results are free in the block as it stands, or as the pending
completion leaves it. -/
theorem undeterminedEnd_cases {s : State} {i : Instr} (h : decode s.blk.pending = .ok i) :
    undeterminedEnd s = freeResults s.issues i s.blk ∨
    (s.blk.busy = true ∧ undeterminedEnd s = freeResults s.issues i (completedBlock s)) := by
  simp only [undeterminedEnd, h]
  cases s.blk.busy <;> cases Config.completedAtEnd s.issues <;> simp

end Sys2Proof.Machine
end

