-- ==== Sys2Proof/Tests/Slice0.lean ====
section
/-! SUPPORT. Tests: what the well-formedness checks refuse, words from 30_encoding.md's own table, single steps against
95_test_vectors.md (each names its vector), and for every statement with hypotheses a state that meets them. -/
set_option Elab.async false
namespace Sys2Proof.Tests
open Sys2Proof.Machine

/-! ## Small states -/

/-- The block after reset. -/
def idle : Block := Block.reset 16#12 1024#16

/-- The block after reset and LOCK. -/
def locked : Block := { idle with cfgLock := true }

/-- A state around a block: a host with nothing to do. -/
def around (b : Block) : State := { State.reset with blk := b }

/-- A state around a block whose host has operations to do, `n` of them before any completion. -/
def hosted (b : Block) (ops : List HostOp) (n : Nat) : State := { State.reset with blk := b, ops := ops, wait := n }

/-- A buffer after pushes of the `w` bit characters of `n`, most significant first. -/
def pushed : Nat → Nat → OpBuf → OpBuf
  | 0, _, x => x
  | w + 1, n, x => pushed w n (pushSymbol (if n.testBit w then 0x31#32 else 0x30#32) x)

/-- A cleared buffer after those pushes. -/
def bits (w n : Nat) : OpBuf := pushed w n OpBuf.empty

/-- A sample sequence after appends of the given values. -/
def samples (l : List F64) : SampleSeq :=
  l.foldl (fun q x => appendSample 1024#16 (hi32 x) { q with latch := lo32 x }) SampleSeq.empty

/-- The block with the three sample sequences loaded. -/
def driven (speeds times angles : List F64) : Block :=
  { idle with spd := samples speeds, tim := samples times, ang := samples angles }

/-- The block an outcome leaves. -/
def left : Host.Outcome State Fault Refusal → Option Block
  | .next t => some t.blk
  | _ => none

/-- STATUS and the error detail of the block an outcome leaves. -/
def report (o : Host.Outcome State Fault Refusal) : Option (Word × Word × Word × Word) :=
  (left o).map (fun b => (statusWord b, b.errInfo, b.errExpected, b.errActual))

/-- FRAME1 as a number (95_test_vectors.md). -/
def frame1 : Nat := 0x4200190285078A0C8F11940D985F

/-- SETCAL 2, 2.0, 0.0, LOCK, and a frame in OPA (95_test_vectors.md, 2.6). -/
def framed (f : Nat) : Block :=
  { locked with cal := [(2, ⟨0x4000000000000000#64, 0#64, true⟩)], opa := bits 121 f }

/-- SETCAL 2, W, B, LOCK, CAL_ID_IN = 2, RAW (95_test_vectors.md, 2.4). -/
def measured (w b raw : F64) : Block := { locked with cal := [(2, ⟨w, b, true⟩)], calIdIn := 2#11, raw := raw }

/-! ## Well-formedness: each check refuses an ill-formed term -/

theorem test_wellFormed_all : ∀ i ∈ [Instr.nop, .parse, .decodeId, .decodeTs, .decodeData, .verify, .calibrate,
    .processFrame, .integrate, .clrSamples], i.wellFormed = true ∧ wordLegal (encode i) = true := by decide
theorem test_wellFormed_mbz : wordMbzOk 0x00000101#32 = false ∧ wordLegal 0x00000101#32 = false := by decide
theorem test_wellFormed_op : wordOpOk 0x0000000A#32 = false ∧ wordLegal 0x0000000A#32 = false := by decide
theorem test_wellFormed_calDepth : calDepthLegal 0#12 = false ∧ calDepthLegal 2049#12 = false ∧
    calDepthLegal 1#12 = true ∧ calDepthLegal 2048#12 = true := by decide
theorem test_wellFormed_sampleDepth : sampleDepthLegal 0#16 = false ∧ sampleDepthLegal 65535#16 = false ∧
    sampleDepthLegal 1#16 = true ∧ sampleDepthLegal 65534#16 = true := by decide

/-! ## Decoding: words written out bit by bit from 30_encoding.md R90, R91 -/

theorem test_decode_control : decode 0b00000000000000000000000000000000#32 = .ok .nop ∧
    decode 0b00000000000000000000000000000111#32 = .ok .processFrame := by decide
theorem test_decode_extract : decode 0b00000000000000000000000000000001#32 = .ok .parse ∧
    decode 0b00000000000000000000000000000010#32 = .ok .decodeId ∧
    decode 0b00000000000000000000000000000011#32 = .ok .decodeTs ∧
    decode 0b00000000000000000000000000000100#32 = .ok .decodeData := by decide
theorem test_decode_checksum : decode 0b00000000000000000000000000000101#32 = .ok .verify := by decide
theorem test_decode_calibrate : decode 0b00000000000000000000000000000110#32 = .ok .calibrate := by decide
theorem test_decode_integrator : decode 0b00000000000000000000000000001000#32 = .ok .integrate ∧
    decode 0b00000000000000000000000000001001#32 = .ok .clrSamples := by decide
theorem test_decode_illegal : decode 0b00000000000000000000000000001010#32 = .error .reservedOpcode ∧
    decode 0xFFFFFFFF#32 = .error .reservedBits ∧ decode 0x80000000#32 = .error .reservedBits := by decide
theorem test_table_word : decodeTableWord 32 3 = some .decodeTs ∧ decodeTableWord 32 10 = none := by decide

/-! ## The register map: 10_state.md R23 -/

theorem test_regMap : ∀ r ∈ regMap, regAt (BitVec.ofNat 10 r.offset) = some r.reg ∧
    regOffset r.reg = BitVec.ofNat 10 r.offset := by decide +kernel
theorem test_regMap_reserved : regAt 0x03C#10 = none ∧ regAt 0x06C#10 = none ∧ regAt 0x154#10 = none ∧
    regAt 0x23C#10 = none ∧ regAt 0x007#10 = some .status := by decide +kernel

/-! ## One step from reset -/

/-- 70_reset_and_hazards.md R281: the first command after reset needs the lock, and there is none. -/
theorem test_first_processFrame : report (step (State.reset.withFetchWord 32 7)) = some (0x00070060#32, 0x000070FF#32, 1#32, 0#32) := by
  decide +kernel
/-- V-N2. -/
theorem test_first_illegal : report (step (State.reset.withFetchWord 32 10)) = some (0x000A0050#32, 0x000067FF#32, 0#32, 0x0000000A#32) := by
  decide +kernel
/-- An idle block holds its state (60_exceptions.md R265). -/
theorem test_idle_step : step State.reset = .next State.reset := by rfl

/-! ## The commands, one step each -/

/-- V-N1: NOP clears the error and its detail. -/
theorem test_nop :
    report (exec .nop (around { idle with err := .decodeError, errInfo := 0x1106#32, errExpected := 16#32, errActual := 15#32 })) =
    some (0#32, 0#32, 0#32, 0#32) := by decide +kernel
/-- V-P1. -/
theorem test_parse : (left (exec .parse (around { idle with opa := bits 121 frame1 }))).map Block.fields =
    some { sof := 0#1, id := 2#11, stuff := 0#1, ide := 0#1, rsvd := 0#1, msgLen := 8#4, ts := 0x64#16,
           data := 0x0A141E28323C4650#64, crc := 0x1B30#15, crcDel := 1#1, ack := 0#1, ackDel := 1#1, eof := 1#1,
           ifs := 7#3 } := by decide +kernel
/-- V-P5, cut to six symbols, the last of them `2`: the symbol comes before the length. -/
theorem test_parse_symbol : report (exec .parse (around { idle with opa := pushSymbol 0x32#32 (bits 5 0) })) =
    some (0x00000020#32, 0x000521FF#32, 0x00003130#32, 0x00000032#32) := by decide +kernel
/-- V-S7. -/
theorem test_decodeId : (left (exec .decodeId (around { locked with opa := bits 11 14 }))).map Block.resId =
    some 14#11 := by decide +kernel
/-- V-S8. -/
theorem test_decodeId_unknown : report (exec .decodeId (around { locked with opa := bits 11 15 })) =
    some (0x00000130#32, 0x00003101#32, 15#32, 15#32) := by decide +kernel
/-- V-S3. -/
theorem test_decodeTs : (left (exec .decodeTs (around { idle with opa := bits 16 100 }))).map Block.resTs =
    some 0x3FB999999999999A#64 := by decide +kernel
/-- V-S1f. -/
theorem test_decodeTs_largest : timestampSeconds 0 65535#16 = 0x4050623D70A3D70A#64 := by decide +kernel
/-- V-S13: a signalling NaN is copied unchanged. -/
theorem test_decodeData : (left (exec .decodeData (around { idle with opa := bits 64 0x7FF0000000000001 }))).map
    Block.resData = some 0x7FF0000000000001#64 := by decide +kernel
/-- V-S17. -/
theorem test_decodeData_length : report (exec .decodeData (around { idle with opa := bits 63 0 })) =
    some (0x00000040#32, 0x00001107#32, 64#32, 63#32) := by decide +kernel
/-- V-C4. -/
theorem test_verify_corrupt :
    (left (exec .verify (around { idle with opa := bits 64 0x0A141E28323C4651, opb := bits 15 6960 }))).map resChkWord =
    some 0x00001B4D#32 := by decide +kernel
/-- V-C5: a bad symbol in OPB is a mismatch, not an error. -/
theorem test_verify_symbol :
    (left (exec .verify (around { idle with opa := bits 64 0x0A141E28323C4650, opb := pushSymbol 0x78#32 (bits 14 3480) }))).map
      (fun b => (resChkWord b, b.err)) = some (0x00001B30#32, .ok) := by decide +kernel
/-- V-K3: the sign of a zero. -/
theorem test_calibrate_zero : (left (exec .calibrate (around (measured 0xC000000000000000#64 0x3FF0000000000000#64
    0x3FF0000000000000#64)))).map Block.resCal = some 0x8000000000000000#64 := by decide +kernel
/-- V-K5a: two roundings. -/
theorem test_calibrate_rounds : (left (exec .calibrate (around (measured 0x3FB999999999999A#64 0#64
    0x3FD3333333333333#64)))).map Block.resCal = some 0x3F9EB851EB851EB8#64 := by decide +kernel
/-- V-F1. -/
theorem test_processFrame : (left (exec .processFrame (around (framed frame1)))).map
    (fun b => (b.resId, b.resTs, resChkWord b, b.resCal, resFlagsWord b)) =
    some (2#11, 0x3FB999999999999A#64, 0x00011B30#32, 0x0A241E28323C4650#64, 3#32) := by decide +kernel
/-- V-F4: the frame's id is known, its checksum holds, and it has no calibration entry. -/
theorem test_processFrame_uncalibrated : report (exec .processFrame (around { locked with opa := bits 121 (frame1 + 2 ^ 109) })) =
    some (0x00000130#32, 0x00004101#32, 16#32, 3#32) := by decide +kernel
/-- V-I6: exact for every cosine and sine. -/
theorem test_integrate : (left (exec .integrate (around (driven
    [0x4024000000000000#64, 0x4034000000000000#64, 0x403E000000000000#64]
    [0x4059000000000000#64, 0x4059000000000000#64, 0x4059000000000000#64] [0#64, 0#64, 0#64])))).map
    (fun b => (b.xm, b.outLen)) =
    some ([(0, 0x3FD1CAC083126E97#64), (1, 0x3FEAB020C49BA5E2#64), (2, 0x3FFAB020C49BA5E3#64)], 3#16) := by decide +kernel
/-- V-I9: the times are checked first. -/
theorem test_integrate_lengths : report (exec .integrate (around (driven [0#64] [0#64, 0#64] [0#64]))) =
    some (0x00000010#32, 0x000015FF#32, 1#32, 2#32) := by decide +kernel
/-- V-I15. -/
theorem test_clrSamples : (left (exec .clrSamples (around (driven [0#64] [0#64] [0#64])))).map
    (fun b => (b.spd.len, b.tim.len, b.ang.len, b.spd.mem)) = some (0#16, 0#16, 0#16, [(0, 0#64)]) := by decide +kernel

/-! ## Arithmetic and the host's accesses -/

/-- V-K7a, V-K7b: ties among subnormals go to even. -/
theorem test_subnormal_ties : fmul 0 0x0000000000000001#64 0x3FE0000000000000#64 = 0#64 ∧
    fmul 0 0x0000000000000003#64 0x3FE0000000000000#64 = 2#64 := by decide +kernel
/-- V-K8: overflow. -/
theorem test_overflow : fsub 0 0x7FEE42D130773B76#64 0xFFEE42D130773B76#64 = 0x7FF0000000000000#64 := by decide +kernel
/-- V-N5, V-N6: a dropped configuration write, and clearing its flag. -/
theorem test_cfgErr : (left (step (hosted locked [.write 0x020#10 20#32] 0))).map (fun b => (statusWord b, b.sensorCount)) =
    some (0x00000500#32, 15#12) ∧
    (left (step (hosted { locked with cfgErr := true } [.write 0x008#10 0x400#32] 0))).map statusWord =
    some 0x00000100#32 := by decide +kernel
/-- The values V-S lists for SENSOR_COUNT writes. -/
theorem test_sensorCount : clampSensorCount 5000#32 = 904#12 ∧ clampSensorCount 0xFFF#32 = 2048#12 := by decide
/-- Program P5, both of its outcomes: OPA_CTL is accepted after the completion and dropped before it. -/
theorem test_missing_poll :
    (left (step (hosted { idle with opa := bits 2 0 } [.write 0x044#10 1#32] 0))).map (fun b => (b.opa.count, b.wrBusy)) =
    some (0#16, false) ∧
    (left (step (hosted { idle with opa := bits 2 0, busy := true, pending := 3#32 } [.write 0x044#10 1#32] 1))).map
      (fun b => (b.opa.count, b.wrBusy)) = some (2#16, true) := by decide +kernel
/-- V-N8, V-N9. -/
theorem test_constants : hostReadValue 0x00C#10 State.reset = 0x00100400#32 ∧ hostReadValue 0x200#10 State.reset = 0x79#32 := by
  decide +kernel
/-- Decision D45 out of range and 20_memory.md R74 in range: a locked write sets CFGERR only where CAL_IDX is below CAL_DEPTH. -/
theorem test_cal_out_of_range :
    (left (step (hosted { locked with calIdx := 16#11 } [.write 0x028#10 1#32] 0))).map statusWord = some 0x00000100#32 ∧
    (left (step (hosted { locked with calIdx := 15#11 } [.write 0x038#10 1#32] 0))).map statusWord = some 0x00000500#32 := by
  decide +kernel
/-- 20_memory.md R62: a reserved offset reads 0 also while BUSY = 1. -/
theorem test_reserved_busy : hostReadValue 0x3FC#10 { State.reset with blk := { idle with busy := true } } = 0#32 := by
  decide +kernel
/-- EXEC and PUSHA expand as 30_encoding.md R104 says. -/
theorem test_asm : asmExec .decodeTs = [.write 0x000#10 3#32, .readUntil 0x004#10 1#32 0#32] ∧
    asmLoadA ['0', '1'] = [.write 0x044#10 1#32, .write 0x040#10 0x30#32, .write 0x040#10 0x31#32] ∧
    asmSetCal 2#11 0x4000000000000000#64 0#64 = [.write 0x024#10 2#32, .write 0x028#10 0#32, .write 0x02C#10 0x40000000#32,
      .write 0x030#10 0#32, .write 0x034#10 0#32, .write 0x038#10 1#32] := by decide +kernel

/-- 70_reset_and_hazards.md R294: a program that ends with a poll has the block's own state at its end, and before its last
operation there is no end. -/
theorem test_run_end :
    (match step { hosted idle [.readUntil 0x004#10 1#32 0#32] 0 with synced := false } with
      | .next t => endBlock t
      | _ => none) = some idle ∧
    endBlock (hosted idle [.read 0x004#10] 0) = none := by decide +kernel

/-! ## Witnesses: states that meet the hypotheses of each statement -/

/-- An outcome is a next state that passes a check. -/
def reaches (o : Host.Outcome State Fault Refusal) (p : State → Bool) : Bool :=
  match o with
  | .next t => p t
  | _ => false

/-- A value that the hypothesis `Denotes` asks for. -/
theorem denotes_bits (x : OpBuf) (w : Nat) (v : BitVec w)
    (h : (x.bad = false ∧ x.count.toNat = w ∧ ∀ b, b < w → v.getLsbD b = x.bits.getLsbD (w - 1 - b))) : Denotes x w v := h

/-- A frame in OPA with its fields, for the statements about a whole frame. -/
def fields1 : Fields := frameFields (bits 121 frame1)

/-- A block whose commands find the lock, a bad symbol in OPA, and nothing else. -/
def misread : Block := { locked with opa := pushSymbol 0x32#32 OpBuf.empty }

/-- A pending command, with `n` host accesses before its completion. -/
def pendingState (w : Word) (ops : List HostOp) (n : Nat) : State :=
  hosted { idle with busy := true, pending := w, lastOp := w.extractLsb' 0 8 } ops n

theorem witness_EveryWordHasOneMeaning : decode 0x00000009#32 = .ok .clrSamples ∧
    (∃ e, decode 0x0000000A#32 = .error e) ∧ (∃ e, decode 0x00000100#32 = .error e) :=
  ⟨by decide, ⟨.reservedOpcode, by decide⟩, ⟨.reservedBits, by decide⟩⟩
theorem witness_StepRunsDecodedCommand :
    ((State.reset.withFetchWord 32 2).blk.busy = true ∧ (State.reset.withFetchWord 32 2).wait = 0 ∧
      decode (State.reset.withFetchWord 32 2).blk.pending = .ok .decodeId) ∧
    ((pendingState 9#32 [] 5).blk.busy = true ∧ (pendingState 9#32 [] 5).ops = [] ∧
      decode (pendingState 9#32 [] 5).blk.pending = .ok .clrSamples) := by decide
theorem witness_IssueLatchesCommand :
    regAt 0x000#10 = some .cmd ∧ (hosted idle [.write 0x000#10 3#32] 0).blk.busy = false ∧
    (pendingState 3#32 [.write 0x000#10 1#32] 1).blk.busy = true ∧ (pendingState 3#32 [.write 0x000#10 1#32] 1).wait ≠ 0 := by
  decide +kernel
theorem witness_IllegalWordEndsWithError :
    (0x0A ≤ (0x0000000A#32).toNat % 256) ∧ (0x0A ≤ (0x000000FF#32).toNat % 256) ∧ ((0x00000100#32).toNat / 256 ≠ 0) ∧
    (regAt 0x000#10 = some .cmd ∧ (hosted idle [.write 0x000#10 0x0A#32] 0).blk.busy = false) ∧
    ((pendingState 0x0A#32 [] 3).blk.busy = true ∧ (pendingState 0x0A#32 [] 3).ops = []) ∧
    (pendingState 0x100#32 [.read 0x004#10] 0).wait = 0 := by decide +kernel
theorem witness_ErrorsArePrecise :
    reaches (exec .decodeId State.reset) (fun t => decide (t.blk.err ≠ .ok)) = true ∧
    reaches (exec .processFrame State.reset) (fun t => decide (t.blk.err ≠ .ok)) = true := by decide +kernel
theorem witness_ResultsHaveTheirWriters :
    reaches (exec .parse (around { idle with opa := bits 121 frame1 })) (fun t => decide (t.blk.fields ≠ Fields.zero)) = true ∧
    reaches (exec .decodeId (around { locked with opa := bits 11 2 })) (fun t => decide (t.blk.resId ≠ 0#11)) = true ∧
    reaches (exec .decodeTs (around { idle with opa := bits 16 100 })) (fun t => decide (t.blk.resTs ≠ 0#64)) = true ∧
    reaches (exec .decodeData (around { idle with opa := bits 64 1 })) (fun t => decide (t.blk.resData ≠ 0#64)) = true ∧
    reaches (exec .verify (around { idle with opa := bits 64 0, opb := bits 15 0 })) (fun t => t.blk.resMatch) = true ∧
    reaches (exec .calibrate (around (measured 0x4000000000000000#64 0#64 0x3FF0000000000000#64)))
      (fun t => decide (t.blk.resCal ≠ 0#64)) = true ∧
    reaches (exec .processFrame (around (framed frame1))) (fun t => t.blk.readingValid) = true ∧
    reaches (exec .integrate (around (driven [0#64] [0#64] [0#64]))) (fun t => decide (t.blk.outLen ≠ 0#16)) = true ∧
    reaches (exec .clrSamples (around (driven [0#64] [0#64] [0#64]))) (fun t => decide (t.blk.spd.len ≠ 1#16)) = true := by
  decide +kernel
theorem witness_CompletionIgnoresInterleaving : reaches (exec .nop (pendingState 0#32 [] 0)) (fun _ => true) = true ∧
    reaches (exec .decodeTs (around { idle with opa := bits 16 100 })) (fun t => decide (t.blk.err = .ok)) = true := by
  decide +kernel
theorem witness_ParseSplitsFrame :
    (misread.opa.bad = true) ∧ ((bits 120 0).bad = false ∧ (bits 120 0).count.toNat ≠ 121) ∧
    ((bits 122 0).bad = false ∧ (bits 122 0).count.toNat ≠ 121) ∧
    ((bits 121 frame1).bad = false ∧ (bits 121 frame1).count.toNat = 121) := by decide +kernel
theorem witness_FieldsRebuildFrame : (bits 121 frame1).bad = false ∧ (bits 121 frame1).count.toNat = 121 := by decide +kernel
theorem witness_DecodeIdLooksUpSensor :
    (State.reset.blk.cfgLock = false) ∧ (misread.cfgLock = true ∧ misread.opa.bad = true) ∧
    (locked.cfgLock = true ∧ (bits 10 0).bad = false ∧ (bits 10 0).count.toNat ≠ 11) ∧
    (Denotes (bits 11 15) 11 15#11 ∧ locked.sensorCount.toNat ≤ (15#11).toNat) ∧
    (Denotes (bits 11 14) 11 14#11 ∧ (14#11).toNat < locked.sensorCount.toNat) := by unfold Denotes; decide +kernel
theorem witness_DecodeTsDividesByThousand :
    (misread.opa.bad = true) ∧ ((bits 15 0).bad = false ∧ (bits 15 0).count.toNat ≠ 16) ∧
    Denotes (bits 16 0) 16 0#16 ∧ Denotes (bits 16 65535) 16 65535#16 := by unfold Denotes; decide +kernel
theorem witness_DecodeDataCopiesPattern :
    (misread.opa.bad = true) ∧ ((bits 63 0).bad = false ∧ (bits 63 0).count.toNat ≠ 64) ∧
    Denotes (bits 64 0x7FF0000000000001) 64 0x7FF0000000000001#64 := by unfold Denotes; decide +kernel
theorem witness_VerifyComparesChecksum :
    (misread.opa.bad = true) ∧ ((bits 63 0).bad = false ∧ (bits 63 0).count.toNat ≠ 64) ∧
    (Denotes (bits 64 0x0A141E28323C4650) 64 0x0A141E28323C4650#64 ∧ (bits 14 0).count.toNat ≠ 15 ∧
      (bits 16 0).count.toNat ≠ 15) ∧
    ((bits 15 6960).count.toNat = 15 ∧ Denotes (bits 15 6960) 15 6960#15 ∧ (6960#15).toNat = chk 0x0A141E28323C4650#64) ∧
    ((pushSymbol 0x78#32 (bits 14 0)).count.toNat = 15 ∧ (pushSymbol 0x78#32 (bits 14 0)).bad = true) := by
  unfold Denotes; decide +kernel
theorem witness_VerdictIsSymbolComparison :
    Denotes (bits 64 0xFFFFFFFFFFFFFFFF) 64 0xFFFFFFFFFFFFFFFF#64 ∧ (bits 15 31620).count.toNat = 15 := by
  unfold Denotes; decide +kernel
theorem witness_SingleBitFlipIsDetected :
    ([5, 7, 11, 13, 17, 19, 23, 29][7]? = some 29 ∧ (7 : Nat) < 8) ∧
    ((0 : Nat) < 64 ∧ Denotes (bits 64 0x0A141E28323C4651) 64 (0x0A141E28323C4650#64 ^^^ (1#64 <<< 0)) ∧
      Denotes (bits 15 6960) 15 6960#15 ∧ (6960#15).toNat = chk 0x0A141E28323C4650#64) ∧
    ((63 : Nat) < 64 ∧ Denotes (bits 64 0x8A141E28323C4650) 64 (0x0A141E28323C4650#64 ^^^ (1#64 <<< 63))) := by
  unfold Denotes; decide +kernel
theorem witness_CalibrateSubtractsThenScales :
    (idle.cfgLock = false) ∧ (locked.cfgLock = true ∧ ¬ HasCalibration locked locked.calIdIn) ∧
    (¬ HasCalibration { locked with calIdIn := 16#11 } 16#11) ∧
    ((measured 0#64 0#64 0#64).cfgLock = true ∧ HasCalibration (measured 0#64 0#64 0#64) (measured 0#64 0#64 0#64).calIdIn) := by
  unfold HasCalibration; decide +kernel
theorem witness_BiasMapsToZero :
    let b := measured 0xC000000000000000#64 0x3FF0000000000000#64 0x3FF0000000000000#64
    b.cfgLock = true ∧ HasCalibration b b.calIdIn ∧ b.raw = (calGet b.cal b.calIdIn.toNat).b ∧ f64IsFinite b.raw = true ∧
      f64IsFinite (calGet b.cal b.calIdIn.toNat).w = true := by unfold HasCalibration; decide +kernel
theorem witness_CalibrationHasNoHistory :
    let b := measured 0x4000000000000000#64 0#64 0x3FF0000000000000#64
    let c := { b with resCal := 7#64 }
    b.cfgLock = true ∧ c.cfgLock = true ∧ HasCalibration b b.calIdIn ∧ c.calIdIn = b.calIdIn ∧ c.raw = b.raw ∧
      c.calDepth = b.calDepth ∧ calGet c.cal b.calIdIn.toNat = calGet b.cal b.calIdIn.toNat := by
  unfold HasCalibration; decide +kernel
theorem witness_ProcessFrameFollowsPipeline :
    (idle.cfgLock = false) ∧ (misread.cfgLock = true ∧ misread.opa.bad = true) ∧
    (locked.cfgLock = true ∧ locked.opa.bad = false ∧ locked.opa.count.toNat ≠ 121) ∧
    ((framed frame1).cfgLock = true ∧ (framed frame1).opa.bad = false ∧ (framed frame1).opa.count.toNat = 121) := by
  decide +kernel
theorem witness_ProcessFrameFollowsPipeline_fields : FieldsAre fields1 (framed frame1).opa.bits ∧
    (fields1.id.toNat < (framed frame1).sensorCount.toNat ∧ fields1.crc.toNat = chk fields1.data ∧
      HasCalibration (framed frame1) fields1.id) := by
  unfold FieldsAre FieldAt HasCalibration; decide +kernel
theorem witness_ProcessFrameFollowsPipeline_unknown :
    let f := frameFields (bits 121 (frame1 + 13 * 2 ^ 109))
    FieldsAre f (bits 121 (frame1 + 13 * 2 ^ 109)).bits ∧ locked.sensorCount.toNat ≤ f.id.toNat ∧ f.id = 15#11 := by
  unfold FieldsAre FieldAt; decide +kernel
theorem witness_ProcessFrameFollowsPipeline_uncalibrated :
    let f := frameFields (bits 121 (frame1 + 2 ^ 109))
    FieldsAre f (bits 121 (frame1 + 2 ^ 109)).bits ∧ f.id.toNat < locked.sensorCount.toNat ∧ f.crc.toNat = chk f.data ∧
      ¬ HasCalibration (framed frame1) f.id := by
  unfold FieldsAre FieldAt HasCalibration; decide +kernel
theorem witness_ProcessFrameFollowsPipeline_mismatch :
    let f := frameFields (bits 121 (frame1 + 2 ^ 22))
    FieldsAre f (bits 121 (frame1 + 2 ^ 22)).bits ∧ f.id.toNat < locked.sensorCount.toNat ∧ f.crc.toNat ≠ chk f.data := by
  unfold FieldsAre FieldAt; decide +kernel
theorem witness_PipelineMatchesCommands :
    reaches (exec .processFrame (around (framed frame1))) (fun t => decide (t.blk.err = .ok ∧ t.blk.fields.id = 2#11 ∧
      t.blk.fields.ts = 100#16 ∧ t.blk.fields.data = 0x0A141E28323C4650#64 ∧ t.blk.fields.crc = 6960#15 ∧
      t.blk.readingValid = true ∧ t.blk.resId = 2#11)) = true ∧
    Denotes (bits 11 2) 11 2#11 ∧ Denotes (bits 16 100) 16 100#16 ∧
    Denotes (bits 64 0x0A141E28323C4650) 64 0x0A141E28323C4650#64 ∧ Denotes (bits 15 6960) 15 6960#15 ∧
    ((bits 15 0).count.toNat ≠ 16 ∧ (bits 63 0).count.toNat ≠ 64 ∧ (bits 10 0).count.toNat ≠ 11 ∧ locked.cfgLock = true) := by
  unfold Denotes; decide +kernel
theorem witness_IntegrateDeadReckons :
    ((driven [0#64] [] [0#64]).tim.len ≠ (driven [0#64] [] [0#64]).spd.len) ∧
    ((driven [0#64] [0#64] []).tim.len = (driven [0#64] [0#64] []).spd.len ∧
      (driven [0#64] [0#64] []).ang.len ≠ (driven [0#64] [0#64] []).spd.len) ∧
    (let b := { driven [0#64, 0#64] [0#64, 0#64] [0#64, 0#64] with sampleDepth := 1#16 }
     b.tim.len = b.spd.len ∧ b.ang.len = b.spd.len ∧ b.sampleDepth.toNat < b.spd.len.toNat) ∧
    SamplesAligned idle ∧ SamplesAligned { driven [0#64] [0#64] [0#64] with sampleDepth := 1#16 } := by
  unfold SamplesAligned; decide +kernel
/-- The headings of one sample of angle 0, for the statement about zero speeds. -/
def headings1 : Nat → F64
  | 0 => 0#64
  | _ + 1 => fadd 0 0#64 (fmul 0 0#64 0x3F91DF46A2529D39#64)
theorem witness_ZeroSpeedStaysAtOrigin :
    let b := driven [0x8000000000000000#64] [0x4014000000000000#64] [0#64]
    SamplesAligned b ∧ HeadingsOf b b.spd.len.toNat headings1 ∧
    (∀ i, i < b.spd.len.toNat → f64IsZero (Memory.read .smSpd b.spd.mem i) = true) ∧
    (∀ i, i < b.spd.len.toNat → f64IsFinite (Memory.read .smTim b.tim.mem i) = true ∧ f64IsFinite (headings1 (i + 1)) = true) := by
  refine ⟨⟨rfl, rfl, by decide +kernel⟩, ⟨rfl, fun i hi => ?_⟩, ?_, ?_⟩
  · have : i = 0 := Nat.lt_one_iff.1 hi
    subst this
    exact ⟨0, 0, rfl⟩
  · decide +kernel
  · decide +kernel
/-- A finite time, then an infinite one: the first sample is under the first clause and the second under the other. -/
theorem witness_ZeroSpeedStaysAtOrigin_infinite :
    let b := driven [0#64, 0#64] [0#64, 0x7FF0000000000000#64] [0#64, 0#64]
    (1 : Nat) < b.spd.len.toNat ∧ f64IsFinite (Memory.read .smTim b.tim.mem 0) = true ∧
    f64IsFinite (Memory.read .smTim b.tim.mem 1) = false := by decide +kernel
theorem witness_IntegrateIsRepeatable :
    reaches (exec .integrate (around (driven [0#64] [0#64] [0#64]))) (fun t => decide (t.blk.err = .ok)) = true := by
  decide +kernel
/-- A run whose heading is a NaN is under the statement too. -/
theorem witness_IntegrateIsRepeatable_nan : ∃ t,
    exec .integrate (around (driven [0#64] [0#64] [0x7FF8000000000000#64])) = .next t ∧ t.blk.err = .ok ∧
    f64IsNaN t.blk.theta = true := by
  have aligned : SamplesAligned (around (driven [0#64] [0#64] [0x7FF8000000000000#64])).blk := ⟨rfl, rfl, by decide +kernel⟩
  refine ⟨_, execIntegrate_ok aligned, rfl, ?_⟩
  have h : ∀ k, fadd k 0#64 (nanResult 0) = nanResult k := fun k => by
    rw [fadd, if_pos (by rw [nanResult_isNaN, Bool.or_true])]
  show f64IsNaN (fadd 3 0#64 (nanResult 0)) = true
  rw [h]
  exact nanResult_isNaN 3
theorem witness_SingleSampleExample :
    let b := driven [0x40AC200000000000#64] [0x408F400000000000#64] [0#64]
    b.spd.len = 1#16 ∧ b.tim.len = 1#16 ∧ b.ang.len = 1#16 ∧ 1 ≤ b.sampleDepth.toNat ∧
    Table.get? b.spd.mem 0 = some 0x40AC200000000000#64 ∧ Table.get? b.tim.mem 0 = some 0x408F400000000000#64 ∧
    Table.get? b.ang.mem 0 = some 0#64 := by decide +kernel
theorem witness_FaddRoundsOnce :
    (f64IsFinite 0x3FF0000000000000#64 = true ∧ f64IsFinite (fadd 0 0x3FF0000000000000#64 0x0000000000000001#64) = true ∧
      f64Int 0x3FF0000000000000#64 + f64Int 0x0000000000000001#64 ≠ 0) ∧
    (f64IsFinite (fadd 0 0x3FF0000000000000#64 0xBFF0000000000000#64) = true ∧
      f64Int 0x3FF0000000000000#64 + f64Int 0xBFF0000000000000#64 = 0) := by decide +kernel
theorem witness_FmulRoundsOnce : f64IsFinite 0x3FB999999999999A#64 = true ∧
    f64IsFinite (fmul 0 0x3FB999999999999A#64 0xBFB999999999999A#64) = true := by decide +kernel
theorem witness_FdivRoundsOnce : f64IsFinite 0x3FF0000000000000#64 = true ∧ f64IsZero 0xC008000000000000#64 = false ∧
    f64IsFinite (fdiv 0 0x3FF0000000000000#64 0xC008000000000000#64) = true := by decide +kernel
theorem witness_OverflowGoesToInfinity : f64IsFinite 0x7FEFFFFFFFFFFFFF#64 = true ∧
    f64IsInf (fadd 0 0x7FEFFFFFFFFFFFFF#64 0x7FEFFFFFFFFFFFFF#64) = true ∧
    f64IsInf (fadd 0 0x7FEFFFFFFFFFFFFF#64 0x7C90000000000000#64) = true ∧
    f64IsInf (fadd 0 0x7FEFFFFFFFFFFFFF#64 0x7C8FFFFFFFFFFFFF#64) = false := by decide +kernel
theorem witness_NanResultsAreQuiet :
    f64IsNaN (fsub 0 0x7FF0000000000000#64 0x7FF0000000000000#64) = true ∧ f64IsNaN (fmul 0 0#64 0x7FF0000000000000#64) = true := by
  have hs : fsub 0 0x7FF0000000000000#64 0x7FF0000000000000#64 = nanResult 0 := by
    rw [fsub, fadd, if_neg (by decide), if_pos (by decide), if_pos (by decide)]
  have hm : fmul 0 0#64 0x7FF0000000000000#64 = nanResult 0 := by
    rw [fmul, if_neg (by decide), if_pos (by decide), if_pos (by decide)]
  rw [hs, hm]
  exact ⟨nanResult_isNaN 0, nanResult_isNaN 0⟩
theorem witness_CosineAndSineAreAdmissible : f64IsFinite 0x7FF0000000000000#64 = false ∧
    f64IsFinite 0x400921FB54442D18#64 = true := by decide
theorem witness_BusyWritesAreDropped : (pendingState 3#32 [.write 0x3FC#10 0#32] 1).blk.busy = true ∧
    (pendingState 3#32 [.write 0x3FC#10 0#32] 1).wait ≠ 0 := by decide
theorem witness_ReadsChangeNothing : (hosted idle [.read 0x004#10] 0).blk.busy = false ∧
    (pendingState 3#32 [.read 0x004#10] 1).wait ≠ 0 := by decide
theorem witness_SpinWaitEndsOnMatch :
    hostReadValue 0x004#10 (hosted idle [.readUntil 0x004#10 1#32 0#32] 0) &&& 1#32 = 0#32 ∧
    hostReadValue 0x004#10 (pendingState 3#32 [.readUntil 0x004#10 1#32 0#32] 1) &&& 1#32 ≠ 0#32 := by decide +kernel
theorem witness_StatusReadsInEitherPhase : 0x007#10 &&& 0x3FC#10 = 0x004#10 ∧ 0x00C#10 &&& 0x3FC#10 = 0x00C#10 ∧
    0x013#10 &&& 0x3FC#10 = 0x010#10 ∧ 0x200#10 &&& 0x3FC#10 = 0x200#10 ∧
    0x204#10 &&& 0x3FC#10 = BitVec.ofNat 10 (0x204 + 4 * (0 : Fin 14).val) ∧
    0x23B#10 &&& 0x3FC#10 = BitVec.ofNat 10 (0x204 + 4 * (13 : Fin 14).val) := by decide
theorem witness_RegisterMapIsClosed : regAt 0x003#10 = some .cmd ∧ regAt 0x23C#10 = none ∧
    State.reset.blk.busy = false ∧ (pendingState 3#32 [] 0).blk.busy = true := by
  decide +kernel
theorem witness_AccessColumnHolds : ⟨0x004, .status, .ro⟩ ∈ regMap ∧ regAt 0x004#10 = some .status ∧
    ⟨0x000, .cmd, .wo⟩ ∈ regMap ∧ regAt 0x000#10 = some .cmd ∧ (hosted idle [.write 0x004#10 1#32] 0).blk.busy = false := by
  decide +kernel
theorem witness_IdleRegistersRead : State.reset.blk.busy = false ∧
    ({ idle with calIdx := 15#11 }.calIdx.toNat < { idle with calIdx := 15#11 }.calDepth.toNat) ∧
    ({ idle with calIdx := 16#11 }.calDepth.toNat ≤ { idle with calIdx := 16#11 }.calIdx.toNat) := by decide
/-- For PushAppendsSymbol, ClearEmptiesBuffer, AppendStoresSample, ControlWritesFollowRules and OperandWritesStoreBits: an idle
block whose host writes, and the offset of every register they name. -/
theorem witness_host_writes : (hosted idle [.write 0x000#10 0#32] 0).blk.busy = false ∧
    ∀ r ∈ [Reg.opaSym, .opbSym, .opaCtl, .opbCtl, .spdLo, .timLo, .angLo, .spdHi, .timHi, .angHi, .ctrl, .statusClr, .calIdIn,
      .calIdx, .outIdx, .rawLo, .rawHi, .sensorCount, .calWLo, .calWHi, .calBLo, .calBHi, .calValid], regAt (regOffset r) = some r := by
  decide +kernel
theorem witness_PushedStringIsBigEndian : (128 ≤ 128 ∧ 2 ^ 128 - 1 < 2 ^ 128) ∧ (0 ≤ 128 ∧ 0 < 2 ^ 0) := by decide
theorem witness_SensorCountWrites : regAt 0x020#10 = some .sensorCount ∧ (hosted idle [.write 0x020#10 2049#32] 0).blk.cfgLock = false ∧
    (hosted locked [.write 0x020#10 20#32] 0).blk.cfgLock = true := by decide +kernel
theorem witness_CalibrationRegisterWrites : regAt 0x028#10 = some .calWLo ∧
    ({ locked with calIdx := 15#11 }.calIdx.toNat < { locked with calIdx := 15#11 }.calDepth.toNat ∧ locked.cfgLock = true) ∧
    ({ idle with calIdx := 16#11 }.calDepth.toNat ≤ { idle with calIdx := 16#11 }.calIdx.toNat ∧ idle.cfgLock = false) ∧
    ({ locked with calIdx := 16#11 }.calDepth.toNat ≤ { locked with calIdx := 16#11 }.calIdx.toNat) ∧
    ({ idle with calIdx := 15#11 }.calIdx.toNat < { idle with calIdx := 15#11 }.calDepth.toNat) ∧
    (regAt 0x02C#10 = some .calWHi ∧ regAt 0x028#10 ≠ some .calWHi) := by decide +kernel
theorem witness_WindowReadsSelectedEntry :
    let b := { idle with outLen := 1#16, xm := [(0, 1#64)], ym := [(0, 2#64)] }
    b.busy = false ∧ b.outIdx.toNat < b.outLen.toNat ∧ Table.get? b.xm b.outIdx.toNat = some 1#64 ∧
      Table.get? b.ym b.outIdx.toNat = some 2#64 ∧ regAt 0x12C#10 = some .xLo ∧ regAt 0x138#10 = some .yHi := by decide +kernel
theorem witness_ResetSetsEveryElement : (hosted locked [.reset] 0).blk.busy = false ∧ (pendingState 8#32 [.reset] 1).wait ≠ 0 := by
  decide
theorem witness_LockHoldsUntilReset : (locked.cfgLock = true) ∧
    reaches (step (hosted locked [.write 0x028#10 1#32] 0)) (fun t => t.blk.cfgLock) = true ∧
    reaches (step (hosted locked [.reset] 0)) (fun t => !t.blk.cfgLock) = true := by decide +kernel
theorem witness_CommandsCompleteAndRunsEnd :
    ((pendingState 8#32 [.read 0x004#10] 3).blk.busy = true ∧ (pendingState 8#32 [.read 0x004#10] 3).ops ≠ []) ∧
    (regAt 0x000#10 = some .cmd ∧ regAt 0x004#10 = some .status ∧ (hosted idle [.write 0x000#10 8#32] 0).blk.busy = false) ∧
    (State.reset.ops = [] ∧ State.reset.synced = true) ∧
    ((State.reset.withFetchWord 32 1).ops = [] ∧ (State.reset.withFetchWord 32 1).synced = false ∧
      decode (State.reset.withFetchWord 32 1).blk.pending = .ok .parse) := by decide +kernel

/-- A block with something in it, for the invariant: one calibration entry, a bad symbol in OPA, one sample. -/
def filled : Block :=
  { Block.reset 1#12 1#16 with
    cal := [(0, ⟨1#64, 0#64, true⟩)]
    opa := pushSymbol 0x78#32 OpBuf.empty
    spd := { mem := [(0, 5#64)], len := 2#16, latch := 0#32 } }
theorem witness_StepKeepsInvariant : State.Inv (around filled) ∧ step (around filled) = .next (around filled) := by
  refine ⟨?_, rfl⟩
  have seq : SequenceInv 1 SampleSeq.empty :=
    ⟨⟨by decide, fun p hp => nomatch hp⟩, fun i hi => by simp [SampleSeq.empty] at hi⟩
  exact {
    calDepth := by decide
    sampleDepth := by decide
    sensorCount := by decide
    cal := ⟨by decide, by decide⟩
    opa := pushSymbol_keeps _ bufferInv_empty
    opb := bufferInv_empty
    spd := ⟨⟨by decide, by decide⟩, fun i _ h1 => by have h1 : i < 1 := h1; interval_cases i; rfl⟩
    tim := seq
    ang := seq
    out := ⟨⟨by decide, fun p hp => nomatch hp⟩, ⟨by decide, fun p hp => nomatch hp⟩, by decide,
      fun i hi => absurd hi (Nat.not_lt_zero i)⟩
    status := ⟨fun h => (nomatch h), by decide, fun _ _ => ⟨rfl, rfl, rfl⟩, by decide, by decide, rfl⟩ }

end Sys2Proof.Tests
end

section
/-! The reads of the layout registers (10_state.md R45): each is a read that BUSY does not free (20_memory.md R76), at the
offset the register map gives it. -/
namespace Sys2Proof.Machine

/-- The registers of R76 answer with their value in either phase: no read of them is a draw. -/
theorem hostReadValue_of_readsWhileBusy {o : Offset} {r : Reg} (hr : regAt o = some r) (hb : readsWhileBusy r = true)
    (s : State) : hostReadValue o s = readReg s.draws r s.blk := by
  simp [hostReadValue, hr, hb]

theorem regAt_layoutTotal : regAt 0x200#10 = some .layoutTotal := by decide +kernel

theorem regAt_layout (j : Fin 14) : regAt (BitVec.ofNat 10 (0x204 + 4 * j.val)) = some (.layout j) := by
  revert j
  decide +kernel

theorem hostReadValue_layoutTotal (s : State) : hostReadValue 0x200#10 s = 121#32 :=
  hostReadValue_of_readsWhileBusy regAt_layoutTotal rfl s

theorem hostReadValue_layout (j : Fin 14) (s : State) :
    hostReadValue (BitVec.ofNat 10 (0x204 + 4 * j.val)) s = layoutWord j.val :=
  hostReadValue_of_readsWhileBusy (regAt_layout j) rfl s

/-- The fields of R95, packed as R45 packs them. -/
theorem layoutWords_printed : (List.range 14).map layoutWord =
    [0x00000001#32, 0x0000010B#32, 0x00000C01#32, 0x00000D01#32, 0x00000E01#32, 0x00000F04#32, 0x00001310#32,
     0x00002340#32, 0x0000630F#32, 0x00007201#32, 0x00007301#32, 0x00007401#32, 0x00007501#32, 0x00007603#32] := by
  decide

/-- Settles O42: the layout registers read the same in either phase, and their words are the printed ones. -/
theorem layoutReadsAsPrinted : Obligations.LayoutReadsAsPrinted := by
  intro s
  have hread : ∀ j ∈ List.range 14, hostReadValue (BitVec.ofNat 10 (0x204 + 4 * j)) s = layoutWord j :=
    fun j hj => hostReadValue_layout ⟨j, List.mem_range.mp hj⟩ s
  exact ⟨hostReadValue_layoutTotal s, (List.map_congr_left hread).trans layoutWords_printed⟩

end Sys2Proof.Machine
end

section
/-! The register map as a map (10_state.md R23, 20_memory.md R61, R62): an offset reaches a register exactly where its bits 9:2
are the register's, and an access uses nothing else of the offset. -/
namespace Sys2Proof.Machine

/-- Every row's register has the row's offset. -/
theorem regOffset_of_mem_regMap : ∀ row ∈ regMap, regOffset row.reg = BitVec.ofNat 10 row.offset := by decide +kernel

theorem findReg_some {o : Nat} {rows : List RegRow} {r : Reg} (h : findReg o rows = some r) :
    ∃ row ∈ rows, row.offset = o ∧ row.reg = r := by
  induction rows with
  | nil => cases h
  | cons row rest ih =>
    rw [findReg] at h
    split at h
    · next ho => exact ⟨row, List.mem_cons_self, ho, Option.some.inj h⟩
    · obtain ⟨row', hmem, hrow⟩ := ih h
      exact ⟨row', List.mem_cons_of_mem row hmem, hrow⟩

theorem regAt_regOffset (r : Reg) : regAt (regOffset r) = some r := by
  cases r
  case layout j => exact regAt_layout j
  all_goals rfl

/-- Offset bits 1:0 do not select (R61). -/
theorem regAt_masked (o : Offset) : regAt (o &&& 0x3FC#10) = regAt o := by
  rw [regAt, regAt, BitVec.and_assoc, BitVec.and_self]

theorem regAt_eq_some_iff {o : Offset} {r : Reg} : regAt o = some r ↔ o &&& 0x3FC#10 = regOffset r := by
  constructor
  · intro h
    obtain ⟨row, hmem, ho, rfl⟩ := findReg_some h
    rw [regOffset_of_mem_regMap row hmem, ho, BitVec.ofNat_toNat, BitVec.setWidth_eq]
  · intro h
    rw [← regAt_masked, h, regAt_regOffset]

theorem hostReadValue_of_regAt_eq {o p : Offset} (h : regAt o = regAt p) (s : State) :
    hostReadValue o s = hostReadValue p s := by
  simp only [hostReadValue, h]

theorem hostWrite_of_regAt_eq {o p : Offset} (h : regAt o = regAt p) (v : Word) (s : State) :
    hostWrite o v s = hostWrite p v s := by
  simp only [hostWrite, idleWrite, h]

theorem hostReadValue_reserved {o : Offset} (h : regAt o = none) (s : State) : hostReadValue o s = 0#32 := by
  simp [hostReadValue, h]

theorem idleWrite_reserved {o : Offset} (h : regAt o = none) (v : Word) (s : State) : idleWrite o v s = s := by
  simp [idleWrite, h]

theorem hostWrite_busy {s : State} (hb : s.blk.busy = true) (o : Offset) (v : Word) : hostWrite o v s = dropWrite s := by
  simp [hostWrite, hb]

theorem hostWrite_idle {s : State} (hb : s.blk.busy = false) (o : Offset) (v : Word) :
    hostWrite o v s = idleWrite o v s := by
  simp [hostWrite, hb]

/-- Settles O43: the masked offset reaches the same register. -/
theorem lowOffsetBitsIgnored : Obligations.LowOffsetBitsIgnored := fun o s v =>
  ⟨hostReadValue_of_regAt_eq (regAt_masked o).symm s, hostWrite_of_regAt_eq (regAt_masked o).symm v s⟩

/-- Settles O44: `regOffset` and `regAt` invert each other on word offsets, and an offset outside their range is reserved. -/
theorem registerMapIsClosed : Obligations.RegisterMapIsClosed := by
  refine ⟨regAt_regOffset, fun o r => regAt_eq_some_iff.mp, ?printed, fun o s v h => ?reserved⟩
  case printed =>
    exact ⟨regAt_regOffset .cmd, regAt_regOffset .statusClr, regAt_regOffset .opaSym, regAt_regOffset .opaCtl,
      regAt_regOffset .opbSym, regAt_regOffset .opbCtl, regAt_regOffset .spdLo, regAt_regOffset .spdHi,
      regAt_regOffset .timLo, regAt_regOffset .timHi, regAt_regOffset .angLo, regAt_regOffset .angHi,
      regAt_regOffset .xLo, regAt_regOffset .xHi, regAt_regOffset .yLo, regAt_regOffset .yHi⟩
  case reserved =>
    exact ⟨hostReadValue_reserved h s, fun hb => (hostWrite_idle hb o v).trans (idleWrite_reserved h v s),
      fun hb => hostWrite_busy hb o v⟩

theorem ctrlWord_eq (b : Block) : ctrlWord b = if b.cfgLock then 1#32 else 0#32 := by
  cases h : b.cfgLock <;> simp [ctrlWord, h]

/-- Settles O40: the masked offset names the register, whose reads BUSY does not free. -/
theorem statusReadsInEitherPhase : Obligations.StatusReadsInEitherPhase := by
  intro s o
  have hread : ∀ r : Reg, readsWhileBusy r = true → o &&& 0x3FC#10 = regOffset r →
      hostReadValue o s = readReg s.draws r s.blk :=
    fun r hr ho => hostReadValue_of_readsWhileBusy (regAt_eq_some_iff.mpr ho) hr s
  exact ⟨hread .status rfl, hread .params rfl, fun ho => (hread .ctrl rfl ho).trans (ctrlWord_eq s.blk),
    hread .layoutTotal rfl, fun j => hread (.layout j) rfl⟩

end Sys2Proof.Machine
end

section
/-! The host's writes to the control and operand registers (20_memory.md R69, R72, R73, R77). Each claim is about one step, the
host's; `step_idle_write` gives that step once for every register but CMD. -/
namespace Sys2Proof.Machine

/-- Settles O37: the host moves, and its write is dropped. -/
theorem busyWritesAreDropped : Obligations.BusyWritesAreDropped := by
  intro s o v rest ho hb hw
  have hdrop : hostStep (.write o v) rest s = dropWrite (takeOp rest s) := hostWrite_busy (s := takeOp rest s) hb o v
  exact ⟨_, step_host (.inr hw) ho, by simp [hdrop]⟩

/-- A host's write to an idle block is one step, whose effect on the block is `writeReg` at any register but CMD. -/
theorem step_idle_write {s : State} {o : Offset} {v : Word} {rest : List HostOp} (ho : s.ops = .write o v :: rest)
    (hb : s.blk.busy = false) :
    ∃ t, step s = .next t ∧ ∀ r, r ≠ .cmd → regAt o = some r → t.blk = writeReg r v s.blk := by
  have hstep := step_host (.inl hb) ho
  refine ⟨_, hstep, fun r hc hr => ?_⟩
  have hnext := hstep.symm.trans (step_write hb ho hr hc)
  rw [Host.Outcome.next.inj hnext]

/-- Bits `n`-1:0 of a word are its value at width `n`. -/
theorem extractLsb'_zero_eq_ofNat (n : Nat) (v : Word) : v.extractLsb' 0 n = BitVec.ofNat n v.toNat := by
  rw [BitVec.extractLsb', Nat.shiftRight_zero]

theorem writeReg_ctrl (v : Word) (b : Block) :
    writeReg .ctrl v b = if v.getLsbD 0 then { b with cfgLock := true } else b := by
  simp only [writeReg]
  cases h : v.getLsbD 0
  · rw [Bool.or_false]; rfl
  · rw [Bool.or_true]; rfl

/-- Settles O51: CTRL ors bit 0 into the lock; STATUS_CLR is `clearSticky`. -/
theorem controlWritesFollowRules : Obligations.ControlWritesFollowRules := by
  intro s o v rest ho hb
  obtain ⟨t, hstep, hblk⟩ := step_idle_write ho hb
  exact ⟨t, hstep, fun hr => (hblk .ctrl (by decide) hr).trans (writeReg_ctrl v s.blk), hblk .statusClr (by decide)⟩

/-- Settles O52: each of these registers holds the written bits of its field. -/
theorem operandWritesStoreBits : Obligations.OperandWritesStoreBits := by
  intro s o v rest ho hb
  obtain ⟨t, hstep, hblk⟩ := step_idle_write ho hb
  rw [← extractLsb'_zero_eq_ofNat 11 v, ← extractLsb'_zero_eq_ofNat 16 v]
  exact ⟨t, hstep, hblk .calIdIn (by decide), hblk .calIdx (by decide), hblk .outIdx (by decide),
    hblk .rawLo (by decide), hblk .rawHi (by decide)⟩

theorem writeReg_opaCtl (v : Word) (b : Block) :
    writeReg .opaCtl v b = if v.getLsbD 0 then { b with opa := OpBuf.empty } else b := by
  simp only [writeReg, clearBuffer]
  split <;> rfl

theorem writeReg_opbCtl (v : Word) (b : Block) :
    writeReg .opbCtl v b = if v.getLsbD 0 then { b with opb := OpBuf.empty } else b := by
  simp only [writeReg, clearBuffer]
  split <;> rfl

/-- Settles O49: the written word's bit 0 decides between the empty buffer and the buffer as it stood. -/
theorem clearEmptiesBuffer : Obligations.ClearEmptiesBuffer := by
  intro s o v rest ho hb
  obtain ⟨t, hstep, hblk⟩ := step_idle_write ho hb
  exact ⟨fun hr => ⟨t, hstep, (hblk .opaCtl (by decide) hr).trans (writeReg_opaCtl v s.blk)⟩,
    fun hr => ⟨t, hstep, (hblk .opbCtl (by decide) hr).trans (writeReg_opbCtl v s.blk)⟩⟩

end Sys2Proof.Machine
end

section
/-! Symbol pushes and sample appends (20_memory.md R68, R70, R71): what one of them makes of its buffer or sequence, and the
host's step that does it. Both count with a 16-bit counter that stays at 0xFFFF. -/
namespace Sys2Proof.Machine

theorem saturating_succ_toNat (c : BitVec 16) :
    (if c ≠ 0xFFFF#16 then c + 1#16 else c).toNat = min (c.toNat + 1) 0xFFFF := by
  split
  · bv_omega
  · next h => rw [not_not.mp h]; decide

theorem pushedByte_toNat (v : Word) : (v.extractLsb' 0 8).toNat = v.toNat % 256 := by
  rw [BitVec.extractLsb'_toNat, Nat.shiftRight_zero]

theorem pushedByte_eq_iff (v : Word) (c : Symbol) : v.extractLsb' 0 8 = c ↔ v.toNat % 256 = c.toNat := by
  rw [BitVec.toNat_eq, pushedByte_toNat]

theorem pushSymbol_bits (v : Word) (x : OpBuf) {k : Nat} (hk : k < 128) :
    (pushSymbol v x).bits.getLsbD k =
      if k = x.count.toNat then decide (v.toNat % 256 = 0x31) else x.bits.getLsbD k := by
  simp only [pushSymbol, pushedByte_eq_iff]
  split
  · next hpos => exact setBit_getLsbD _ _ _ hpos k
  · next hpos => rw [if_neg (by omega)]

theorem pushSymbol_bad (v : Word) (x : OpBuf) :
    if v.toNat % 256 ≠ 0x30 ∧ v.toNat % 256 ≠ 0x31 ∧ x.bad = false
    then (pushSymbol v x).bad = true ∧ (pushSymbol v x).badSym.toNat = v.toNat % 256 ∧ (pushSymbol v x).badPos = x.count
    else (pushSymbol v x).bad = x.bad ∧ (pushSymbol v x).badSym = x.badSym ∧ (pushSymbol v x).badPos = x.badPos := by
  simp only [pushSymbol, ne_eq, pushedByte_eq_iff, BitVec.reduceToNat]
  split
  · exact ⟨rfl, pushedByte_toNat v, rfl⟩
  · exact ⟨rfl, rfl, rfl⟩

theorem pushSymbol_pushedOnto (v : Word) (x : OpBuf) : PushedOnto v x (pushSymbol v x) :=
  ⟨saturating_succ_toNat x.count, fun _ hk => pushSymbol_bits v x hk, pushSymbol_bad v x⟩

/-- Settles O47: a push of either buffer is `pushSymbol`, and touches that buffer alone. -/
theorem pushAppendsSymbol : Obligations.PushAppendsSymbol := by
  intro s o v rest ho hb
  obtain ⟨t, hstep, hblk⟩ := step_idle_write ho hb
  exact ⟨fun hr => ⟨t, hstep, hblk .opaSym (by decide) hr ▸ ⟨rfl, pushSymbol_pushedOnto v s.blk.opa⟩⟩,
    fun hr => ⟨t, hstep, hblk .opbSym (by decide) hr ▸ ⟨rfl, pushSymbol_pushedOnto v s.blk.opb⟩⟩⟩

theorem appendSample_mem (d : BitVec 16) (v : Word) (q : SampleSeq) :
    (appendSample d v q).mem =
      if q.len.toNat < d.toNat then Memory.write q.mem q.len.toNat (join64 v q.latch) else q.mem := rfl

theorem appendSample_other (d : BitVec 16) (v : Word) (q : SampleSeq) {i : Nat} (hi : i ≠ q.len.toNat) :
    Table.get? (appendSample d v q).mem i = Table.get? q.mem i := by
  rw [appendSample_mem]
  split
  · exact Table.get?_put_other q.mem _ hi
  · rfl

theorem appendSample_entry (d : BitVec 16) (v : Word) (q : SampleSeq) :
    if q.len.toNat < d.toNat then Table.get? (appendSample d v q).mem q.len.toNat = some (v ++ q.latch)
    else Table.get? (appendSample d v q).mem q.len.toNat = Table.get? q.mem q.len.toNat := by
  rw [appendSample_mem]
  split
  · exact Table.get?_put_same q.mem _ _
  · rfl

theorem appendSample_appendedTo (d : BitVec 16) (v : Word) (q : SampleSeq) :
    AppendedTo d.toNat v q (appendSample d v q) :=
  ⟨rfl, saturating_succ_toNat q.len, fun _ hi => appendSample_other d v q hi, appendSample_entry d v q⟩

/-- Settles O50: each _LO write is a record update of its latch, each _HI write is `appendSample` of its sequence. -/
theorem appendStoresSample : Obligations.AppendStoresSample := by
  intro s o v rest ho hb
  obtain ⟨t, hstep, hblk⟩ := step_idle_write ho hb
  have happ := appendSample_appendedTo s.blk.sampleDepth v
  exact ⟨t, hstep, hblk .spdLo (by decide), hblk .timLo (by decide), hblk .angLo (by decide),
    fun hr => hblk .spdHi (by decide) hr ▸ ⟨rfl, happ s.blk.spd⟩,
    fun hr => hblk .timHi (by decide) hr ▸ ⟨rfl, happ s.blk.tim⟩,
    fun hr => hblk .angHi (by decide) hr ▸ ⟨rfl, happ s.blk.ang⟩⟩

end Sys2Proof.Machine
end

section
/-! Command words (30_encoding.md R91, R92, R93): the opcode map gives each command the whole word that `encode` builds, so a word
is a command's exactly where its number is below 0x0A. -/
namespace Sys2Proof

/-- Every row compares the whole word with its command's word. -/
theorem opcodeMap_row : ∀ row ∈ opcodeMap, row.pattern = encode row.instr ∧ row.mask = BitVec.allOnes 32 := by decide

theorem opcodeMap_covers : ∀ n < 0x0A, ∃ row ∈ opcodeMap, row.pattern = BitVec.ofNat 32 n := by decide

theorem findRow_some {w : Word} {rows : List OpcodeRow} {i : Instr} (h : findRow w rows = some i) :
    ∃ row ∈ rows, w &&& row.mask = row.pattern ∧ row.instr = i := by
  induction rows with
  | nil => cases h
  | cons row rest ih =>
    rw [findRow] at h
    split at h
    · next hw => exact ⟨row, List.mem_cons_self, hw, Option.some.inj h⟩
    · obtain ⟨row', hmem, hrow⟩ := ih h
      exact ⟨row', List.mem_cons_of_mem row hmem, hrow⟩

theorem eq_encode_of_findRow {w : Word} {i : Instr} (h : findRow w opcodeMap = some i) : w = encode i := by
  obtain ⟨row, hmem, hw, rfl⟩ := findRow_some h
  obtain ⟨hpattern, hmask⟩ := opcodeMap_row row hmem
  rwa [hmask, BitVec.and_allOnes, hpattern] at hw

theorem decode_encode (i : Instr) : decode (encode i) = .ok i := by
  cases i <;> rfl

theorem decode_eq_ok_iff {w : Word} {i : Instr} : decode w = .ok i ↔ w = encode i := by
  constructor
  · intro h
    rw [decode] at h
    split at h
    · next hrow => exact Except.ok.inj h ▸ eq_encode_of_findRow hrow
    · split at h <;> cases h
  · rintro rfl
    exact decode_encode i

theorem encode_toNat_lt (i : Instr) : (encode i).toNat < 0x0A := by
  cases i <;> decide

theorem exists_eq_encode_iff {w : Word} : (∃ i, w = encode i) ↔ w.toNat < 0x0A := by
  constructor
  · rintro ⟨i, rfl⟩
    exact encode_toNat_lt i
  · intro h
    obtain ⟨row, hmem, hrow⟩ := opcodeMap_covers w.toNat h
    obtain ⟨hpattern, -⟩ := opcodeMap_row row hmem
    rw [hpattern, BitVec.ofNat_toNat, BitVec.setWidth_eq] at hrow
    exact ⟨row.instr, hrow.symm⟩

/-- R92's two kinds of illegal word are the words from 0x0A on. -/
theorem illegalWord_iff {w : Word} : (w.toNat / 256 ≠ 0 ∨ 0x0A ≤ w.toNat % 256) ↔ 0x0A ≤ w.toNat := by
  omega

theorem decode_rejects_iff {w : Word} : (∃ e, decode w = .error e) ↔ 0x0A ≤ w.toNat := by
  rw [← not_lt, ← exists_eq_encode_iff]
  constructor
  · rintro ⟨e, he⟩ ⟨i, hi⟩
    exact nomatch he.symm.trans (decode_eq_ok_iff.mpr hi)
  · intro hno
    cases hw : decode w with
    | ok i => exact absurd ⟨i, decode_eq_ok_iff.mp hw⟩ hno
    | error e => exact ⟨e, rfl⟩

/-- Settles O2: `decode` inverts `encode`, and rejects the words from 0x0A on. -/
theorem everyWordHasOneMeaning : Obligations.EveryWordHasOneMeaning :=
  ⟨fun _ _ => decode_eq_ok_iff, fun _ => decode_rejects_iff.trans illegalWord_iff.symm⟩

end Sys2Proof
end

section
/-! Issue and completion of an illegal word (30_encoding.md R92): the host's write to CMD issues any word, and the sequencer ends
one that decodes to no command. -/
namespace Sys2Proof.Machine

theorem idleWrite_cmd {o : Offset} (h : regAt o = some .cmd) (w : Word) (s : State) : idleWrite o w s = issue w s := by
  simp [idleWrite, h]

/-- A host's write of any word to CMD of an idle block issues it. -/
theorem step_issue {s : State} {o : Offset} {w : Word} {rest : List HostOp} (ho : s.ops = .write o w :: rest)
    (hr : regAt o = some .cmd) (hb : s.blk.busy = false) : step s = .next (issue w (takeOp rest s)) := by
  rw [step_host (.inl hb) ho, hostStep, hostWrite_idle (s := takeOp rest s) hb, idleWrite_cmd hr]

/-- At the sequencer's turn a pending word that selects no command ends with its error. -/
theorem step_illegalCommand {s : State} (hb : s.blk.busy = true) (hturn : s.wait = 0 ∨ s.ops = [])
    (hbad : ∃ e, decode s.blk.pending = .error e) : step s = .next (illegalCommand s.blk.pending s) := by
  obtain ⟨e, he⟩ := hbad
  rw [step_sequencer hb hturn, completionStep, he]

theorem illegalCommand_endsWithError (w : Word) (s : State) :
    EndsWithError s (illegalCommand w s) s.blk .illegalCommand 0x000067FF#32 0#32 w :=
  ⟨illegalCommand_blk w s, rfl, rfl, rfl, rfl, rfl⟩

/-- Settles O5: the write to CMD is an issue, and the completion is `illegalCommand`, since `decode` rejects the word. -/
theorem illegalWordEndsWithError : Obligations.IllegalWordEndsWithError := by
  intro w hw
  refine ⟨fun s o rest ho hr hb => ⟨_, step_issue ho hr hb, rfl, rfl, rfl⟩, ?completion⟩
  case completion =>
    rintro s hb rfl hturn
    exact ⟨_, step_illegalCommand hb hturn (decode_rejects_iff.mpr (illegalWord_iff.mp hw)),
      illegalCommand_endsWithError s.blk.pending s⟩

end Sys2Proof.Machine
end

section
/-! The two ways a command completes, as the statements name them: an error of the shape check (40_frame_extract.md R120,
60_exceptions.md R251, R252), and a successful completion (44_pipeline_control.md R222). -/
namespace Sys2Proof.Machine

theorem raiseError_endsWithError (r : Raise) (s : State) {info : Word} (hinfo : packErrInfo r = info) :
    EndsWithError s (raiseError r s) s.blk r.code info r.expected r.actual :=
  ⟨hinfo ▸ raiseError_blk r s, rfl, rfl, rfl, rfl, rfl⟩

theorem packErrInfo_symbolRaise (x : OpBuf) (opn : BitVec 4) (j : BitVec 8) (code : ErrCode) :
    packErrInfo (symbolRaise x opn j code) = x.badPos ++ (2#4 ++ (opn ++ j)) := rfl

theorem packErrInfo_lengthRaise (x : OpBuf) (opn : BitVec 4) (w : Nat) (j : BitVec 8) (code : ErrCode) :
    packErrInfo (lengthRaise x opn w j code) = 0#16 ++ (1#4 ++ (opn ++ j)) := rfl

theorem packErrInfo_notConfigured : packErrInfo notConfigured = 0x000070FF#32 := by decide

theorem packErrInfo_unknownIdentity (n : BitVec 12) (id : BitVec 11) :
    packErrInfo (unknownIdentity n id) = 0x00003101#32 := by
  change (0#16 ++ (3#4 ++ (1#4 ++ 1#8)) : Word) = 0x00003101#32
  decide

/-- A bad symbol's error: POSITION is the buffer's own, the rest of ERR_INFO is `place`. -/
theorem symbolRaise_endsWithError (x : OpBuf) {opn : BitVec 4} {j : BitVec 8} (code : ErrCode) (s : State)
    {place : BitVec 16} (hplace : 2#4 ++ (opn ++ j) = place) :
    EndsWithError s (raiseError (symbolRaise x opn j code) s) s.blk code (x.badPos ++ place) 0x00003130#32
      (x.badSym.zeroExtend 32) :=
  raiseError_endsWithError _ s (hplace ▸ packErrInfo_symbolRaise x opn j code)

theorem lengthRaise_endsWithError (x : OpBuf) {opn : BitVec 4} (w : Nat) {j : BitVec 8} (code : ErrCode) (s : State)
    {info : Word} (hinfo : 0#16 ++ (1#4 ++ (opn ++ j)) = info) :
    EndsWithError s (raiseError (lengthRaise x opn w j code) s) s.blk code info (BitVec.ofNat 32 w)
      (x.count.zeroExtend 32) :=
  raiseError_endsWithError _ s (hinfo ▸ packErrInfo_lengthRaise x opn w j code)

theorem succeed_completesWith (s : State) (b : Block) (d : Nat) :
    CompletesWith s (succeed { s with blk := b, draws := d }) b :=
  ⟨succeed_blk _, rfl, rfl, rfl, rfl, rfl⟩

theorem checkShape_of_bad {x : OpBuf} (h : x.bad = true) (opn : BitVec 4) (w : Nat) (j : BitVec 8) (mode : ShapeMode) :
    checkShape x opn w j mode = some (symbolRaise x opn j mode.symbolError) :=
  checkShape_some.mpr (.inl ⟨h, rfl⟩)

theorem checkShape_of_length {x : OpBuf} {w : Nat} (h : x.bad = false) (hc : x.count.toNat ≠ w) (opn : BitVec 4)
    (j : BitVec 8) (mode : ShapeMode) :
    checkShape x opn w j mode = some (lengthRaise x opn w j mode.lengthError) :=
  checkShape_some.mpr (.inr ⟨h, hc, rfl⟩)

theorem checkShape_of_denotes {x : OpBuf} {w : Nat} {v : BitVec w} (h : Denotes x w v) (opn : BitVec 4) (j : BitVec 8)
    (mode : ShapeMode) : checkShape x opn w j mode = none := by
  obtain ⟨hbad, hcount, -⟩ := h
  exact checkShape_none.mpr ⟨hbad, hcount⟩

/-- The number a buffer denotes is the one that `val` builds symbol by symbol (30_encoding.md R97). -/
theorem val_eq_of_denotes {x : OpBuf} {w : Nat} {v : BitVec w} (h : Denotes x w v) : val x w = v := by
  obtain ⟨-, -, hbits⟩ := h
  exact BitVec.eq_of_getLsbD_eq fun b hb => (val_getLsbD x w b hb).trans (hbits b hb).symm

end Sys2Proof.Machine
end

section
/-! The frame's fields (30_encoding.md R94, R95): each is a slice of the frame, so it holds the symbols at its position; fields
that stand next to each other join to one; and the field registers read as the fields (10_state.md R40). -/
namespace Sys2Proof.Machine

/-- Bits `hi`:`lo` of a frame are the symbols from position 120 - `hi` on. -/
theorem fieldAt_extractLsb_val (x : OpBuf) {hi lo : Nat} (hhi : hi ≤ 120) (hlo : lo ≤ hi) :
    FieldAt ((val x 121).extractLsb hi lo) (120 - hi) x.bits := by
  intro b hb
  have hpos : 121 - 1 - (lo + b) = 120 - hi + (hi - lo + 1 - 1 - b) := by omega
  rw [BitVec.getLsbD_extractLsb, decide_eq_true (by omega), Bool.true_and, val_getLsbD x 121 (lo + b) (by omega), hpos]

theorem frameFields_fieldsAre (x : OpBuf) : FieldsAre (frameFields x) x.bits := by
  refine ⟨?sof, ?id, ?stuff, ?ide, ?rsvd, ?msgLen, ?ts, ?data, ?crc, ?crcDel, ?ack, ?ackDel, ?eof, ?ifs⟩ <;>
    exact fieldAt_extractLsb_val x (by decide) (by decide)

/-- A field followed by the field at the position where it ends is one field. -/
theorem FieldAt.append {m n o : Nat} {u : BitVec m} {v : BitVec n} {bits : BitVec 128} (hu : FieldAt u o bits)
    (hv : FieldAt v (o + m) bits) : FieldAt (u ++ v) o bits := by
  intro b hb
  rw [BitVec.getLsbD_append]
  by_cases hlow : b < n
  · have hpos : o + m + (n - 1 - b) = o + (m + n - 1 - b) := by omega
    rw [if_pos hlow, hv b hlow, hpos]
  · have hpos : o + (m - 1 - (b - n)) = o + (m + n - 1 - b) := by omega
    rw [if_neg hlow, hu (b - n) (by omega), hpos]

/-- The 14 fields joined in layout order are one field of 121 symbols from position 0 on. -/
theorem fieldAt_joined {f : Fields} {bits : BitVec 128} (h : FieldsAre f bits) :
    FieldAt (f.sof ++ (f.id ++ (f.stuff ++ (f.ide ++ (f.rsvd ++ (f.msgLen ++ (f.ts ++ (f.data ++ (f.crc ++ (f.crcDel ++
      (f.ack ++ (f.ackDel ++ (f.eof ++ f.ifs)))))))))))) : BitVec 121) 0 bits := by
  obtain ⟨hsof, hid, hstuff, hide, hrsvd, hmsgLen, hts, hdata, hcrc, hcrcDel, hack, hackDel, heof, hifs⟩ := h
  exact hsof.append <| hid.append <| hstuff.append <| hide.append <| hrsvd.append <| hmsgLen.append <| hts.append <|
    hdata.append <| hcrc.append <| hcrcDel.append <| hack.append <| hackDel.append <| heof.append hifs

theorem hi32_append_lo32 (x : BitVec 64) : hi32 x ++ lo32 x = x :=
  BitVec.extractLsb'_append_extractLsb' (w := 32) (len := 32)

/-- A read of an idle block returns the register's value. -/
theorem hostReadValue_of_idle {s : State} (hb : s.blk.busy = false) (r : Reg) :
    hostReadValue (regOffset r) s = readReg s.draws r s.blk := by
  simp [hostReadValue, regAt_regOffset, hb]

theorem fieldReads_of_idle {s : State} (hb : s.blk.busy = false) : FieldReads s := by
  have hread := hostReadValue_of_idle hb
  refine ⟨hread .fldSof, hread .fldId, hread .fldStuff, hread .fldIde, hread .fldRsvd, hread .fldMsgLen, hread .fldTs, ?data,
    hread .fldCrc, hread .fldCrcDel, hread .fldAck, hread .fldAckDel, hread .fldEof, hread .fldIfs⟩
  case data =>
    rw [hread .fldDataHi, hread .fldDataLo]
    exact hi32_append_lo32 s.blk.fields.data

end Sys2Proof.Machine
end

section
/-! The frame extractor's commands PARSE, DECODE_ID and DECODE_DATA (40_frame_extract.md R121, R122, R123, R125), each in the
order of its checks. -/
namespace Sys2Proof.Machine

/-- Settles O12: the shape check's two errors, else the fields of the frame that the 121 symbols denote. -/
theorem parseSplitsFrame : Obligations.ParseSplitsFrame := by
  refine ⟨rfl, fun s => ⟨fun hbad => ?symbol, fun hbad hcount => ?length, fun hbad hcount => ?frame⟩⟩
  case symbol =>
    exact ⟨_, execParse_error (checkShape_of_bad hbad _ _ _ _), symbolRaise_endsWithError _ _ s (by decide)⟩
  case length =>
    exact ⟨_, execParse_error (checkShape_of_length hbad hcount _ _ _),
      lengthRaise_endsWithError _ _ _ s (by decide)⟩
  case frame =>
    exact ⟨_, execParse_ok (checkShape_none.mpr ⟨hbad, hcount⟩), succeed_completesWith s _ s.draws,
      frameFields_fieldsAre s.blk.opa, fieldReads_of_idle rfl⟩

/-- Settles O13: the fields hold the symbols at their positions, and these positions follow each other without a gap. -/
theorem fieldsRebuildFrame : Obligations.FieldsRebuildFrame := by
  intro s hbad hcount
  refine ⟨_, execParse_ok (checkShape_none.mpr ⟨hbad, hcount⟩), fun p hp => ?_⟩
  have hpos : 0 + (121 - 1 - (120 - p)) = p := by omega
  exact (fieldAt_joined (frameFields_fieldsAre s.blk.opa) (120 - p) (by omega)).trans (by rw [hpos])

/-- Settles O14: the lock, then the shape check, then the catalog's range. -/
theorem decodeIdLooksUpSensor : Obligations.DecodeIdLooksUpSensor := by
  refine ⟨rfl, fun s => ⟨fun hlock => ?unlocked, fun hlock hbad => ?symbol, fun hlock hbad hcount => ?length,
    fun v hlock hv => ?value⟩⟩
  case unlocked =>
    exact ⟨_, execDecodeId_unlocked hlock, raiseError_endsWithError _ s packErrInfo_notConfigured⟩
  case symbol =>
    exact ⟨_, execDecodeId_shape hlock (checkShape_of_bad hbad _ _ _ _), symbolRaise_endsWithError _ _ s (by decide)⟩
  case length =>
    exact ⟨_, execDecodeId_shape hlock (checkShape_of_length hbad hcount _ _ _),
      lengthRaise_endsWithError _ _ _ s (by decide)⟩
  case value =>
    have hshape := checkShape_of_denotes hv 1#4 1#8 .decoder
    obtain rfl := val_eq_of_denotes hv
    exact ⟨fun hrange => ⟨_, execDecodeId_unknown hlock hshape hrange,
        raiseError_endsWithError _ s (packErrInfo_unknownIdentity _ _)⟩,
      fun hrange => ⟨_, execDecodeId_ok hlock hshape hrange, succeed_completesWith s _ s.draws,
        hostReadValue_of_idle rfl .resId⟩⟩

/-- Settles O16: the shape check's two errors, else the pattern itself, which no arithmetic touches. -/
theorem decodeDataCopiesPattern : Obligations.DecodeDataCopiesPattern := by
  refine ⟨rfl, fun s => ⟨fun hbad => ?symbol, fun hbad hcount => ?length, fun v hv => ?pattern⟩⟩
  case symbol =>
    exact ⟨_, execDecodeData_error (checkShape_of_bad hbad _ _ _ _), symbolRaise_endsWithError _ _ s (by decide)⟩
  case length =>
    exact ⟨_, execDecodeData_error (checkShape_of_length hbad hcount _ _ _),
      lengthRaise_endsWithError _ _ _ s (by decide)⟩
  case pattern =>
    obtain rfl := val_eq_of_denotes hv
    exact ⟨_, execDecodeData_ok (checkShape_of_denotes hv _ _ _), succeed_completesWith s _ s.draws, rfl⟩

end Sys2Proof.Machine
end

section
/-! The checksum as a weighted sum (41_checksum.md R150, R154): a bit that is flipped lies in one byte of the payload, so the sum
moves by that byte's prime times the bit's value. -/
namespace Sys2Proof.Machine

/-- The prime that weights byte k (R150). -/
def byteWeight (k : Fin 8) : Nat := [5, 7, 11, 13, 17, 19, 23, 29][k]

theorem byteWeight_pos : ∀ k, 0 < byteWeight k := by decide

theorem payloadByte_eq (d : F64) (k : Nat) : payloadByte d k = d.toNat / 2 ^ (56 - 8 * k) % 256 := by
  rw [payloadByte, BitVec.extractLsb'_toNat, Nat.shiftRight_eq_div_pow]

/-- Settles O17: each byte is a quotient's remainder, and eight bytes of 255 give the bound. -/
theorem checksumIsWeightedByteSum : Obligations.ChecksumIsWeightedByteSum := by
  refine fun d => ⟨?sum, chk_le d⟩
  case sum => simp only [chk, payloadByte_eq, Nat.reduceMul, Nat.reduceSub, pow_zero, Nat.div_one]

theorem chk_eq_sum (d : F64) : chk d = ∑ k : Fin 8, payloadByte d k * byteWeight k := by
  rw [Fin.sum_univ_eight]
  rfl

/-- Adding to one byte adds its prime's multiple to the sum. -/
theorem chk_of_byte_add {d e : F64} {m : Nat} (k : Fin 8) (hk : payloadByte e k = payloadByte d k + m)
    (hother : ∀ j : Fin 8, j ≠ k → payloadByte e j = payloadByte d j) : chk e = chk d + byteWeight k * m := by
  have hrest : ∑ j ∈ {k}ᶜ, payloadByte e j * byteWeight j = ∑ j ∈ {k}ᶜ, payloadByte d j * byteWeight j :=
    Finset.sum_congr rfl fun j hj => by rw [hother j (by simpa using hj)]
  rw [chk_eq_sum, chk_eq_sum, Fintype.sum_eq_add_sum_compl k, Fintype.sum_eq_add_sum_compl k, hrest, hk]
  ring

/-- A slice that holds position `n` of a word sees a one there at its place in the slice. -/
theorem extractLsb'_twoPow_inside {w len start i : Nat} (hi : i < len) (hw : start + i < w) :
    (BitVec.twoPow w (start + i)).extractLsb' start len = BitVec.twoPow len i := by
  refine BitVec.eq_of_getLsbD_eq fun j hj => ?_
  rw [BitVec.getLsbD_extractLsb', BitVec.getLsbD_twoPow, BitVec.getLsbD_twoPow]
  simp [hi, hw, hj]

theorem extractLsb'_twoPow_outside {w len start n : Nat} (hn : n < start ∨ start + len ≤ n) :
    (BitVec.twoPow w n).extractLsb' start len = 0#len := by
  refine BitVec.eq_of_getLsbD_eq fun j hj => ?_
  have hne : n ≠ start + j := by omega
  simp [BitVec.getLsbD_twoPow, hne]

/-- Flipping a bit that is 0 is adding its value. -/
theorem toNat_xor_twoPow_of_clear {w i : Nat} {x : BitVec w} (hi : i < w) (hx : x.getLsbD i = false) :
    (x ^^^ BitVec.twoPow w i).toNat = x.toNat + 2 ^ i := by
  have hand : x &&& BitVec.twoPow w i = 0#w := by rw [BitVec.and_twoPow, hx, if_neg Bool.false_ne_true]
  have hor : x ^^^ BitVec.twoPow w i = x ||| BitVec.twoPow w i := by
    refine BitVec.eq_of_getLsbD_eq fun j _ => ?_
    by_cases hij : i = j
    · subst hij; simp [hx]
    · simp [BitVec.getLsbD_twoPow, hij]
  rw [hor, ← BitVec.add_eq_or_of_and_eq_zero _ _ hand, BitVec.toNat_add_of_and_eq_zero hand, BitVec.toNat_twoPow,
    Nat.mod_eq_of_lt (Nat.pow_lt_pow_right (by decide) hi)]

/-- Bit b of byte k is at position 56 - 8k + b of the payload (30_encoding.md R100). -/
def bitFlip (k : Fin 8) (b : Nat) : F64 := BitVec.twoPow 64 (56 - 8 * k + b)

theorem payloadByte_bitFlip_other (d : F64) {j k : Fin 8} {b : Nat} (hjk : j ≠ k) (hb : b < 8) :
    payloadByte (d ^^^ bitFlip k b) j = payloadByte d j := by
  rw [payloadByte, bitFlip, BitVec.extractLsb'_xor, extractLsb'_twoPow_outside (by omega), BitVec.xor_zero, payloadByte]

theorem payloadByte_bitFlip_of_clear {d : F64} {k : Fin 8} {b : Nat} (hb : b < 8)
    (hd : d.getLsbD (56 - 8 * k + b) = false) :
    payloadByte (d ^^^ bitFlip k b) k = payloadByte d k + 2 ^ b := by
  rw [payloadByte, bitFlip, BitVec.extractLsb'_xor, extractLsb'_twoPow_inside hb (by omega),
    toNat_xor_twoPow_of_clear hb (by simp [hd]), payloadByte]

theorem chk_bitFlip_of_clear {d : F64} {k : Fin 8} {b : Nat} (hb : b < 8) (hd : d.getLsbD (56 - 8 * k + b) = false) :
    chk (d ^^^ bitFlip k b) = chk d + byteWeight k * 2 ^ b :=
  chk_of_byte_add k (payloadByte_bitFlip_of_clear hb hd) fun _ hj => payloadByte_bitFlip_other d hj hb

/-- The sum goes up where the bit was 0; where it was 1 the flipped payload is the one whose bit is 0, and the sum goes down. -/
theorem chk_bitFlip (d : F64) (k : Fin 8) {b : Nat} (hb : b < 8) :
    chk (d ^^^ bitFlip k b) = chk d + byteWeight k * 2 ^ b ∨ chk d = chk (d ^^^ bitFlip k b) + byteWeight k * 2 ^ b := by
  cases hd : d.getLsbD (56 - 8 * k + b) with
  | false => exact .inl (chk_bitFlip_of_clear hb hd)
  | true =>
    have hclear : (d ^^^ bitFlip k b).getLsbD (56 - 8 * k + b) = false := by
      have hpos : 56 - 8 * k + b < 64 := by omega
      simp [bitFlip, hd, hpos]
    have hback : d ^^^ bitFlip k b ^^^ bitFlip k b = d := by rw [BitVec.xor_assoc, BitVec.xor_self, BitVec.xor_zero]
    have hup := chk_bitFlip_of_clear hb hclear
    exact .inr (by rwa [hback] at hup)

/-- Every position of the payload is a bit of one of its bytes. -/
theorem exists_bitFlip_eq {n : Nat} (hn : n < 64) : ∃ (k : Fin 8) (b : Nat), b < 8 ∧ 1#64 <<< n = bitFlip k b := by
  refine ⟨⟨7 - n / 8, by omega⟩, n % 8, Nat.mod_lt n (by decide), ?_⟩
  have hpos : 56 - 8 * (7 - n / 8) + n % 8 = n := by omega
  rw [bitFlip, hpos, BitVec.twoPow_eq]

theorem chk_flipped_ne (d : F64) {n : Nat} (hn : n < 64) : chk (d ^^^ (1#64 <<< n)) ≠ chk d := by
  obtain ⟨k, b, hb, hflip⟩ := exists_bitFlip_eq hn
  have hpos : 0 < byteWeight k * 2 ^ b := Nat.mul_pos (byteWeight_pos k) (Nat.two_pow_pos b)
  rw [hflip]
  rcases chk_bitFlip d k hb with h | h <;> omega

end Sys2Proof.Machine
end

section
/-! VERIFY (41_checksum.md R152, R153, R154): the order of its checks, and its verdict as a comparison of OPB's symbols with the
checksum of OPA's payload. -/
namespace Sys2Proof.Machine

theorem denotes_val {x : OpBuf} {w : Nat} (hbad : x.bad = false) (hcount : x.count.toNat = w) : Denotes x w (val x w) :=
  ⟨hbad, hcount, fun b hb => val_getLsbD x w b hb⟩

theorem CompletesWith.busy {s t : State} {b : Block} (h : CompletesWith s t b) : t.blk.busy = false := by
  obtain ⟨hblk, -⟩ := h
  rw [hblk]

theorem CompletesWith.err {s t : State} {b : Block} (h : CompletesWith s t b) : t.blk.err = .ok := by
  obtain ⟨hblk, -⟩ := h
  rw [hblk]

/-- A buffer's number is `n` exactly where its symbols are those of `n` padded to the width (R153). -/
theorem val_toNat_eq_iff {x : OpBuf} {w n : Nat} (hn : n < 2 ^ w) :
    (val x w).toNat = n ↔ ∀ p, p < w → x.bits.getLsbD p = n.testBit (w - 1 - p) := by
  constructor
  · rintro rfl p hp
    have hpos : w - 1 - (w - 1 - p) = p := by omega
    rw [BitVec.testBit_toNat, val_getLsbD x w _ (by omega), hpos]
  · intro h
    have hval : val x w = BitVec.ofNat w n := BitVec.eq_of_getLsbD_eq fun b hb => by
      have hpos : w - 1 - (w - 1 - b) = b := by omega
      rw [val_getLsbD x w b hb, h _ (by omega), hpos, BitVec.getLsbD_ofNat, decide_eq_true hb, Bool.true_and]
    rw [hval, BitVec.toNat_ofNat, Nat.mod_eq_of_lt hn]

/-- VERIFY with 64 bit symbols in OPA and 15 symbols in OPB: no error, and MATCH is the comparison of the two sums. -/
theorem execVerify_verdict {s : State} {d : F64} (hd : Denotes s.blk.opa 64 d) (hc : s.blk.opb.count.toNat = 15) :
    ∃ t, execVerify s = .next t ∧ CompletesWith s t { s.blk with resSum := t.blk.resSum, resMatch := t.blk.resMatch } ∧
      t.blk.resSum = chkBits d ∧
      (t.blk.resMatch = true ↔ s.blk.opb.bad = false ∧ (val s.blk.opb 15).toNat = chk d) := by
  have hshape := checkShape_of_denotes hd 1#4 7#8 .parser
  obtain rfl := val_eq_of_denotes hd
  refine ⟨_, execVerify_ok hshape hc, succeed_completesWith s _ s.draws, rfl, ?verdict⟩
  case verdict => cases s.blk.opb.bad <;> simp

/-- Settles O18: OPA's symbol, OPA's length and OPB's length in this order, else the sum and the verdict. -/
theorem verifyComparesChecksum : Obligations.VerifyComparesChecksum := by
  refine ⟨rfl, fun s => ⟨fun hbad => ?symbol, fun hbad hcount => ?length, fun d hd hcount => ?received,
    fun d hd hcount => ?verdict⟩⟩
  case symbol =>
    exact ⟨_, execVerify_error (checkShape_of_bad hbad _ _ _ _), symbolRaise_endsWithError _ _ s (by decide)⟩
  case length =>
    exact ⟨_, execVerify_error (checkShape_of_length hbad hcount _ _ _),
      lengthRaise_endsWithError _ _ _ s (by decide)⟩
  case received =>
    exact ⟨_, execVerify_length (checkShape_of_denotes hd _ _ _) hcount, lengthRaise_endsWithError _ _ _ s (by decide)⟩
  case verdict =>
    obtain ⟨t, hexec, hdone, hsum, hmatch⟩ := execVerify_verdict hd hcount
    refine ⟨t, hexec, hdone, hsum ▸ chkBits_toNat d, hostReadValue_of_idle hdone.busy .resChk, hmatch.trans ⟨?_, ?_⟩⟩
    · rintro ⟨hbad, hval⟩
      exact ⟨_, denotes_val hbad hcount, hval⟩
    · rintro ⟨c, hc, hval⟩
      have ⟨hbad, _, _⟩ := hc
      exact ⟨hbad, val_eq_of_denotes hc ▸ hval⟩

/-- Settles O19: the two numbers are below 2^15, so they are equal exactly where their 15 symbols are. -/
theorem verdictIsSymbolComparison : Obligations.VerdictIsSymbolComparison := by
  intro s d hd hcount
  obtain ⟨t, hexec, -, -, hmatch⟩ := execVerify_verdict hd hcount
  have hfits : chk d < 2 ^ 15 := (chk_le d).trans_lt (by decide)
  exact ⟨t, hexec, hmatch.trans (and_congr_right' (val_toNat_eq_iff hfits))⟩

/-- Settles O20: a flip moves the sum by a positive amount, so the sum of the flipped payload is not the one received. -/
theorem singleBitFlipIsDetected : Obligations.SingleBitFlipIsDetected := by
  refine ⟨fun d k b p hp hb => ?weighted, fun s d n c hn hd hc hsum => ?detected, by decide, by decide⟩
  case weighted =>
    obtain ⟨hk, rfl⟩ := List.getElem?_eq_some_iff.mp hp
    rw [← BitVec.twoPow_eq]
    rcases chk_bitFlip d ⟨k, hk⟩ hb with hup | hdown
    · exact .inl (by exact_mod_cast hup)
    · exact .inr (eq_sub_of_add_eq (by exact_mod_cast hdown.symm))
  case detected =>
    have ⟨_, hcount, _⟩ := hc
    obtain ⟨t, hexec, hdone, -, hmatch⟩ := execVerify_verdict hd hcount
    have hne : (val s.blk.opb 15).toNat ≠ chk (d ^^^ (1#64 <<< n)) := by
      rw [val_eq_of_denotes hc, hsum]
      exact (chk_flipped_ne d hn).symm
    exact ⟨t, hexec, hdone.err, Bool.eq_false_iff.mpr fun h => hne (hmatch.mp h).2⟩

end Sys2Proof.Machine
end

section
/-! CALIBRATE (42_calibrate.md R171): the lock, then the lookup, then a subtraction and a multiplication. -/
namespace Sys2Proof.Machine

theorem packErrInfo_unknownCalibration (field : BitVec 8) (operand : BitVec 4) (depth : BitVec 12) (id : BitVec 11) :
    packErrInfo (unknownCalibration field operand depth id) = 0#16 ++ (4#4 ++ (operand ++ field)) := rfl

/-- A sensor without an entry: EXPECTED is CAL_DEPTH and ACTUAL the sensor's number. -/
theorem unknownCalibration_endsWithError {field : BitVec 8} {operand : BitVec 4} (depth : BitVec 12) (id : BitVec 11)
    (s : State) {info : Word} (hinfo : 0#16 ++ (4#4 ++ (operand ++ field)) = info) :
    EndsWithError s (raiseError (unknownCalibration field operand depth id) s) s.blk .unknownSensorId info
      (depth.zeroExtend 32) (id.zeroExtend 32) :=
  raiseError_endsWithError _ s (hinfo ▸ packErrInfo_unknownCalibration field operand depth id)

/-- Settles O21: the lock, then the lookup, else the entry's bias and weight, at the state's next two draws. -/
theorem calibrateSubtractsThenScales : Obligations.CalibrateSubtractsThenScales := by
  refine ⟨rfl, fun s => ⟨fun hlock => ?unlocked, fun hlock hentry => ?unknown, fun hlock hentry => ?calibrated⟩⟩
  case unlocked =>
    exact ⟨_, execCalibrate_unlocked hlock, raiseError_endsWithError _ s packErrInfo_notConfigured⟩
  case unknown =>
    exact ⟨_, execCalibrate_unknown hlock (calLookup_none hentry),
      unknownCalibration_endsWithError _ _ s (by decide)⟩
  case calibrated =>
    exact ⟨_, s.draws + 1, s.draws, execCalibrate_ok hlock (calLookup_some hentry),
      succeed_completesWith s _ (s.draws + 2)⟩

end Sys2Proof.Machine
end

section
/-! CLR_SAMPLES and INTEGRATE (43_integrator.md R194, R195): the errors of INTEGRATE's checks, the recurrence as the equations
that the loop's elements satisfy, and the position memories the loop fills. -/
namespace Sys2Proof.Machine

/-- Settles O30: the completion writes the three lengths and the status. -/
theorem clrSamplesEmptiesSequences : Obligations.ClrSamplesEmptiesSequences :=
  ⟨rfl, fun s => ⟨_, rfl, rfl, succeed_completesWith s _ s.draws⟩⟩

theorem packErrInfo_sequenceRaise (opn : BitVec 4) (expected actual : BitVec 16) :
    packErrInfo (sequenceRaise opn expected actual) = 0#16 ++ (1#4 ++ (opn ++ 0xFF#8)) := rfl

theorem sequenceRaise_endsWithError {opn : BitVec 4} (expected actual : BitVec 16) (s : State) {info : Word}
    (hinfo : 0#16 ++ (1#4 ++ (opn ++ 0xFF#8)) = info) :
    EndsWithError s (raiseError (sequenceRaise opn expected actual) s) s.blk .lengthMismatch info
      (expected.zeroExtend 32) (actual.zeroExtend 32) :=
  raiseError_endsWithError _ s (hinfo ▸ packErrInfo_sequenceRaise opn expected actual)

theorem packErrInfo_capacityRaise (sampleDepth n : BitVec 16) :
    packErrInfo (capacityRaise sampleDepth n) = 0x000054FF#32 := by
  change (0#16 ++ (5#4 ++ (4#4 ++ 0xFF#8)) : Word) = 0x000054FF#32
  decide

section
variable (b : Block) (draws n : Nat)

theorem trackLoop_theta_succ : (trackLoop b draws (n + 1)).theta =
    fadd (draws + 8 * n + 3) (trackLoop b draws n).theta
      (deg2rad (draws + 8 * n) (Memory.read .smAng b.ang.mem n)) := rfl

theorem trackLoop_x_succ : (trackLoop b draws (n + 1)).x =
    fadd (draws + 8 * n + 5) (trackLoop b draws n).x (fmul (draws + 8 * n + 4)
      (dist (draws + 8 * n + 1) (Memory.read .smSpd b.spd.mem n) (Memory.read .smTim b.tim.mem n))
      (cos64 (trackLoop b draws (n + 1)).theta)) := rfl

theorem trackLoop_y_succ : (trackLoop b draws (n + 1)).y =
    fadd (draws + 8 * n + 7) (trackLoop b draws n).y (fmul (draws + 8 * n + 6)
      (dist (draws + 8 * n + 1) (Memory.read .smSpd b.spd.mem n) (Memory.read .smTim b.tim.mem n))
      (sin64 (trackLoop b draws (n + 1)).theta)) := rfl

end

/-- A memory that is written entry by entry in index order holds the values written so far, and above them what it held. -/
theorem get?_filled {m : Nat → Memory} {v : Nat → F64} (hm : ∀ n, m (n + 1) = Memory.write (m n) n (v n)) (n i : Nat) :
    Table.get? (m n) i = if i < n then some (v i) else Table.get? (m 0) i := by
  induction n with
  | zero => rw [if_neg (Nat.not_lt_zero i)]
  | succ n ih =>
    rw [hm, Memory.write]
    by_cases hin : i = n
    · subst hin
      rw [Table.get?_put_same, if_pos (Nat.lt_succ_self i)]
    · have hlt : i < n + 1 ↔ i < n := by omega
      simp only [Table.get?_put_other _ _ hin, ih, hlt]

theorem get?_trackLoop_xm (b : Block) (draws n i : Nat) : Table.get? (trackLoop b draws n).xm i =
    if i < n then some (trackLoop b draws (i + 1)).x else Table.get? b.xm i :=
  get?_filled (m := fun n => (trackLoop b draws n).xm) (v := fun n => (trackLoop b draws (n + 1)).x) (fun _ => rfl) n i

theorem get?_trackLoop_ym (b : Block) (draws n i : Nat) : Table.get? (trackLoop b draws n).ym i =
    if i < n then some (trackLoop b draws (i + 1)).y else Table.get? b.ym i :=
  get?_filled (m := fun n => (trackLoop b draws n).ym) (v := fun n => (trackLoop b draws (n + 1)).y) (fun _ => rfl) n i

/-- Settles O26: the three checks in order, else the loop, whose heading and position after each sample are the recurrence's;
sample i draws the eight numbers from `draws + 8 * i` on. -/
theorem integrateDeadReckons : Obligations.IntegrateDeadReckons := by
  refine ⟨rfl, fun s => ⟨fun htim => ?times, fun htim hang => ?angles, fun htim hang hcap => ?capacity,
    fun haligned => ?track⟩⟩
  case times => exact ⟨_, execIntegrate_times htim, sequenceRaise_endsWithError _ _ s (by decide)⟩
  case angles => exact ⟨_, execIntegrate_angles htim hang, sequenceRaise_endsWithError _ _ s (by decide)⟩
  case capacity =>
    exact ⟨_, execIntegrate_capacity htim hang hcap, raiseError_endsWithError _ s (packErrInfo_capacityRaise _ _)⟩
  case track =>
    refine ⟨_, fun i => (trackLoop s.blk s.draws i).theta, fun i => (trackLoop s.blk s.draws i).x,
      fun i => (trackLoop s.blk s.draws i).y, execIntegrate_ok haligned, succeed_completesWith s _ _, rfl, rfl, rfl,
      fun i hi => ⟨fun m => s.draws + 8 * i + m, _, rfl, trackLoop_theta_succ _ _ i, trackLoop_x_succ _ _ i,
        trackLoop_y_succ _ _ i, ?_, ?_⟩, fun i hi => ⟨?_, ?_⟩⟩
    · exact (get?_trackLoop_xm ..).trans (if_pos hi)
    · exact (get?_trackLoop_ym ..).trans (if_pos hi)
    · exact (get?_trackLoop_xm ..).trans (if_neg hi.not_gt)
    · exact (get?_trackLoop_ym ..).trans (if_neg hi.not_gt)

end Sys2Proof.Machine
end

section
/-! The cosine and the sine (43_integrator.md R193): free bits are bent to a magnitude up to that of 1.0 at a finite argument, and
to a NaN at any other. -/
namespace Sys2Proof.Machine

theorem f64Mag_and_le_right (a m : F64) : f64Mag (a &&& m) ≤ f64Mag m := by
  rw [f64Mag, BitVec.extractLsb'_and, BitVec.toNat_and]
  exact Nat.and_le_right

theorem f64Mag_le_or_right (a m : F64) : f64Mag m ≤ f64Mag (a ||| m) := by
  rw [f64Mag, f64Mag, BitVec.extractLsb'_or, BitVec.toNat_or]
  exact Nat.right_le_or

theorem f64Mag_toUnitRange_le (r : F64) : f64Mag (toUnitRange r) ≤ f64One.toNat := by
  rw [toUnitRange]
  split
  case isTrue h => exact h
  case isFalse => exact (f64Mag_and_le_right _ _).trans (by decide)

theorem f64IsNaN_toNaN (r : F64) : f64IsNaN (toNaN r) = true := by
  rw [toNaN]
  split
  case isTrue h => exact h
  case isFalse =>
    have hmask : infBits < f64Mag 0x7FF8000000000000#64 := by decide
    exact (f64IsNaN_iff _).mpr (hmask.trans_le (f64Mag_le_or_right _ _))

theorem finite_of_zero {a : F64} (h : f64IsZero a = true) : f64IsFinite a = true := by
  rw [f64IsFinite_iff, (f64IsZero_iff a).mp h]
  decide

theorem not_zero_of_not_finite {a : F64} (h : f64IsFinite a = false) : f64IsZero a = false :=
  Bool.eq_false_iff.mpr fun hz => Bool.eq_false_iff.mp h (finite_of_zero hz)

theorem f64Mag_cos64_le {a : F64} (h : f64IsFinite a = true) : f64Mag (cos64 a) ≤ f64One.toNat := by
  rw [cos64, if_pos h]
  split
  case isTrue => decide
  case isFalse => exact f64Mag_toUnitRange_le _

theorem f64Mag_sin64_le {a : F64} (h : f64IsFinite a = true) : f64Mag (sin64 a) ≤ f64One.toNat := by
  rw [sin64, if_pos h]
  split
  case isTrue hz => exact ((f64IsZero_iff a).mp hz).trans_le (Nat.zero_le _)
  case isFalse => exact f64Mag_toUnitRange_le _

theorem f64IsNaN_cos64 {a : F64} (h : f64IsFinite a = false) : f64IsNaN (cos64 a) = true := by
  rw [cos64, not_zero_of_not_finite h, h]
  exact f64IsNaN_toNaN _

theorem f64IsNaN_sin64 {a : F64} (h : f64IsFinite a = false) : f64IsNaN (sin64 a) = true := by
  rw [sin64, not_zero_of_not_finite h, h]
  exact f64IsNaN_toNaN _

theorem finite_of_mag_le_one {a : F64} (h : f64Mag a ≤ f64One.toNat) : f64IsFinite a = true :=
  (f64IsFinite_iff a).mpr (h.trans_lt (by decide))

/-- Up to the magnitude bits of 1.0 a magnitude is at most one: the exponent field is below 1023, or it is 1023 and the
fraction is zero. -/
theorem magUnits_le_unitScale {m : Nat} (h : m ≤ f64One.toNat) : magUnits m ≤ unitScale := by
  have hone : f64One.toNat = 1023 * 2 ^ 52 := by decide
  rw [magUnits, unitScale]
  split
  case isTrue hsub => exact hsub.le.trans (pow_le_pow_right₀ one_le_two (by decide))
  case isFalse =>
    rcases Nat.lt_or_ge (m / 2 ^ 52) 1023 with hexp | hexp
    · calc (2 ^ 52 + m % 2 ^ 52) * 2 ^ (m / 2 ^ 52 - 1)
          ≤ 2 ^ 53 * 2 ^ (m / 2 ^ 52 - 1) := Nat.mul_le_mul_right _ (by omega)
        _ = 2 ^ (53 + (m / 2 ^ 52 - 1)) := (pow_add 2 53 _).symm
        _ ≤ 2 ^ 1074 := pow_le_pow_right₀ one_le_two (by omega)
    · have hfrac : m % 2 ^ 52 = 0 := by omega
      rw [hfrac, Nat.add_zero, ← pow_add]
      exact pow_le_pow_right₀ one_le_two (by omega)

theorem abs_f64Int (a : F64) : |f64Int a| = f64Units a := by
  rw [f64Int]
  split <;> simp

theorem abs_f64Int_le_unitScale {a : F64} (h : f64Mag a ≤ f64One.toNat) : |f64Int a| ≤ unitScale := by
  rw [abs_f64Int, f64Units_eq]
  exact_mod_cast magUnits_le_unitScale h

/-- Settles O36: the values at the zeros are the definitions' own; elsewhere the free bits are bent. -/
theorem cosineAndSineAreAdmissible : Obligations.CosineAndSineAreAdmissible := by
  refine ⟨if_pos (by decide), if_pos (by decide), if_pos (by decide), if_pos (by decide),
    fun a => ⟨fun h => ?nan, fun h => ?unit⟩⟩
  case nan => exact ⟨f64IsNaN_cos64 h, f64IsNaN_sin64 h⟩
  case unit =>
    exact ⟨finite_of_mag_le_one (f64Mag_cos64_le h), abs_f64Int_le_unitScale (f64Mag_cos64_le h),
      finite_of_mag_le_one (f64Mag_sin64_le h), abs_f64Int_le_unitScale (f64Mag_sin64_le h)⟩

end Sys2Proof.Machine
end

section
/-! A run with zero speeds (43_integrator.md R197): each sample adds a zero to the position +0.0 while its time and heading are
finite, and a NaN where one of them is not; a NaN position stays one. -/
namespace Sys2Proof.Machine

theorem roundUnits_zero (q : Nat) : roundUnits 0 q = 0 := by simp [roundUnits]

theorem f64Units_of_zero {a : F64} (h : f64IsZero a = true) : f64Units a = 0 := by
  rw [f64Units_eq, (f64IsZero_iff a).mp h, magUnits_zero]

theorem f64Int_of_zero {a : F64} (h : f64IsZero a = true) : f64Int a = 0 := by
  rw [f64Int, f64Units_of_zero h]
  simp

/-- A zero times a finite value is a zero. -/
theorem fmul_zero_of_finite (k : Nat) {a b : F64} (ha : f64IsZero a = true) (hb : f64IsFinite b = true) :
    f64IsZero (fmul k a b) = true := by
  rw [fmul_finite k (finite_of_zero ha) hb, f64Units_of_zero ha, Nat.zero_mul, roundUnits_zero, f64IsZero_iff]
  exact f64Mag_packF64 _ (by decide)

/-- A zero times a NaN or an infinity is a NaN (42_calibrate.md R172). -/
theorem fmul_nan_of_not_finite (k : Nat) {a b : F64} (ha : f64IsZero a = true) (hb : f64IsFinite b = false) :
    f64IsNaN (fmul k a b) = true := by
  cases hnan : f64IsNaN b with
  | true => exact fmul_nan k (.inr hnan)
  | false =>
    obtain ⟨hanan, -⟩ := finite_not_special (finite_of_zero ha)
    have hinf : f64IsInf b = true := by
      rw [Bool.eq_false_iff, ne_eq, f64IsFinite_iff] at hb
      rw [Bool.eq_false_iff, ne_eq, f64IsNaN_iff] at hnan
      rw [f64IsInf_iff]
      omega
    simp [fmul, hanan, hnan, hinf, ha, nanResult_isNaN]

/-- +0.0 plus a zero of either sign is +0.0. -/
theorem fadd_posZero_zero (k : Nat) {a : F64} (h : f64IsZero a = true) : fadd k 0#64 a = 0#64 := by
  have hzero : f64IsZero 0#64 = true := by decide
  have hsign : f64Sign 0#64 = false := by decide
  rw [fadd_finite k (finite_of_zero hzero) (finite_of_zero h), f64Int_of_zero hzero, f64Int_of_zero h, add_zero, if_pos rfl,
    hsign, Bool.false_and, Int.natAbs_zero, roundUnits_zero]
  decide

theorem speedFactor_zero (k : Nat) {speed : F64} (h : f64IsZero speed = true) : f64IsZero (fmul k speed mphFactor) = true :=
  fmul_zero_of_finite k h (by decide)

theorem dist_zero (k : Nat) {speed time : F64} (hs : f64IsZero speed = true) (ht : f64IsFinite time = true) :
    f64IsZero (dist k speed time) = true := fmul_zero_of_finite _ (speedFactor_zero k hs) ht

theorem dist_nan (k : Nat) {speed time : F64} (hs : f64IsZero speed = true) (ht : f64IsFinite time = false) :
    f64IsNaN (dist k speed time) = true := fmul_nan_of_not_finite _ (speedFactor_zero k hs) ht

theorem not_finite_of_nan {a : F64} (h : f64IsNaN a = true) : f64IsFinite a = false := by
  rw [Bool.eq_false_iff, ne_eq, f64IsFinite_iff]
  exact ((f64IsNaN_iff a).mp h).not_gt

theorem SameButNaN.finite_eq {a b : F64} (h : SameButNaN a b) : f64IsFinite a = f64IsFinite b := by
  rcases h with rfl | ⟨ha, hb⟩
  · rfl
  · rw [not_finite_of_nan ha, not_finite_of_nan hb]

/-- The loop's headings are any headings of the run, but for the patterns of NaNs. -/
theorem headings_same {b : Block} {n : Nat} {theta : Nat → F64} (h : HeadingsOf b n theta) (draws : Nat) :
    ∀ i, i ≤ n → SameButNaN (theta i) (trackLoop b draws i).theta := by
  obtain ⟨hstart, hnext⟩ := h
  intro i
  induction i with
  | zero => exact fun _ => .inl hstart
  | succ i ih =>
    intro hi
    obtain ⟨j, k, hsum⟩ := hnext i hi
    rw [hsum, trackLoop_theta_succ]
    exact fadd_same _ _ (ih (by omega)) (fmul_same _ _ (.inl rfl) (.inl rfl))

/-- The time and the heading of sample i are finite. -/
def SampleFinite (b : Block) (draws i : Nat) : Prop :=
  f64IsFinite (Memory.read .smTim b.tim.mem i) = true ∧ f64IsFinite (trackLoop b draws (i + 1)).theta = true

theorem sampleFinite_iff {b : Block} {n : Nat} {theta : Nat → F64} (h : HeadingsOf b n theta) (draws : Nat) {i : Nat}
    (hi : i < n) : SampleFinite b draws i ↔
      f64IsFinite (Memory.read .smTim b.tim.mem i) = true ∧ f64IsFinite (theta (i + 1)) = true := by
  rw [SampleFinite, (headings_same h draws (i + 1) hi).finite_eq]

section
variable {b : Block} (draws : Nat) {n : Nat}

theorem trackLoop_stays_at_origin (hspeed : ∀ i, i < n → f64IsZero (Memory.read .smSpd b.spd.mem i) = true)
    (hfin : ∀ i, i < n → SampleFinite b draws i) :
    (trackLoop b draws n).x = 0#64 ∧ (trackLoop b draws n).y = 0#64 := by
  induction n with
  | zero => exact ⟨rfl, rfl⟩
  | succ n ih =>
    obtain ⟨hx, hy⟩ := ih (fun i hi => hspeed i (by omega)) (fun i hi => hfin i (by omega))
    obtain ⟨htime, htheta⟩ := hfin n (by omega)
    have hdist := dist_zero (draws + 8 * n + 1) (hspeed n (by omega)) htime
    rw [trackLoop_x_succ, trackLoop_y_succ, hx, hy]
    exact ⟨fadd_posZero_zero _ (fmul_zero_of_finite _ hdist (finite_of_mag_le_one (f64Mag_cos64_le htheta))),
      fadd_posZero_zero _ (fmul_zero_of_finite _ hdist (finite_of_mag_le_one (f64Mag_sin64_le htheta)))⟩

/-- A sample of zero speed whose time or heading is not finite makes the position a NaN, whatever it was. -/
theorem trackLoop_nan_at (hspeed : f64IsZero (Memory.read .smSpd b.spd.mem n) = true) (hfin : ¬ SampleFinite b draws n) :
    f64IsNaN (trackLoop b draws (n + 1)).x = true ∧ f64IsNaN (trackLoop b draws (n + 1)).y = true := by
  rw [trackLoop_x_succ, trackLoop_y_succ]
  rw [SampleFinite, not_and_or, Bool.not_eq_true, Bool.not_eq_true] at hfin
  rcases hfin with htime | htheta
  · have hdist := dist_nan (draws + 8 * n + 1) hspeed htime
    exact ⟨fadd_nan _ (.inr (fmul_nan _ (.inl hdist))), fadd_nan _ (.inr (fmul_nan _ (.inl hdist)))⟩
  · exact ⟨fadd_nan _ (.inr (fmul_nan _ (.inr (f64IsNaN_cos64 htheta)))),
      fadd_nan _ (.inr (fmul_nan _ (.inr (f64IsNaN_sin64 htheta))))⟩

theorem trackLoop_stays_nan {m : Nat} (hmn : m ≤ n)
    (hnan : f64IsNaN (trackLoop b draws m).x = true ∧ f64IsNaN (trackLoop b draws m).y = true) :
    f64IsNaN (trackLoop b draws n).x = true ∧ f64IsNaN (trackLoop b draws n).y = true := by
  induction n, hmn using Nat.le_induction with
  | base => exact hnan
  | succ n _ ih =>
    obtain ⟨hx, hy⟩ := ih
    exact ⟨fadd_nan _ (.inl hx), fadd_nan _ (.inl hy)⟩

end

theorem Memory.read_of_get? (name : MemName) {m : Memory} {i : Nat} {v : F64} (h : Table.get? m i = some v) :
    Memory.read name m i = v := by
  rw [Memory.read, h, Option.getD_some]

/-- Settles O27: entry i is the loop's position after sample i, which is the origin or a NaN as the samples up to i say. -/
theorem zeroSpeedStaysAtOrigin : Obligations.ZeroSpeedStaysAtOrigin := by
  intro s theta haligned hheadings hspeed
  refine ⟨_, execIntegrate_ok haligned, rfl, fun i hi hfin => ?origin, fun j hj hbad i hji hi => ?nan⟩
  all_goals
    have hxm := (get?_trackLoop_xm s.blk s.draws s.blk.spd.len.toNat i).trans (if_pos hi)
    have hym := (get?_trackLoop_ym s.blk s.draws s.blk.spd.len.toNat i).trans (if_pos hi)
  case origin =>
    obtain ⟨hx, hy⟩ := trackLoop_stays_at_origin s.draws (fun j hj => hspeed j (by omega))
      (fun j hj => (sampleFinite_iff hheadings s.draws (by omega)).mpr (hfin j (Nat.lt_succ_iff.mp hj)))
    exact ⟨hxm.trans (congrArg some hx), hym.trans (congrArg some hy)⟩
  case nan =>
    have hnot : ¬ SampleFinite s.blk s.draws j := by
      rw [sampleFinite_iff hheadings s.draws hj, not_and_or, Bool.not_eq_true, Bool.not_eq_true]
      exact hbad
    obtain ⟨hx, hy⟩ := trackLoop_stays_nan s.draws (Nat.succ_le_succ hji) (trackLoop_nan_at s.draws (hspeed j hj) hnot)
    exact ⟨(congrArg _ (Memory.read_of_get? .xm hxm)).trans hx, (congrArg _ (Memory.read_of_get? .ym hym)).trans hy⟩

end Sys2Proof.Machine
end

section
/-! A timestamp in seconds (40_frame_extract.md R124): both operands of its division are exact, and their common factor, the scale
of the units, does not show in the quotient. -/
namespace Sys2Proof.Machine

theorem unitScale_pos : 0 < unitScale := by
  unfold unitScale
  positivity

/-- Bounds on the scale need only its exponent, so that no proof evaluates the power. -/
theorem exists_unitScale_eq : ∃ e, e ≤ 1074 ∧ unitScale = 2 ^ e := ⟨1074, le_rfl, rfl⟩

/-- A significand of 53 bits at a scale is rounded to itself. -/
theorem roundUnits_significand {k r : Nat} (hlow : 2 ^ 52 ≤ r) (hhigh : r < 2 ^ 53) (hk : k < 2046) :
    roundUnits (r * 2 ^ k) 1 = k * 2 ^ 52 + r := by
  have hpos : 0 < 2 ^ k := Nat.two_pow_pos k
  have hlog : Nat.log2 (r * 2 ^ k) = 52 + k := by
    rw [Nat.log2_eq_iff (Nat.mul_ne_zero (by omega) hpos.ne'), Nat.pow_add, Nat.add_right_comm, Nat.pow_add]
    exact ⟨Nat.mul_le_mul_right _ hlow, (Nat.mul_lt_mul_right hpos).mpr hhigh⟩
  unfold roundUnits infBits
  simp only [Nat.div_one, hlog, Nat.add_sub_cancel_left, Nat.one_mul, Nat.mul_div_cancel _ hpos, Nat.mul_mod_left]
  rw [if_neg (by omega)]
  omega

/-- A number below 2^53 converts exactly: shifted left to 53 bits it is a significand (00_scope.md R11). -/
theorem toF64_exact {n : Nat} (hn : n < 2 ^ 53) :
    f64IsFinite (toF64 n) = true ∧ f64Sign (toF64 n) = false ∧ f64Units (toF64 n) = n * unitScale := by
  by_cases hzero : n = 0
  · subst hzero
    exact ⟨by decide, by decide, (f64Units_of_zero (by decide)).trans (Nat.zero_mul _).symm⟩
  have hlog : n.log2 ≤ 52 := Nat.lt_succ_iff.mp ((Nat.log2_lt hzero).mpr hn)
  obtain ⟨j, hj⟩ := Nat.exists_eq_add_of_le hlog
  have hlow : 2 ^ 52 ≤ n * 2 ^ j := by
    rw [hj, Nat.pow_add]
    exact Nat.mul_le_mul_right _ (Nat.log2_self_le hzero)
  have hhigh : n * 2 ^ j < 2 ^ 53 := by
    have hexp : 53 = n.log2 + 1 + j := by omega
    rw [hexp, Nat.pow_add]
    exact (Nat.mul_lt_mul_right (Nat.two_pow_pos j)).mpr Nat.lt_log2_self
  have hsplit : n * unitScale = n * 2 ^ j * 2 ^ (1074 - j) := by
    rw [Nat.mul_assoc, ← Nat.pow_add, Nat.add_sub_cancel' (by omega), unitScale]
  rw [toF64, if_neg hzero, f64IsFinite_iff, f64Units_eq, f64Mag_packF64 _ (roundUnits_lt _ _), f64Sign_packF64, hsplit,
    roundUnits_significand hlow hhigh (by omega), magUnits_scaled (.inr hlow) hhigh.le, infBits]
  exact ⟨by omega, rfl, rfl⟩

/-- A quotient below 2^2097 units rounds to a finite magnitude. -/
theorem roundUnits_lt_infBits {p q : Nat} (h : Nat.log2 (p / q) < 2097) : roundUnits p q < infBits := by
  obtain ⟨-, hr⟩ := rounding_scale p q
  unfold roundUnits infBits
  simp only
  split <;> omega

theorem NearestEven.of_scaled {r : F64} {num : Int} {den c : Nat} (hc : 0 < c)
    (h : NearestEven r (num * c) (den * c)) : NearestEven r num den := by
  have hscale : ∀ a : Int, |a * (den * c : Nat) - num * c| = |a * den - num| * c := fun a => by
    rw [Nat.cast_mul, ← mul_assoc, ← sub_mul, abs_mul, Nat.abs_cast]
  have hpos : (0 : Int) < c := by exact_mod_cast hc
  obtain ⟨hfin, hnear⟩ := h
  refine ⟨hfin, fun y hy => ?_⟩
  obtain ⟨hle, htie⟩ := hnear y hy
  rw [hscale, hscale] at hle htie
  exact ⟨le_of_mul_le_mul_right hle hpos, fun heq => htie (congrArg (· * (c : Int)) heq)⟩

/-- A factor common to dividend and divisor does not show in the rounded quotient. -/
theorem packF64_scaled_quotient_nearest {p q c : Nat} (hq : 0 < q) (hc : 0 < c) (hlog : Nat.log2 (p / q) < 2097) :
    NearestEven (packF64 false (roundUnits (p * c) (q * c))) p q := by
  have hfin : f64IsFinite (packF64 false (roundUnits (p * c) (q * c))) = true := by
    rw [f64IsFinite_iff, f64Mag_packF64 _ (roundUnits_lt _ _)]
    exact roundUnits_lt_infBits (by rwa [Nat.mul_div_mul_right _ _ hc])
  have hnear := packF64_nearest false ((p * c : Nat) : Int) (Nat.mul_pos hq hc) (Int.natCast_nonneg _) hfin
  exact NearestEven.of_scaled hc (by exact_mod_cast hnear)

/-- The division by 1000 is no special case, so it makes no draw. -/
theorem timestampSeconds_eq (k : Nat) (t : BitVec 16) :
    timestampSeconds k t = packF64 false (roundUnits (t.toNat * unitScale * unitScale) (1000 * unitScale)) := by
  obtain ⟨hfin, hsign, hunits⟩ := toF64_exact (n := t.toNat) (t.isLt.trans (by decide))
  obtain ⟨hfin', hsign', hunits'⟩ := toF64_exact (n := 1000) (by decide)
  have hzero : f64IsZero (toF64 1000) = false := Bool.eq_false_iff.mpr fun hz => by
    have hpos : 0 < 1000 * unitScale := Nat.mul_pos (by decide) unitScale_pos
    exact hpos.ne ((f64Units_of_zero hz).symm.trans hunits')
  rw [timestampSeconds, fdiv_finite k hfin hfin' hzero, hsign, hsign', hunits, hunits']
  rfl

theorem log2_timestamp_lt (t : BitVec 16) : Nat.log2 (t.toNat * unitScale / 1000) < 2097 := by
  obtain ⟨e, he, hscale⟩ := exists_unitScale_eq
  have hlt : t.toNat * unitScale / 1000 < 2 ^ (16 + e) := by
    rw [Nat.pow_add, ← hscale]
    exact (Nat.div_le_self _ _).trans_lt ((Nat.mul_lt_mul_right unitScale_pos).mpr t.isLt)
  have hlog := Nat.log_lt_of_lt_pow' (by omega) hlt
  rw [Nat.log2_eq_log_two]
  omega

theorem timestampSeconds_nearest (k : Nat) (t : BitVec 16) :
    NearestEven (timestampSeconds k t) (t.toNat * unitScale) 1000 := by
  rw [timestampSeconds_eq, ← Nat.cast_mul]
  exact packF64_scaled_quotient_nearest (by decide) unitScale_pos (log2_timestamp_lt t)

theorem f64Sign_timestampSeconds (k : Nat) (t : BitVec 16) : f64Sign (timestampSeconds k t) = false := by
  rw [timestampSeconds_eq, f64Sign_packF64]

end Sys2Proof.Machine
end

section
/-! PROCESS_FRAME (44_pipeline_control.md R224): its errors in the order of its checks, each after RES_FLAGS <- 0, and the registers
that a frame without an error commits. -/
namespace Sys2Proof.Machine

/-- An error that PROCESS_FRAME raises leaves the block with RES_FLAGS = 0, whatever else stood in it. -/
theorem EndsWithError.of_clearReading {s t : State} {code : ErrCode} {info expected actual : Word}
    (h : EndsWithError (clearReading s) t (clearReading s).blk code info expected actual) :
    EndsWithError s t { s.blk with readingValid := false, checksumOk := false } code info expected actual := h

theorem FieldAt.unique {w o : Nat} {u v : BitVec w} {bits : BitVec 128} (hu : FieldAt u o bits) (hv : FieldAt v o bits) :
    u = v :=
  BitVec.eq_of_getLsbD_eq fun b hb => (hu b hb).trans (hv b hb).symm

/-- A frame's symbols determine its fields. -/
theorem FieldsAre.unique {f g : Fields} {bits : BitVec 128} (hf : FieldsAre f bits) (hg : FieldsAre g bits) : f = g := by
  obtain ⟨hsof, hid, hstuff, hide, hrsvd, hmsgLen, hts, hdata, hcrc, hcrcDel, hack, hackDel, heof, hifs⟩ := hf
  obtain ⟨ksof, kid, kstuff, kide, krsvd, kmsgLen, kts, kdata, kcrc, kcrcDel, kack, kackDel, keof, kifs⟩ := hg
  cases f
  cases g
  rw [Fields.mk.injEq]
  exact ⟨hsof.unique ksof, hid.unique kid, hstuff.unique kstuff, hide.unique kide, hrsvd.unique krsvd,
    hmsgLen.unique kmsgLen, hts.unique kts, hdata.unique kdata, hcrc.unique kcrc, hcrcDel.unique kcrcDel,
    hack.unique kack, hackDel.unique kackDel, heof.unique keof, hifs.unique kifs⟩

theorem readingReads_of_idle {s : State} (hb : s.blk.busy = false) : ReadingReads s := by
  have hread := hostReadValue_of_idle hb
  refine ⟨fieldReads_of_idle hb, hread .resId, ?ts, ?data, hread .resChk, ?cal, hread .resFlags⟩
  case ts =>
    rw [hread .resTsHi, hread .resTsLo]
    exact hi32_append_lo32 s.blk.resTs
  case data =>
    rw [hread .resDataHi, hread .resDataLo]
    exact hi32_append_lo32 s.blk.resData
  case cal =>
    rw [hread .resCalHi, hread .resCalLo]
    exact hi32_append_lo32 s.blk.resCal

/-- Settles O24: the lock, the shape check, the catalog's range, then the checksum, and the calibration entry only after it. -/
theorem processFrameFollowsPipeline : Obligations.ProcessFrameFollowsPipeline := by
  refine ⟨rfl, fun s => ⟨fun hlock => ?unlocked, fun hlock hbad => ?symbol, fun hlock hbad hcount => ?length,
    fun f hlock hbad hcount hf => ?frame⟩⟩
  case unlocked =>
    exact ⟨_, execProcessFrame_unlocked hlock, (raiseError_endsWithError _ _ packErrInfo_notConfigured).of_clearReading⟩
  case symbol =>
    exact ⟨_, execProcessFrame_shape hlock (checkShape_of_bad hbad _ _ _ _),
      (symbolRaise_endsWithError _ _ _ (by decide)).of_clearReading⟩
  case length =>
    exact ⟨_, execProcessFrame_shape hlock (checkShape_of_length hbad hcount _ _ _),
      (lengthRaise_endsWithError _ _ _ _ (by decide)).of_clearReading⟩
  case frame =>
    have hshape : checkShape s.blk.opa 1#4 121 0xFF#8 .parser = none := checkShape_none.mpr ⟨hbad, hcount⟩
    obtain rfl := hf.unique (frameFields_fieldsAre s.blk.opa)
    refine ⟨fun hid => ?unknown, fun hid hsum hentry => ?uncalibrated, fun hid hsum hentry => ?reading,
      fun hid hsum => ?mismatch⟩
    case unknown =>
      exact ⟨_, execProcessFrame_unknownId hlock hshape hid,
        (raiseError_endsWithError _ _ (packErrInfo_unknownIdentity _ _)).of_clearReading⟩
    case uncalibrated =>
      exact ⟨_, execProcessFrame_uncalibrated hlock hshape hid hsum (calLookup_none hentry),
        (unknownCalibration_endsWithError _ _ _ (by decide)).of_clearReading⟩
    case reading =>
      exact ⟨_, s.draws + 1 + 1, s.draws + 1, execProcessFrame_reading hlock hshape hid hsum (calLookup_some hentry),
        succeed_completesWith s _ (s.draws + 3), timestampSeconds_nearest _ _, f64Sign_timestampSeconds _ _,
        chkBits_toNat _, readingReads_of_idle rfl⟩
    case mismatch =>
      exact ⟨_, execProcessFrame_mismatch hlock hshape hid hsum, succeed_completesWith s _ (s.draws + 1),
        timestampSeconds_nearest _ _, f64Sign_timestampSeconds _ _, chkBits_toNat _, readingReads_of_idle rfl⟩

end Sys2Proof.Machine
end

section
/-! PROCESS_FRAME and the separate commands (44_pipeline_control.md R225): what a frame without an error commits, said once, and each
command on the frame's own field. -/
namespace Sys2Proof.Machine

/-- What PROCESS_FRAME has committed where it ends without an error. -/
structure FrameCommitted (s t : State) : Prop where
  shape : checkShape s.blk.opa 1#4 121 0xFF#8 .parser = none
  fields : t.blk.fields = frameFields s.blk.opa
  known : t.blk.fields.id.toNat < s.blk.sensorCount.toNat
  resId : t.blk.resId = t.blk.fields.id
  resTs : t.blk.resTs = timestampSeconds s.draws t.blk.fields.ts
  resSum : t.blk.resSum = chkBits t.blk.fields.data
  resMatch : t.blk.resMatch = true ↔ t.blk.fields.crc.toNat = chk t.blk.fields.data
  reading : t.blk.readingValid = true → ∃ e, calLookup s.blk t.blk.resId = some e ∧
    t.blk.resCal = calibrated (s.draws + 1) t.blk.fields.data e

/-- The shape check's errors are those of its mode (40_frame_extract.md R120). -/
theorem checkShape_code {x : OpBuf} {opn : BitVec 4} {w : Nat} {j : BitVec 8} {mode : ShapeMode} {r : Raise}
    (h : checkShape x opn w j mode = some r) : r.code = mode.symbolError ∨ r.code = mode.lengthError := by
  rcases checkShape_some.mp h with ⟨-, rfl⟩ | ⟨-, -, rfl⟩
  · exact .inl rfl
  · exact .inr rfl

/-- An operand of the wrong width is a decoder's DecodeError, whether or not a symbol in it is bad too. -/
theorem checkShape_decoder_of_count_ne {x : OpBuf} {w : Nat} (h : x.count.toNat ≠ w) (opn : BitVec 4) (j : BitVec 8) :
    ∃ r, checkShape x opn w j .decoder = some r ∧ r.code = .decodeError := by
  have hfails : checkShape x opn w j .decoder ≠ none := fun hnone => h (checkShape_none.mp hnone).2
  obtain ⟨r, hr⟩ := Option.ne_none_iff_exists'.mp hfails
  exact ⟨r, hr, (checkShape_code hr).elim id id⟩

/-- The shape check of PARSE, VERIFY and PROCESS_FRAME raises no DecodeError. -/
theorem checkShape_parser_code {x : OpBuf} {opn : BitVec 4} {w : Nat} {j : BitVec 8} {r : Raise}
    (h : checkShape x opn w j .parser = some r) : r.code ≠ .ok ∧ r.code ≠ .decodeError := by
  rcases checkShape_code h with hcode | hcode
  all_goals
    rw [hcode]
    exact ⟨nofun, nofun⟩

/-- PROCESS_FRAME ends with an error that is no DecodeError, or commits the frame. -/
theorem execProcessFrame_error_or_committed {s t : State} (h : execProcessFrame s = .next t) :
    (t.blk.err ≠ .ok ∧ t.blk.err ≠ .decodeError) ∨ (t.blk.err = .ok ∧ FrameCommitted s t) := by
  rcases execProcessFrame_cases h with ⟨-, rfl⟩ | ⟨r, -, hr, rfl⟩ | ⟨-, -, -, rfl⟩ | ⟨-, -, -, -, -, rfl⟩ |
    ⟨e, -, hshape, hid, hsum, hentry, rfl⟩ | ⟨-, hshape, hid, hsum, rfl⟩
  · exact .inl ⟨nofun, nofun⟩
  · exact .inl (checkShape_parser_code hr)
  · exact .inl ⟨nofun, nofun⟩
  · exact .inl ⟨nofun, nofun⟩
  · exact .inr ⟨rfl, hshape, rfl, hid, rfl, rfl, rfl, iff_of_true rfl hsum, fun _ => ⟨e, hentry, rfl⟩⟩
  · exact .inr ⟨rfl, hshape, rfl, hid, rfl, rfl, rfl, iff_of_false nofun hsum, nofun⟩

/-- A timestamp does not depend on its draw. -/
theorem timestampSeconds_draw (j k : Nat) (t : BitVec 16) : timestampSeconds j t = timestampSeconds k t := by
  rw [timestampSeconds_eq, timestampSeconds_eq]

theorem calibrated_same (j k : Nat) (raw : F64) (e : CalEntry) :
    SameButNaN (calibrated j raw e) (calibrated k raw e) :=
  fmul_same _ _ (fadd_same _ _ (.inl rfl) (.inl rfl)) (.inl rfl)

/-- The lookup reads CAL_DEPTH and the table alone. -/
theorem calLookup_congr {b c : Block} (hdepth : b.calDepth = c.calDepth) (hcal : b.cal = c.cal) (id : BitVec 11) :
    calLookup b id = calLookup c id := by
  rw [calLookup, calLookup, hdepth, hcal]

section
variable {s t : State}

theorem FrameCommitted.parse (h : FrameCommitted s t) :
    ∃ u, execParse s = .next u ∧ u.blk.err = .ok ∧ u.blk.fields = t.blk.fields :=
  ⟨_, execParse_ok h.shape, rfl, h.fields.symm⟩

theorem FrameCommitted.decodeId (h : FrameCommitted s t) {q : State} (hlock : q.blk.cfgLock = true)
    (hcount : q.blk.sensorCount = s.blk.sensorCount) (hid : Denotes q.blk.opa 11 t.blk.fields.id) :
    ∃ u, execDecodeId q = .next u ∧ u.blk.err = .ok ∧ u.blk.resId = t.blk.resId := by
  have hval := val_eq_of_denotes hid
  have hknown : (val q.blk.opa 11).toNat < q.blk.sensorCount.toNat := by rw [hval, hcount]; exact h.known
  exact ⟨_, execDecodeId_ok hlock (checkShape_of_denotes hid _ _ _) hknown, rfl, hval.trans h.resId.symm⟩

theorem FrameCommitted.decodeTs (h : FrameCommitted s t) {q : State} (hts : Denotes q.blk.opa 16 t.blk.fields.ts) :
    ∃ u, execDecodeTs q = .next u ∧ u.blk.err = .ok ∧ u.blk.resTs = t.blk.resTs := by
  refine ⟨_, execDecodeTs_ok (checkShape_of_denotes hts _ _ _), rfl, ?_⟩
  rw [h.resTs, ← val_eq_of_denotes hts]
  exact timestampSeconds_draw _ _ _

theorem FrameCommitted.verify (h : FrameCommitted s t) {q : State} (hdata : Denotes q.blk.opa 64 t.blk.fields.data)
    (hcrc : Denotes q.blk.opb 15 t.blk.fields.crc) :
    ∃ u, execVerify q = .next u ∧ u.blk.err = .ok ∧ u.blk.resSum = t.blk.resSum ∧ u.blk.resMatch = t.blk.resMatch := by
  have ⟨hbad, hcount, _⟩ := hcrc
  obtain ⟨u, hexec, hdone, hsum, hmatch⟩ := execVerify_verdict hdata hcount
  rw [val_eq_of_denotes hcrc, and_iff_right hbad] at hmatch
  exact ⟨u, hexec, hdone.err, hsum.trans h.resSum.symm, Bool.eq_iff_iff.mpr (hmatch.trans h.resMatch.symm)⟩

theorem FrameCommitted.calibrate (h : FrameCommitted s t) {q : State} (hvalid : t.blk.readingValid = true)
    (hlock : q.blk.cfgLock = true) (hdepth : q.blk.calDepth = s.blk.calDepth) (hcal : q.blk.cal = s.blk.cal)
    (hid : q.blk.calIdIn = t.blk.resId) (hraw : q.blk.raw = t.blk.fields.data) :
    ∃ u, execCalibrate q = .next u ∧ u.blk.err = .ok ∧ SameButNaN u.blk.resCal t.blk.resCal := by
  obtain ⟨e, hentry, hresult⟩ := h.reading hvalid
  have hlookup : calLookup q.blk q.blk.calIdIn = some e := by rw [hid, calLookup_congr hdepth hcal, hentry]
  refine ⟨_, execCalibrate_ok hlock hlookup, rfl, ?_⟩
  rw [hresult, ← hraw]
  exact calibrated_same _ _ _ _

end

/-- Settles O25: a frame that ends without an error is committed, and each separate command computes what was committed. -/
theorem pipelineMatchesCommands : Obligations.PipelineMatchesCommands := by
  refine ⟨fun s t ht => ?pipeline, fun q hcount => ?decodeTs, fun q hcount => ?decodeData,
    fun q hlock hcount => ?decodeId⟩
  case pipeline =>
    rcases execProcessFrame_error_or_committed ht with ⟨hfailed, hkind⟩ | ⟨hok, hcommitted⟩
    · exact ⟨hkind, fun hok => absurd hok hfailed⟩
    · exact ⟨by rw [hok]; decide, fun _ => ⟨hcommitted.parse, fun _ => hcommitted.decodeId, fun _ => hcommitted.decodeTs,
        fun _ => hcommitted.verify, fun _ => hcommitted.calibrate⟩⟩
  case decodeTs =>
    obtain ⟨r, hr, hcode⟩ := checkShape_decoder_of_count_ne hcount 1#4 6#8
    exact ⟨_, execDecodeTs_error hr, hcode⟩
  case decodeData =>
    obtain ⟨r, hr, hcode⟩ := checkShape_decoder_of_count_ne hcount 1#4 7#8
    exact ⟨_, execDecodeData_error hr, hcode⟩
  case decodeId =>
    obtain ⟨r, hr, hcode⟩ := checkShape_decoder_of_count_ne hcount 1#4 1#8
    exact ⟨_, execDecodeId_shape hlock hr, hcode⟩

end Sys2Proof.Machine
end

section
/-! Issue of a command (44_pipeline_control.md R220, 20_memory.md R77): the idle block takes the word, the busy one drops it. -/
namespace Sys2Proof.Machine

/-- Settles O4: an issue while idle; while busy the host's write of any register is dropped. -/
theorem issueLatchesCommand : Obligations.IssueLatchesCommand := by
  refine fun s o w rest ho hr => ⟨fun hidle => ?issued, fun hbusy hwait => ?dropped⟩
  case issued => exact ⟨_, step_issue ho hr hidle, rfl, rfl, issue_blk w _⟩
  case dropped =>
    obtain ⟨t, hstep, hblk, -⟩ := busyWritesAreDropped s o w rest ho hbusy hwait
    exact ⟨t, hstep, hblk⟩

end Sys2Proof.Machine
end

section
/-! The configuration lock (70_reset_and_hazards.md R282): completions never touch the lock, SENSOR_COUNT or CAL, and under the
lock no host access does but reset. -/
namespace Sys2Proof.Machine

/-- Two blocks with the same configuration: the lock and what it protects (10_state.md R28, 20_memory.md R74). -/
structure SameConfig (b c : Block) : Prop where
  cfgLock : c.cfgLock = b.cfgLock
  sensorCount : c.sensorCount = b.sensorCount
  cal : c.cal = b.cal

/-- No command writes the configuration, whether it succeeds or ends with an error. -/
theorem exec_sameConfig {i : Instr} {s t : State} (h : exec i s = .next t) : SameConfig s.blk t.blk := by
  cases i with
  | nop => cases h; exact ⟨rfl, rfl, rfl⟩
  | parse => obtain ⟨r, -, rfl⟩ | ⟨-, rfl⟩ := execParse_cases h <;> exact ⟨rfl, rfl, rfl⟩
  | decodeId =>
    obtain ⟨-, rfl⟩ | ⟨r, -, -, rfl⟩ | ⟨-, -, -, rfl⟩ | ⟨-, -, -, rfl⟩ := execDecodeId_cases h <;> exact ⟨rfl, rfl, rfl⟩
  | decodeTs => obtain ⟨r, -, rfl⟩ | ⟨-, rfl⟩ := execDecodeTs_cases h <;> exact ⟨rfl, rfl, rfl⟩
  | decodeData => obtain ⟨r, -, rfl⟩ | ⟨-, rfl⟩ := execDecodeData_cases h <;> exact ⟨rfl, rfl, rfl⟩
  | verify => obtain ⟨r, -, rfl⟩ | ⟨-, -, rfl⟩ | ⟨-, -, rfl⟩ := execVerify_cases h <;> exact ⟨rfl, rfl, rfl⟩
  | calibrate => obtain ⟨-, rfl⟩ | ⟨-, -, rfl⟩ | ⟨e, -, -, rfl⟩ := execCalibrate_cases h <;> exact ⟨rfl, rfl, rfl⟩
  | processFrame =>
    obtain ⟨-, rfl⟩ | ⟨r, -, -, rfl⟩ | ⟨-, -, -, rfl⟩ | ⟨-, -, -, -, -, rfl⟩ | ⟨e, -, -, -, -, -, rfl⟩ | ⟨-, -, -, -, rfl⟩ :=
      execProcessFrame_cases h <;> exact ⟨rfl, rfl, rfl⟩
  | integrate =>
    obtain ⟨-, rfl⟩ | ⟨-, -, rfl⟩ | ⟨-, -, -, rfl⟩ | ⟨-, -, -, rfl⟩ := execIntegrate_cases h <;> exact ⟨rfl, rfl, rfl⟩
  | clrSamples => cases h; exact ⟨rfl, rfl, rfl⟩

theorem completionStep_sameConfig {s t : State} (h : completionStep s = .next t) : SameConfig s.blk t.blk := by
  obtain ⟨i, -, hs⟩ | ⟨e, -, hs⟩ := completionStep_cases s
  case inl => exact exec_sameConfig (hs ▸ h)
  case inr =>
    cases hs.symm.trans h
    exact ⟨rfl, rfl, rfl⟩

theorem writeSensorCount_locked_sameConfig {b : Block} (hlock : b.cfgLock = true) (v : Word) :
    SameConfig b (writeSensorCount v b) := by
  rw [writeSensorCount, if_pos hlock]
  exact ⟨rfl, rfl, rfl⟩

theorem writeCal_locked_sameConfig {b : Block} (hlock : b.cfgLock = true) (f : CalEntry → CalEntry) :
    SameConfig b (writeCal f b) := by
  obtain ⟨-, hw⟩ | ⟨-, -, hw⟩ | ⟨hopen, -, -⟩ := writeCal_cases f b
  case inl | inr.inl => rw [hw]; exact ⟨rfl, rfl, rfl⟩
  case inr.inr => rw [hlock] at hopen; cases hopen

/-- Under the lock no register write changes the configuration: CTRL only sets the lock again, and the writes the lock drops
set CFGERR at most (20_memory.md R72, R74). -/
theorem writeReg_locked_sameConfig {b : Block} (hlock : b.cfgLock = true) (r : Reg) (v : Word) :
    SameConfig b (writeReg r v b) := by
  cases r
  case ctrl => exact ⟨by simp [writeReg, hlock], rfl, rfl⟩
  case sensorCount => exact writeSensorCount_locked_sameConfig hlock v
  case calWLo | calWHi | calBLo | calBHi | calValid => unfold writeReg; exact writeCal_locked_sameConfig hlock _
  all_goals exact ⟨rfl, rfl, rfl⟩

theorem hostWrite_locked_sameConfig {s : State} (hlock : s.blk.cfgLock = true) (o : Offset) (v : Word) :
    SameConfig s.blk (hostWrite o v s).blk := by
  obtain ⟨-, hw⟩ | ⟨-, hw⟩ := hostWrite_cases o v s
  case inl => rw [hw]; exact ⟨rfl, rfl, rfl⟩
  case inr =>
    obtain ⟨-, hi⟩ | ⟨r, -, -, hi⟩ | ⟨-, hi⟩ := idleWrite_cases o v s <;> rw [hw, hi]
    case inl => exact ⟨rfl, rfl, rfl⟩
    case inr.inl => exact writeReg_locked_sameConfig hlock r v
    case inr.inr => exact ⟨rfl, rfl, rfl⟩

/-- Under the lock the host's next operation keeps the configuration, or it is reset. -/
theorem hostStep_locked {s : State} (hlock : s.blk.cfgLock = true) (op : HostOp) (rest : List HostOp) :
    SameConfig s.blk (hostStep op rest s).blk ∨
    (op = .reset ∧ (hostStep op rest s).blk = Block.reset s.blk.calDepth s.blk.sampleDepth) := by
  obtain ⟨o, v, -, hs⟩ | ⟨o, -, hs⟩ | ⟨o, m, v, -, -, hs⟩ | ⟨hop, hs⟩ := hostStep_cases op rest s <;> rw [hs]
  case inl => exact .inl (hostWrite_locked_sameConfig (s := takeOp rest s) hlock o v)
  case inr.inl | inr.inr.inl => exact .inl ⟨rfl, rfl, rfl⟩
  case inr.inr.inr => exact .inr ⟨hop, rfl⟩

/-- A step under the lock keeps the configuration, or it is the host's reset. -/
theorem step_locked {s t : State} (hstep : step s = .next t) (hlock : s.blk.cfgLock = true) :
    SameConfig s.blk t.blk ∨
    (s.ops.head? = some .reset ∧ t.blk = Block.reset s.blk.calDepth s.blk.sampleDepth) := by
  obtain ⟨-, hs⟩ | ⟨op, rest, -, hops, hs⟩ | ⟨-, -, hs⟩ := step_cases s
  case inl => exact .inl (completionStep_sameConfig (hs ▸ hstep))
  case inr.inl =>
    cases hs.symm.trans hstep
    exact (hostStep_locked hlock op rest).imp_right fun ⟨hop, hblk⟩ => ⟨by rw [hops, hop]; rfl, hblk⟩
  case inr.inr =>
    cases hs.symm.trans hstep
    exact .inl ⟨rfl, rfl, rfl⟩

/-- Settles O57: no completion and no host access but reset changes a locked configuration. -/
theorem lockHoldsUntilReset : Obligations.LockHoldsUntilReset := fun _ _ hstep hlock =>
  (step_locked hstep hlock).imp_left fun h => ⟨h.cfgLock.trans hlock, h.sensorCount, h.cal⟩

end Sys2Proof.Machine
end

section
/-! A command's completion in three parts (44_pipeline_control.md R221, R222, 60_exceptions.md R251): the error its checks raise,
the block it commits, and how many free values it draws. The first reads the block alone, so a completion depends on the rest of
the state only through the number of its first draw. -/
namespace Sys2Proof.Machine

/-- The error a command's checks raise on a block, none where they all pass. -/
def commandError : Instr → Block → Option Raise
  | .nop, _ | .clrSamples, _ => none
  | .parse, b => checkShape b.opa 1#4 121 0xFF#8 .parser
  | .decodeId, b =>
    if b.cfgLock = false then some notConfigured
    else (checkShape b.opa 1#4 11 1#8 .decoder).or
      (if b.sensorCount.toNat ≤ (val b.opa 11).toNat then some (unknownIdentity b.sensorCount (val b.opa 11)) else none)
  | .decodeTs, b => checkShape b.opa 1#4 16 6#8 .decoder
  | .decodeData, b => checkShape b.opa 1#4 64 7#8 .decoder
  | .verify, b =>
    (checkShape b.opa 1#4 64 7#8 .parser).or
      (if b.opb.count.toNat ≠ 15 then some (lengthRaise b.opb 2#4 15 8#8 .lengthMismatch) else none)
  | .calibrate, b =>
    if b.cfgLock = false then some notConfigured
    else if calLookup b b.calIdIn = none then some (unknownCalibration 0xFF#8 3#4 b.calDepth b.calIdIn)
    else none
  | .processFrame, b =>
    if b.cfgLock = false then some notConfigured
    else (checkShape b.opa 1#4 121 0xFF#8 .parser).or
      (if b.sensorCount.toNat ≤ (frameFields b.opa).id.toNat then
        some (unknownIdentity b.sensorCount (frameFields b.opa).id)
      else if (frameFields b.opa).crc.toNat = chk (frameFields b.opa).data ∧ calLookup b (frameFields b.opa).id = none then
        some (unknownCalibration 1#8 1#4 b.calDepth (frameFields b.opa).id)
      else none)
  | .integrate, b =>
    if b.tim.len ≠ b.spd.len then some (sequenceRaise 5#4 b.spd.len b.tim.len)
    else if b.ang.len ≠ b.spd.len then some (sequenceRaise 6#4 b.spd.len b.ang.len)
    else if b.sampleDepth.toNat < b.spd.len.toNat then some (capacityRaise b.sampleDepth b.spd.len)
    else none

/-- What a command writes to the block where its checks pass; `k` is the number of its first draw. -/
def commandResult : Instr → Nat → Block → Block
  | .nop, _, b => b
  | .parse, _, b => { b with fields := frameFields b.opa }
  | .decodeId, _, b => { b with resId := val b.opa 11 }
  | .decodeTs, k, b => { b with resTs := timestampSeconds k (val b.opa 16) }
  | .decodeData, _, b => { b with resData := val b.opa 64 }
  | .verify, _, b => { b with
      resSum := chkBits (val b.opa 64)
      resMatch := if b.opb.bad then false else decide ((val b.opb 15).toNat = chk (val b.opa 64)) }
  | .calibrate, k, b => { b with resCal := calibrated k b.raw (calGet b.cal b.calIdIn.toNat) }
  | .processFrame, k, b =>
    if (frameFields b.opa).crc.toNat = chk (frameFields b.opa).data then
      { commitFrame (frameFields b.opa) k true b with
        resCal := calibrated (k + 1) (frameFields b.opa).data (calGet b.cal (frameFields b.opa).id.toNat) }
    else commitFrame (frameFields b.opa) k false b
  | .integrate, k, b => commitTrack b b.spd.len (trackLoop b k b.spd.len.toNat)
  | .clrSamples, _, b => { b with
      spd := { b.spd with len := 0#16 }
      tim := { b.tim with len := 0#16 }
      ang := { b.ang with len := 0#16 } }

/-- How many free values a command draws where its checks pass. -/
def commandDraws : Instr → Block → Nat
  | .decodeTs, _ => 1
  | .calibrate, _ => 2
  | .processFrame, b => if (frameFields b.opa).crc.toNat = chk (frameFields b.opa).data then 3 else 1
  | .integrate, b => 8 * b.spd.len.toNat
  | .nop, _ | .parse, _ | .decodeId, _ | .decodeData, _ | .verify, _ | .clrSamples, _ => 0

/-- The state in which a command's checks run: PROCESS_FRAME has written RES_FLAGS <- 0 by then (R224). -/
def beforeChecks (i : Instr) (s : State) : State :=
  { s with blk := { s.blk with
      readingValid := if i = .processFrame then false else s.blk.readingValid
      checksumOk := if i = .processFrame then false else s.blk.checksumOk } }

/-- The state after a command whose checks pass. -/
def committed (i : Instr) (s : State) : State :=
  succeed { s with blk := commandResult i s.draws s.blk, draws := s.draws + commandDraws i s.blk }

theorem calLookup_of_ne_none {b : Block} {id : BitVec 11} (h : calLookup b id ≠ none) :
    calLookup b id = some (calGet b.cal id.toNat) :=
  calLookup_some (Classical.byContradiction fun hno => h (calLookup_none hno))

/-- The command's completion from `s` is the error `o`, or the commit of its result where `o` is none. -/
def CompletesAs (i : Instr) (s : State) (o : Option Raise) : Prop :=
  exec i s = .next (o.elim (committed i s) fun r => raiseError r (beforeChecks i s))

theorem CompletesAs.ite {i : Instr} {s : State} {o o' : Option Raise} {c : Prop} [Decidable c]
    (h : c → CompletesAs i s o) (h' : ¬c → CompletesAs i s o') : CompletesAs i s (if c then o else o') := by
  split
  case isTrue hc => exact h hc
  case isFalse hc => exact h' hc

theorem CompletesAs.or {i : Instr} {s : State} {o o' : Option Raise} (h : ∀ r, o = some r → CompletesAs i s (some r))
    (h' : o = none → CompletesAs i s o') : CompletesAs i s (o.or o') := by
  cases o with
  | some r => exact h r rfl
  | none => exact h' rfl

theorem CompletesAs.check {i : Instr} {s : State} {o : Option Raise} (h : ∀ r, o = some r → CompletesAs i s (some r))
    (h' : o = none → CompletesAs i s none) : CompletesAs i s o := by
  cases o with
  | some r => exact h r rfl
  | none => exact h' rfl

/-- PROCESS_FRAME with a known sensor: the checksum, and the calibration entry only after it (R224). -/
theorem execProcessFrame_known {s : State} (hl : s.blk.cfgLock = true)
    (hr : checkShape s.blk.opa 1#4 121 0xFF#8 .parser = none)
    (hv : (frameFields s.blk.opa).id.toNat < s.blk.sensorCount.toNat) :
    CompletesAs .processFrame s
      (if (frameFields s.blk.opa).crc.toNat = chk (frameFields s.blk.opa).data ∧
          calLookup s.blk (frameFields s.blk.opa).id = none then
        some (unknownCalibration 1#8 1#4 s.blk.calDepth (frameFields s.blk.opa).id)
      else none) := by
  refine .ite (fun ⟨hc, he⟩ => execProcessFrame_uncalibrated hl hr hv hc he) fun hpass => ?_
  rw [CompletesAs, Option.elim_none, committed, commandResult, commandDraws]
  by_cases hc : (frameFields s.blk.opa).crc.toNat = chk (frameFields s.blk.opa).data
  · rw [if_pos hc, if_pos hc]
    exact execProcessFrame_reading hl hr hv hc (calLookup_of_ne_none fun he => hpass ⟨hc, he⟩)
  · rw [if_neg hc, if_neg hc]
    exact execProcessFrame_mismatch hl hr hv hc

/-- A completion is the error of the command's checks, or the commit of its result. -/
theorem exec_completesAs (i : Instr) (s : State) : CompletesAs i s (commandError i s.blk) := by
  cases i with
  | nop | clrSamples => rfl
  | parse => exact .check (fun _ hr => execParse_error hr) fun hr => execParse_ok hr
  | decodeId =>
    refine .ite (fun hl => execDecodeId_unlocked hl) fun hl => ?_
    have hl := Bool.of_not_eq_false hl
    exact .or (fun _ hr => execDecodeId_shape hl hr) fun hr =>
      .ite (fun hv => execDecodeId_unknown hl hr hv) fun hv => execDecodeId_ok hl hr (Nat.lt_of_not_le hv)
  | decodeTs => exact .check (fun _ hr => execDecodeTs_error hr) fun hr => execDecodeTs_ok hr
  | decodeData => exact .check (fun _ hr => execDecodeData_error hr) fun hr => execDecodeData_ok hr
  | verify =>
    exact .or (fun _ hr => execVerify_error hr) fun hr =>
      .ite (fun hc => execVerify_length hr hc) fun hc => execVerify_ok hr (not_not.mp hc)
  | calibrate =>
    refine .ite (fun hl => execCalibrate_unlocked hl) fun hl => ?_
    have hl := Bool.of_not_eq_false hl
    exact .ite (fun he => execCalibrate_unknown hl he) fun he => execCalibrate_ok hl (calLookup_of_ne_none he)
  | processFrame =>
    refine .ite (fun hl => execProcessFrame_unlocked hl) fun hl => ?_
    have hl := Bool.of_not_eq_false hl
    exact .or (fun _ hr => execProcessFrame_shape hl hr) fun hr =>
      .ite (fun hv => execProcessFrame_unknownId hl hr hv) fun hv => execProcessFrame_known hl hr (Nat.lt_of_not_le hv)
  | integrate =>
    refine .ite (fun ht => execIntegrate_times ht) fun ht => ?_
    have ht := not_not.mp ht
    refine .ite (fun ha => execIntegrate_angles ht ha) fun ha => ?_
    have ha := not_not.mp ha
    exact .ite (fun hn => execIntegrate_capacity ht ha hn) fun hn => execIntegrate_ok ⟨ht, ha, Nat.le_of_not_lt hn⟩

theorem exec_eq (i : Instr) (s : State) : exec i s =
    .next ((commandError i s.blk).elim (committed i s) fun r => raiseError r (beforeChecks i s)) :=
  exec_completesAs i s

/-- What a completion can be. -/
theorem exec_cases {i : Instr} {s t : State} (h : exec i s = .next t) :
    (∃ r, commandError i s.blk = some r ∧ t = raiseError r (beforeChecks i s)) ∨
    (commandError i s.blk = none ∧ t = committed i s) := by
  have ht := Host.Outcome.next.inj (h.symm.trans (exec_eq i s))
  cases he : commandError i s.blk with
  | some r => exact .inl ⟨r, rfl, by rw [ht, he, Option.elim_some]⟩
  | none => exact .inr ⟨rfl, by rw [ht, he, Option.elim_none]⟩

theorem exec_of_pass {i : Instr} {s : State} (h : commandError i s.blk = none) : exec i s = .next (committed i s) := by
  rw [exec_eq, h, Option.elim_none]

theorem exec_of_error {i : Instr} {s : State} {r : Raise} (h : commandError i s.blk = some r) :
    exec i s = .next (raiseError r (beforeChecks i s)) := by
  rw [exec_eq, h, Option.elim_some]

theorem committed_blk (i : Instr) (s : State) : (committed i s).blk =
    { commandResult i s.draws s.blk with
      err := .ok, errInfo := 0#32, errExpected := 0#32, errActual := 0#32, busy := false } := succeed_blk _

/-- A check that raises nothing but errors with a code and with the reserved bits of ERR_INFO clear (10_state.md R29). -/
def RaisesLegally (o : Option Raise) : Prop := ∀ r, o = some r → RaiseLegal r

theorem raisesLegally_none : RaisesLegally none := nofun

theorem raiseLegal_mk {code : ErrCode} {field : BitVec 8} {operand subcode : BitVec 4} {position : BitVec 16}
    {expected actual : Word} (hcode : code ≠ .ok) (hoperand : operand.getLsbD 3 = false)
    (hsubcode : subcode.getLsbD 3 = false) :
    RaiseLegal ⟨code, field, operand, subcode, position, expected, actual⟩ := ⟨hcode, hoperand, hsubcode⟩

theorem raisesLegally_some {r : Raise} (h : RaiseLegal r) : RaisesLegally (some r) := fun _ hr => Option.some.inj hr ▸ h

theorem RaisesLegally.ite {o o' : Option Raise} {c : Prop} [Decidable c] (h : RaisesLegally o) (h' : RaisesLegally o') :
    RaisesLegally (if c then o else o') := by
  split
  · exact h
  · exact h'

theorem RaisesLegally.or {o o' : Option Raise} (h : RaisesLegally o) (h' : RaisesLegally o') :
    RaisesLegally (o.or o') := by
  cases o with
  | none => exact h'
  | some r => exact h

theorem checkShape_raisesLegally (x : OpBuf) (w : Nat) (j : BitVec 8) (mode : ShapeMode) :
    RaisesLegally (checkShape x 1#4 w j mode) := fun _ => checkShape_legal (by decide)

theorem lengthRaise_legal (x : OpBuf) (w : Nat) (j : BitVec 8) : RaiseLegal (lengthRaise x 2#4 w j .lengthMismatch) :=
  raiseLegal_mk (by decide) (by decide) (by decide)

theorem notConfigured_legal : RaiseLegal notConfigured := raiseLegal_mk (by decide) (by decide) (by decide)

theorem unknownIdentity_legal (n : BitVec 12) (id : BitVec 11) : RaiseLegal (unknownIdentity n id) :=
  raiseLegal_mk (by decide) (by decide) (by decide)

theorem unknownCalibration_legal (field : BitVec 8) {operand : BitVec 4} (hoperand : operand.getLsbD 3 = false)
    (depth : BitVec 12) (id : BitVec 11) : RaiseLegal (unknownCalibration field operand depth id) :=
  raiseLegal_mk (by decide) hoperand (by decide)

theorem sequenceRaise_legal {operand : BitVec 4} (hoperand : operand.getLsbD 3 = false) (expected actual : BitVec 16) :
    RaiseLegal (sequenceRaise operand expected actual) := raiseLegal_mk (by decide) hoperand (by decide)

theorem capacityRaise_legal (depth n : BitVec 16) : RaiseLegal (capacityRaise depth n) :=
  raiseLegal_mk (by decide) (by decide) (by decide)

theorem commandError_raisesLegally (i : Instr) (b : Block) : RaisesLegally (commandError i b) := by
  have shape := checkShape_raisesLegally b.opa
  have fails {r : Raise} (h : RaiseLegal r) {c : Prop} [Decidable c] {o : Option Raise} (ho : RaisesLegally o) :
      RaisesLegally (if c then some r else o) := (raisesLegally_some h).ite ho
  have none := raisesLegally_none
  cases i with
  | nop | clrSamples => exact none
  | parse | decodeTs | decodeData => exact shape _ _ _
  | decodeId => exact fails notConfigured_legal ((shape _ _ _).or (fails (unknownIdentity_legal _ _) none))
  | verify => exact (shape _ _ _).or (fails (lengthRaise_legal _ _ _) none)
  | calibrate => exact fails notConfigured_legal (fails (unknownCalibration_legal _ (by decide) _ _) none)
  | processFrame =>
    exact fails notConfigured_legal ((shape _ _ _).or (fails (unknownIdentity_legal _ _)
      (fails (unknownCalibration_legal _ (by decide) _ _) none)))
  | integrate =>
    exact fails (sequenceRaise_legal (by decide) _ _) (fails (sequenceRaise_legal (by decide) _ _)
      (fails (capacityRaise_legal _ _) none))

/-- An INTEGRATE that passes its checks has samples to run on (43_integrator.md R194). -/
theorem samplesAligned_of_pass {b : Block} (h : commandError .integrate b = none) : SamplesAligned b := by
  rw [commandError] at h
  split at h
  case isTrue => cases h
  case isFalse ht =>
    split at h
    case isTrue => cases h
    case isFalse ha =>
      split at h
      case isTrue => cases h
      case isFalse hn => exact ⟨not_not.mp ht, not_not.mp ha, Nat.le_of_not_lt hn⟩

end Sys2Proof.Machine
end

section
/-! The invariant (Safety): it holds at reset, and each completion and each host access keeps it, so every step does. -/
namespace Sys2Proof.Machine

theorem sequenceInv_empty (depth : Nat) : SequenceInv depth SampleSeq.empty :=
  ⟨⟨.nil, nofun⟩, fun _ hi => absurd hi (Nat.not_lt_zero _)⟩

/-- Reset meets the invariant, whatever the two parameters are. -/
theorem reset_inv {calDepth : BitVec 12} {sampleDepth : BitVec 16} (hcal : calDepthLegal calDepth = true)
    (hsample : sampleDepthLegal sampleDepth = true) : Block.Inv (Block.reset calDepth sampleDepth) where
  calDepth := hcal
  sampleDepth := hsample
  sensorCount := by simp [Block.reset]
  cal := ⟨⟨.nil, nofun⟩, nofun⟩
  opa := bufferInv_empty
  opb := bufferInv_empty
  spd := sequenceInv_empty _
  tim := sequenceInv_empty _
  ang := sequenceInv_empty _
  out := ⟨⟨.nil, nofun⟩, ⟨.nil, nofun⟩, Nat.zero_le _, fun _ hi => absurd hi (Nat.not_lt_zero _)⟩
  status := ⟨fun _ => rfl, rfl, fun _ _ => ⟨rfl, rfl, rfl⟩, by simp [Block.reset], Nat.zero_le _, rfl⟩

/-- Settles O59: the default parameters are legal. -/
theorem resetMeetsInvariant : Obligations.ResetMeetsInvariant := reset_inv (by decide) (by decide)

theorem beforeChecks_keeps (i : Instr) {s : State} (h : Block.Inv s.blk) : Block.Inv (beforeChecks i s).blk := by
  by_cases hi : i = .processFrame
  · subst hi; exact clearReading_keeps h
  · have hsame : beforeChecks i s = s := by rw [beforeChecks, if_neg hi, if_neg hi]
    rw [hsame]; exact h

/-- What a command commits keeps the invariant: the sum is a checksum, the two flags of RES_FLAGS are one verdict, and the loop
fills the position memories up to OUT_LEN. -/
theorem committed_keeps {i : Instr} {s : State} (hpass : commandError i s.blk = none) (h : Block.Inv s.blk) :
    Block.Inv (committed i s).blk := by
  have hst := h.status
  have hsum : ∀ d, (chkBits d).toNat ≤ 31620 := fun d => (chkBits_toNat d).trans_le (chk_le d)
  cases i with
  | nop | parse | decodeId | decodeTs | decodeData | calibrate =>
    exact succeed_keeps h rfl rfl rfl rfl rfl rfl rfl rfl rfl rfl rfl rfl hst.lastOp hst.sum hst.reading
  | verify => exact succeed_keeps h rfl rfl rfl rfl rfl rfl rfl rfl rfl rfl rfl rfl hst.lastOp (hsum _) hst.reading
  | processFrame =>
    rw [committed, commandResult]
    split <;> exact succeed_keeps h rfl rfl rfl rfl rfl rfl rfl rfl rfl rfl rfl rfl hst.lastOp (hsum _) rfl
  | integrate =>
    obtain ⟨-, -, hlen⟩ := samplesAligned_of_pass hpass
    obtain ⟨hxm, hym, hheld⟩ := trackLoop_keeps h s.draws s.blk.spd.len.toNat hlen
    exact inv_of_same h rfl rfl rfl rfl rfl rfl rfl rfl rfl ⟨hxm, hym, hlen, hheld⟩
      (succeed_status hst.lastOp hst.sum hst.reading)
  | clrSamples =>
    exact inv_of_scalars h rfl rfl h.sensorCount rfl h.opa h.opb (sequenceInv_cleared h.spd) (sequenceInv_cleared h.tim)
      (sequenceInv_cleared h.ang) rfl rfl rfl (succeed_status hst.lastOp hst.sum hst.reading)

theorem exec_keeps {i : Instr} {s t : State} (hexec : exec i s = .next t) (h : Block.Inv s.blk) : Block.Inv t.blk := by
  obtain ⟨r, hr, rfl⟩ | ⟨hpass, rfl⟩ := exec_cases hexec
  · exact raiseError_keeps (commandError_raisesLegally i _ r hr) (beforeChecks_keeps i h)
  · exact committed_keeps hpass h

theorem illegalCommand_keeps (w : Word) {s : State} (h : Block.Inv s.blk) : Block.Inv (illegalCommand w s).blk :=
  raiseError_keeps (raiseLegal_mk (by decide) (by decide) (by decide)) h

theorem completionStep_keeps {s t : State} (hstep : completionStep s = .next t) (h : Block.Inv s.blk) :
    Block.Inv t.blk := by
  obtain ⟨i, -, hs⟩ | ⟨e, -, hs⟩ := completionStep_cases s
  case inl => exact exec_keeps (hs.symm.trans hstep) h
  case inr =>
    cases hs.symm.trans hstep
    exact illegalCommand_keeps _ h

theorem dropWrite_keeps {s : State} (h : Block.Inv s.blk) : Block.Inv (dropWrite s).blk :=
  inv_of_same h rfl rfl rfl rfl rfl rfl rfl rfl rfl (outputInv_of_same h.out rfl rfl rfl rfl)
    (statusInv_of_same h.status rfl rfl rfl rfl rfl rfl rfl rfl rfl rfl)

theorem hostWrite_keeps (o : Offset) (v : Word) {s : State} (h : Block.Inv s.blk) : Block.Inv (hostWrite o v s).blk := by
  obtain ⟨-, hw⟩ | ⟨-, hw⟩ := hostWrite_cases o v s
  case inl => rw [hw]; exact dropWrite_keeps h
  case inr =>
    obtain ⟨-, hi⟩ | ⟨r, -, -, hi⟩ | ⟨-, hi⟩ := idleWrite_cases o v s <;> rw [hw, hi]
    case inl => exact issue_keeps v h
    case inr.inl => exact writeReg_keeps r v h
    case inr.inr => exact h

theorem hostStep_keeps (op : HostOp) (rest : List HostOp) {s : State} (h : Block.Inv s.blk) :
    Block.Inv (hostStep op rest s).blk := by
  obtain ⟨o, v, -, hs⟩ | ⟨o, -, hs⟩ | ⟨o, m, v, -, -, hs⟩ | ⟨-, hs⟩ := hostStep_cases op rest s <;> rw [hs]
  case inl => exact hostWrite_keeps o v (s := takeOp rest s) h
  case inr.inl | inr.inr.inl => exact h
  case inr.inr.inr => exact reset_inv h.calDepth h.sampleDepth

/-- Settles O60: each of the three kinds of step keeps the block's invariant. -/
theorem stepKeepsInvariant : Obligations.StepKeepsInvariant := by
  intro s t h hstep
  obtain ⟨-, hs⟩ | ⟨op, rest, -, -, hs⟩ | ⟨-, -, hs⟩ := step_cases s
  case inl => exact completionStep_keeps (hs.symm.trans hstep) h
  case inr.inl =>
    cases hs.symm.trans hstep
    exact hostStep_keeps op rest h
  case inr.inr =>
    cases hs.symm.trans hstep
    exact h

end Sys2Proof.Machine
end

section
/-! What every command leaves alone and what it may change (44_pipeline_control.md R221, R222, 60_exceptions.md R251,
70_reset_and_hazards.md R289), read off its error and its result. -/
namespace Sys2Proof.Machine

/-- Two blocks that agree in all a command reads and no command writes: the parameters, the issue, the sticky flags, the
configuration, the operands, the samples and the latches. -/
def SameOperands (b c : Block) : Prop :=
  c.calDepth = b.calDepth ∧ c.sampleDepth = b.sampleDepth ∧ c.pending = b.pending ∧ c.lastOp = b.lastOp ∧
  c.wrBusy = b.wrBusy ∧ c.cfgErr = b.cfgErr ∧ c.cfgLock = b.cfgLock ∧ c.sensorCount = b.sensorCount ∧
  c.calIdx = b.calIdx ∧ c.cal = b.cal ∧ c.opa = b.opa ∧ c.opb = b.opb ∧ c.calIdIn = b.calIdIn ∧ c.raw = b.raw ∧
  c.outIdx = b.outIdx ∧ c.spd.mem = b.spd.mem ∧ c.tim.mem = b.tim.mem ∧ c.ang.mem = b.ang.mem ∧
  c.spd.latch = b.spd.latch ∧ c.tim.latch = b.tim.latch ∧ c.ang.latch = b.ang.latch

theorem commandResult_sameOperands (i : Instr) (k : Nat) (b : Block) : SameOperands b (commandResult i k b) := by
  cases i with
  | processFrame => rw [commandResult]; split <;> simp [SameOperands, commitFrame]
  | integrate => simp [SameOperands, commandResult, commitTrack]
  | nop | parse | decodeId | decodeTs | decodeData | verify | calibrate | clrSamples =>
    simp [SameOperands, commandResult]

/-- Settles O6: an error writes the status alone, and a result touches no operand. -/
theorem everyCommandCompletes : Obligations.EveryCommandCompletes := by
  intro i s
  cases he : commandError i s.blk with
  | some r => exact ⟨_, exec_of_error he, ⟨rfl, rfl, rfl, rfl, rfl⟩, rfl, by simp [beforeChecks]⟩
  | none =>
    exact ⟨_, exec_of_pass he, ⟨rfl, rfl, rfl, rfl, rfl⟩, rfl, commandResult_sameOperands i s.draws s.blk⟩

/-- Settles O7: a completion answers a next state, and so does every host access. -/
theorem machineNeverStops : Obligations.MachineNeverStops := by
  intro s
  obtain ⟨-, hs⟩ | ⟨op, rest, -, -, hs⟩ | ⟨-, -, hs⟩ := step_cases s
  case inl =>
    obtain ⟨i, -, hc⟩ | ⟨e, -, hc⟩ := completionStep_cases s
    · exact ⟨_, hs.trans (hc.trans (exec_eq i s))⟩
    · exact ⟨_, hs.trans hc⟩
  case inr.inl => exact ⟨_, hs⟩
  case inr.inr => exact ⟨_, hs⟩

/-- Settles O8: a completion with an error code is the error of the command's checks. -/
theorem errorsArePrecise : Obligations.ErrorsArePrecise := by
  intro i s t hexec herr
  obtain ⟨r, -, rfl⟩ | ⟨-, rfl⟩ := exec_cases hexec
  · exact ⟨⟨rfl, rfl, rfl, rfl, rfl⟩, rfl⟩
  · exact absurd rfl herr

/-- Settles O9: an error changes no result but RES_FLAGS of PROCESS_FRAME, and a result is written by its own rule. -/
theorem resultsHaveTheirWriters : Obligations.ResultsHaveTheirWriters := by
  intro i s t hexec
  obtain ⟨r, -, rfl⟩ | ⟨-, rfl⟩ := exec_cases hexec
  · by_cases hi : i = .processFrame <;> simp [beforeChecks, hi]
  · cases i with
    | nop | parse | decodeId | decodeTs | decodeData | verify | calibrate | clrSamples =>
      simp [committed_blk, commandResult]
    | processFrame =>
      rw [committed_blk, commandResult]
      split <;> simp [commitFrame]
    | integrate => simp [committed_blk, commandResult, commitTrack]

/-- Settles O11: no check, and a result that is the block as it stood. -/
theorem nopOnlyClearsError : Obligations.NopOnlyClearsError :=
  ⟨rfl, fun s => ⟨_, rfl, succeed_completesWith s s.blk s.draws, rfl⟩⟩

end Sys2Proof.Machine
end

section
/-! Agreement but for the patterns of NaNs (decision D11): the loop of INTEGRATE and every command's result, on blocks that agree
in what they read, whatever numbers they draw. -/
namespace Sys2Proof.Machine

theorem SameButNaN.refl (a : F64) : SameButNaN a a := .inl rfl

theorem SameMemoryButNaN.refl (m : Memory) : SameMemoryButNaN m m := fun i => by
  cases h : Table.get? m i with
  | none => exact .inl ⟨rfl, rfl⟩
  | some x => exact .inr ⟨x, x, rfl, rfl, .refl x⟩

theorem SameBlockButNaN.refl (b : Block) : SameBlockButNaN b b :=
  ⟨rfl, .refl _, .refl _, .refl _, .refl _, .refl _, .refl _⟩

/-- A completion's write of the status keeps the agreement. -/
theorem SameBlockButNaN.completed {b c : Block} (h : SameBlockButNaN b c) : SameBlockButNaN
    { b with err := .ok, errInfo := 0#32, errExpected := 0#32, errActual := 0#32, busy := false }
    { c with err := .ok, errInfo := 0#32, errExpected := 0#32, errActual := 0#32, busy := false } := by
  obtain ⟨hblk, hresults⟩ := h
  exact ⟨congrArg (fun d : Block =>
    { d with err := .ok, errInfo := 0#32, errExpected := 0#32, errActual := 0#32, busy := false }) hblk, hresults⟩

theorem cos64_same {a b : F64} (h : SameButNaN a b) : SameButNaN (cos64 a) (cos64 b) := by
  rcases h with rfl | ⟨ha, hb⟩
  · exact .refl _
  · exact .inr ⟨f64IsNaN_cos64 (not_finite_of_nan ha), f64IsNaN_cos64 (not_finite_of_nan hb)⟩

theorem sin64_same {a b : F64} (h : SameButNaN a b) : SameButNaN (sin64 a) (sin64 b) := by
  rcases h with rfl | ⟨ha, hb⟩
  · exact .refl _
  · exact .inr ⟨f64IsNaN_sin64 (not_finite_of_nan ha), f64IsNaN_sin64 (not_finite_of_nan hb)⟩

theorem dist_same (j k : Nat) (speed time : F64) : SameButNaN (dist j speed time) (dist k speed time) :=
  fmul_same _ _ (fmul_same _ _ (.refl _) (.refl _)) (.refl _)

/-- Two blocks with the same samples (10_state.md R42): all that the loop of INTEGRATE reads. -/
structure SameSamples (b c : Block) : Prop where
  spd : c.spd.mem = b.spd.mem
  tim : c.tim.mem = b.tim.mem
  ang : c.ang.mem = b.ang.mem

section
variable {b c : Block} (h : SameSamples b c) (j k : Nat)
include h

/-- The recurrence of R194 does not look at its draws: heading and position agree after every sample. -/
theorem trackLoop_same (n : Nat) : SameButNaN (trackLoop b j n).theta (trackLoop c k n).theta ∧
    SameButNaN (trackLoop b j n).x (trackLoop c k n).x ∧ SameButNaN (trackLoop b j n).y (trackLoop c k n).y := by
  induction n with
  | zero => exact ⟨.refl _, .refl _, .refl _⟩
  | succ n ih =>
    obtain ⟨htheta, hx, hy⟩ := ih
    have hnext : SameButNaN (trackLoop b j (n + 1)).theta (trackLoop c k (n + 1)).theta := by
      rw [trackLoop_theta_succ, trackLoop_theta_succ, h.ang]
      exact fadd_same _ _ htheta (fmul_same _ _ (.refl _) (.refl _))
    refine ⟨hnext, ?x, ?y⟩
    case x =>
      rw [trackLoop_x_succ, trackLoop_x_succ, h.spd, h.tim]
      exact fadd_same _ _ hx (fmul_same _ _ (dist_same _ _ _ _) (cos64_same hnext))
    case y =>
      rw [trackLoop_y_succ, trackLoop_y_succ, h.spd, h.tim]
      exact fadd_same _ _ hy (fmul_same _ _ (dist_same _ _ _ _) (sin64_same hnext))

theorem trackLoop_xm_same {n : Nat} (habove : ∀ i, n ≤ i → Table.get? c.xm i = Table.get? b.xm i) :
    SameMemoryButNaN (trackLoop b j n).xm (trackLoop c k n).xm := fun i => by
  obtain ⟨-, hx, -⟩ := trackLoop_same h j k (i + 1)
  rw [get?_trackLoop_xm, get?_trackLoop_xm]
  split
  case isTrue => exact .inr ⟨_, _, rfl, rfl, hx⟩
  case isFalse hi => rw [habove i (Nat.le_of_not_lt hi)]; exact SameMemoryButNaN.refl b.xm i

theorem trackLoop_ym_same {n : Nat} (habove : ∀ i, n ≤ i → Table.get? c.ym i = Table.get? b.ym i) :
    SameMemoryButNaN (trackLoop b j n).ym (trackLoop c k n).ym := fun i => by
  obtain ⟨-, -, hy⟩ := trackLoop_same h j k (i + 1)
  rw [get?_trackLoop_ym, get?_trackLoop_ym]
  split
  case isTrue => exact .inr ⟨_, _, rfl, rfl, hy⟩
  case isFalse hi => rw [habove i (Nat.le_of_not_lt hi)]; exact SameMemoryButNaN.refl b.ym i

end

/-- A command's result does not depend on its draws, but for the patterns of NaNs. -/
theorem commandResult_same (i : Instr) (j k : Nat) (b : Block) :
    SameBlockButNaN (commandResult i j b) (commandResult i k b) := by
  cases i with
  | nop | parse | decodeId | decodeData | verify | clrSamples => exact .refl _
  | decodeTs => rw [commandResult, timestampSeconds_draw j k]; exact .refl _
  | calibrate => exact ⟨rfl, calibrated_same j k _ _, .refl _, .refl _, .refl _, .refl _, .refl _⟩
  | processFrame =>
    rw [commandResult, commandResult, commitFrame, commitFrame, timestampSeconds_draw j k]
    split
    · exact ⟨rfl, calibrated_same _ _ _ _, .refl _, .refl _, .refl _, .refl _, .refl _⟩
    · exact .refl _
  | integrate =>
    have hsamples : SameSamples b b := ⟨rfl, rfl, rfl⟩
    obtain ⟨htheta, hx, hy⟩ := trackLoop_same hsamples j k b.spd.len.toNat
    exact ⟨rfl, .refl _, htheta, hx, hy, trackLoop_xm_same hsamples j k fun _ _ => rfl,
      trackLoop_ym_same hsamples j k fun _ _ => rfl⟩

/-! WRBUSY, which a write dropped while a command is pending sets (20_memory.md R77), is no operand of any command. -/

theorem trackLoop_wrBusy (w : Bool) (b : Block) (k n : Nat) :
    trackLoop { b with wrBusy := w } k n = trackLoop b k n := by
  induction n with
  | zero => rfl
  | succ n ih => rw [trackLoop, trackLoop, ih]

theorem commandError_wrBusy (w : Bool) (i : Instr) (b : Block) :
    commandError i { b with wrBusy := w } = commandError i b := by
  cases i <;> rfl

theorem commandDraws_wrBusy (w : Bool) (i : Instr) (b : Block) :
    commandDraws i { b with wrBusy := w } = commandDraws i b := by
  cases i <;> rfl

theorem commandResult_wrBusy (w : Bool) (i : Instr) (k : Nat) (b : Block) :
    commandResult i k { b with wrBusy := w } = { commandResult i k b with wrBusy := w } := by
  cases i with
  | nop | parse | decodeId | decodeTs | decodeData | verify | calibrate | clrSamples => rfl
  | processFrame => rw [commandResult, commandResult]; split <;> rfl
  | integrate => rw [commandResult, commandResult, trackLoop_wrBusy]; rfl

theorem SameBlockButNaN.wrBusy {b c : Block} (h : SameBlockButNaN b c) (w : Bool) :
    SameBlockButNaN { b with wrBusy := w } { c with wrBusy := w } := by
  obtain ⟨hblk, hresults⟩ := h
  exact ⟨congrArg (fun d : Block => { d with wrBusy := w }) hblk, hresults⟩

/-- Settles O10: neither the checks nor the result read anything outside the block, or WRBUSY in it; the result's draws are
numbered from the state's count on. -/
theorem completionIgnoresInterleaving : Obligations.CompletionIgnoresInterleaving := by
  intro i s t wrBusy synced ops replies wait issues draws hexec
  have herr := commandError_wrBusy wrBusy i s.blk
  have hres := commandResult_wrBusy wrBusy i draws s.blk
  obtain ⟨r, hr, rfl⟩ | ⟨hpass, rfl⟩ := exec_cases hexec
  case inl =>
    exact ⟨_, exec_of_error (herr.trans hr), rfl, rfl, rfl, rfl, rfl, .refl _, fun hd => ⟨rfl, hd⟩⟩
  case inr =>
    refine ⟨_, exec_of_pass (herr.trans hpass), rfl, rfl, rfl, rfl, rfl, ?same, fun hd => ?equal⟩
    case same =>
      rw [committed_blk, committed_blk, hres]
      exact ((commandResult_same i s.draws draws s.blk).wrBusy wrBusy).completed
    case equal =>
      subst hd
      rw [committed_blk, committed_blk, hres]
      exact ⟨rfl, congrArg (s.draws + ·) (commandDraws_wrBusy wrBusy i s.blk)⟩

/-- Settles O23: both states pass the checks with the same operands and entry. -/
theorem calibrationHasNoHistory : Obligations.CalibrationHasNoHistory := by
  intro s u hlock hlock' hentry hid hraw hdepth hcal
  have hentry' : HasCalibration u.blk u.blk.calIdIn := by
    rw [HasCalibration, hid, hdepth, hcal]
    exact hentry
  refine ⟨_, _, execCalibrate_ok hlock (calLookup_some hentry), execCalibrate_ok hlock' (calLookup_some hentry'), ?_⟩
  rw [hid, hcal, hraw]
  exact calibrated_same _ _ _ _

/-- Settles O28: the first run leaves the samples and the position entries past OUT_LEN, which are all that a second one reads. -/
theorem integrateIsRepeatable : Obligations.IntegrateIsRepeatable := by
  intro s t hexec hok
  obtain ⟨r, hr, rfl⟩ | ⟨hpass, rfl⟩ := exec_cases hexec
  case inl => exact absurd hok (commandError_raisesLegally .integrate s.blk r hr).code
  case inr =>
    have haligned : SamplesAligned (committed .integrate s).blk := samplesAligned_of_pass hpass
    have hsamples : SameSamples s.blk (committed .integrate s).blk := ⟨rfl, rfl, rfl⟩
    obtain ⟨htheta, hx, hy⟩ := trackLoop_same hsamples s.draws (committed .integrate s).draws s.blk.spd.len.toNat
    refine ⟨_, execIntegrate_ok haligned, rfl, rfl, rfl, .refl _, htheta, hx, hy,
      trackLoop_xm_same hsamples _ _ fun i hi => ?xm, trackLoop_ym_same hsamples _ _ fun i hi => ?ym⟩
    case xm => exact (get?_trackLoop_xm ..).trans (if_neg hi.not_gt)
    case ym => exact (get?_trackLoop_ym ..).trans (if_neg hi.not_gt)

end Sys2Proof.Machine
end

section
/-! The binary64 operations (00_scope.md R11): which results are NaNs, that a finite result is the exact one rounded once, and from
where on rounding gives an infinity. -/
namespace Sys2Proof.Machine

theorem f64Mag_f64Neg (a : F64) : f64Mag (f64Neg a) = f64Mag a := by
  rw [f64Mag, f64Neg, BitVec.extractLsb'_xor]
  simp [f64Mag]

theorem f64Sign_f64Neg (a : F64) : f64Sign (f64Neg a) = !f64Sign a := by
  simp [f64Sign, f64Neg]

theorem f64IsNaN_f64Neg (a : F64) : f64IsNaN (f64Neg a) = f64IsNaN a :=
  Bool.eq_iff_iff.mpr (by rw [f64IsNaN_iff, f64IsNaN_iff, f64Mag_f64Neg])

theorem f64IsInf_f64Neg (a : F64) : f64IsInf (f64Neg a) = f64IsInf a :=
  Bool.eq_iff_iff.mpr (by rw [f64IsInf_iff, f64IsInf_iff, f64Mag_f64Neg])

theorem f64IsFinite_f64Neg (a : F64) : f64IsFinite (f64Neg a) = f64IsFinite a :=
  Bool.eq_iff_iff.mpr (by rw [f64IsFinite_iff, f64IsFinite_iff, f64Mag_f64Neg])

theorem f64Int_f64Neg (a : F64) : f64Int (f64Neg a) = -f64Int a := by
  rw [f64Int, f64Int, f64Sign_f64Neg, f64Units_eq, f64Units_eq, f64Mag_f64Neg]
  cases f64Sign a <;> simp

/-- A finite value less itself is +0.0. -/
theorem fsub_self (k : Nat) {a : F64} (h : f64IsFinite a = true) : fsub k a a = 0#64 := by
  rw [fsub, fadd_finite k h ((f64IsFinite_f64Neg a).trans h), f64Int_f64Neg, add_neg_cancel, if_pos rfl, f64Sign_f64Neg,
    Bool.and_not_self, Int.natAbs_zero, roundUnits_zero]
  decide

/-- A product of a finite value with +0.0 is a zero with the sign of the value. -/
theorem fmul_posZero (k : Nat) {a : F64} (h : f64IsFinite a = true) :
    fmul k 0#64 a = if f64Sign a then 0x8000000000000000#64 else 0#64 := by
  have hsign : f64Sign 0#64 = false := by decide
  rw [fmul_finite k (by decide) h, f64Units_of_zero (by decide), Nat.zero_mul, roundUnits_zero, hsign]
  cases f64Sign a <;> decide

/-- Settles O22: the difference is +0.0, and its product with the weight a zero of the weight's sign. -/
theorem biasMapsToZero : Obligations.BiasMapsToZero := by
  intro s hlock hentry hraw hfin hweight
  refine ⟨_, execCalibrate_ok hlock (calLookup_some hentry), rfl, ?_⟩
  change calibrated s.draws s.blk.raw _ = _
  rw [calibrated, ← hraw, fsub_self _ hfin, fmul_posZero _ hweight]

/-- Settles O15: the shape check's two errors, else the rounded quotient. -/
theorem decodeTsDividesByThousand : Obligations.DecodeTsDividesByThousand := by
  refine ⟨rfl, fun s => ⟨fun hbad => ?symbol, fun hbad hcount => ?length, fun v hv => ?seconds⟩⟩
  case symbol =>
    exact ⟨_, execDecodeTs_error (checkShape_of_bad hbad _ _ _ _), symbolRaise_endsWithError _ _ s (by decide)⟩
  case length =>
    exact ⟨_, execDecodeTs_error (checkShape_of_length hbad hcount _ _ _), lengthRaise_endsWithError _ _ _ s (by decide)⟩
  case seconds =>
    obtain rfl := val_eq_of_denotes hv
    exact ⟨_, execDecodeTs_ok (checkShape_of_denotes hv _ _ _), succeed_completesWith s _ (s.draws + 1),
      timestampSeconds_nearest _ _, f64Sign_timestampSeconds _ _⟩

/-! ### NaN results (R172, decision D11) -/

theorem f64IsNaN_fadd_iff (k : Nat) (a b : F64) : f64IsNaN (fadd k a b) = true ↔ f64IsNaN a = true ∨ f64IsNaN b = true ∨
    (f64IsInf a = true ∧ f64IsInf b = true ∧ f64Sign a ≠ f64Sign b) := by
  cases hna : f64IsNaN a
  case true => exact iff_of_true (fadd_nan k (.inl hna)) (.inl rfl)
  cases hnb : f64IsNaN b
  case true => exact iff_of_true (fadd_nan k (.inr hnb)) (.inr (.inl rfl))
  cases hia : f64IsInf a <;> cases hib : f64IsInf b
  case false.false => simp [fadd, hna, hnb, hia, hib, packF64_not_nan _ (roundUnits_le _ _)]
  case false.true => simp [fadd, hna, hnb, hia, hib]
  case true.false => simp [fadd, hna, hnb, hia, hib]
  case true.true => by_cases hs : f64Sign a = f64Sign b <;> simp [fadd, hna, hnb, hia, hib, hs, nanResult_isNaN]

theorem not_zero_of_inf {a : F64} (h : f64IsInf a = true) : f64IsZero a = false := by
  rw [f64IsInf_iff] at h
  rw [Bool.eq_false_iff, ne_eq, f64IsZero_iff, h]
  decide

theorem f64IsNaN_fmul_iff (k : Nat) (a b : F64) : f64IsNaN (fmul k a b) = true ↔ f64IsNaN a = true ∨ f64IsNaN b = true ∨
    (f64IsInf a = true ∧ f64IsZero b = true) ∨ (f64IsZero a = true ∧ f64IsInf b = true) := by
  cases hna : f64IsNaN a
  case true => exact iff_of_true (fmul_nan k (.inl hna)) (.inl rfl)
  cases hnb : f64IsNaN b
  case true => exact iff_of_true (fmul_nan k (.inr hnb)) (.inr (.inl rfl))
  have hinf := fun s => packF64_not_nan s (le_refl infBits)
  cases hia : f64IsInf a <;> cases hib : f64IsInf b
  case false.false => simp [fmul, hna, hnb, hia, hib, packF64_not_nan _ (roundUnits_le _ _)]
  case false.true =>
    cases hz : f64IsZero a <;> simp [fmul, hna, hnb, hia, hib, hz, not_zero_of_inf hib, nanResult_isNaN, hinf]
  case true.false =>
    cases hz : f64IsZero b <;> simp [fmul, hna, hnb, hia, hib, hz, not_zero_of_inf hia, nanResult_isNaN, hinf]
  case true.true => simp [fmul, hna, hnb, hia, hib, not_zero_of_inf hia, not_zero_of_inf hib, hinf]

theorem fadd_quiet (k : Nat) (a b : F64) (h : f64IsNaN (fadd k a b) = true) : f64IsQuietNaN (fadd k a b) = true := by
  rcases fadd_draw a b with hnan | ⟨r, hr, hval⟩
  · rw [hnan]; exact nanResult_quiet k
  · rw [hval, hr] at h; cases h

theorem fmul_quiet (k : Nat) (a b : F64) (h : f64IsNaN (fmul k a b) = true) : f64IsQuietNaN (fmul k a b) = true := by
  rcases fmul_draw a b with hnan | ⟨r, hr, hval⟩
  · rw [hnan]; exact nanResult_quiet k
  · rw [hval, hr] at h; cases h

/-- Settles O35: a difference is a sum with the sign flipped, and a NaN that an operation makes is the free quiet one. -/
theorem nanResultsAreQuiet : Obligations.NanResultsAreQuiet := by
  refine fun k a b => ⟨?difference, f64IsNaN_fmul_iff k a b, fadd_quiet k a _, fmul_quiet k a b⟩
  rw [fsub, f64IsNaN_fadd_iff, f64IsNaN_f64Neg, f64IsInf_f64Neg, f64Sign_f64Neg]
  simp

/-! ### One rounding -/

theorem f64Sign_fadd {k : Nat} {a b : F64} (ha : f64IsFinite a = true) (hb : f64IsFinite b = true) :
    f64Sign (fadd k a b) =
      if f64Int a + f64Int b = 0 then f64Sign a && f64Sign b else decide (f64Int a + f64Int b < 0) := by
  rw [fadd_finite k ha hb, f64Sign_packF64]

theorem fadd_sign_le (s : Bool) (sum : Int) :
    if (if sum = 0 then s else decide (sum < 0)) then sum ≤ 0 else 0 ≤ sum := by
  by_cases hzero : sum = 0
  · subst hzero; simp
  · by_cases hneg : sum < 0
    · simp [hzero, hneg, hneg.le]
    · simp [hzero, hneg, not_lt.mp hneg]

/-- Settles O31: the packed rounding of the exact sum, whose sign is the sum's unless the sum is zero. -/
theorem faddRoundsOnce : Obligations.FaddRoundsOnce := by
  intro k a b ha hb hfin
  refine ⟨?nearest, fun hne => ?sign, fun hzero => ?zero⟩
  case nearest =>
    rw [fadd_finite k ha hb] at hfin ⊢
    exact packF64_nearest _ _ Nat.one_pos (fadd_sign_le _ _) hfin
  case sign => rw [f64Sign_fadd ha hb, if_neg hne, decide_eq_true_iff]
  case zero =>
    rw [fadd_finite k ha hb, if_pos hzero, hzero, Int.natAbs_zero, roundUnits_zero]
    cases f64Sign a && f64Sign b <;> decide

theorem f64Units_pos {a : F64} (h : f64IsZero a = false) : 0 < f64Units a := by
  rw [Bool.eq_false_iff, ne_eq, f64IsZero_iff] at h
  rw [f64Units_eq, magUnits]
  split
  · omega
  · positivity

/-- The exact dividend with the divisor's sign on it. -/
theorem signed_dividend (a b : F64) (scale : Nat) :
    (if f64Sign b then -(f64Int a * scale) else f64Int a * scale) =
      if f64Sign a != f64Sign b then -((f64Units a * scale : Nat) : Int) else (f64Units a * scale : Nat) := by
  rw [f64Int]
  cases f64Sign a <;> cases f64Sign b <;> simp

/-- The packed rounding of a magnitude over a divisor is nearest to the signed quotient. -/
theorem packF64_signed_nearest {s : Bool} {p q : Nat} (hq : 0 < q)
    (hfin : f64IsFinite (packF64 s (roundUnits p q)) = true) :
    NearestEven (packF64 s (roundUnits p q)) (if s then -(p : Int) else p) q := by
  have habs : (if s then -(p : Int) else p).natAbs = p := by cases s <;> simp
  have hnear := packF64_nearest s (if s then -(p : Int) else p) hq
  rw [habs] at hnear
  exact hnear (by cases s <;> simp) hfin

/-- The exact product, its sign the product of the signs. -/
theorem signed_product (a b : F64) : f64Int a * f64Int b =
    if f64Sign a != f64Sign b then -((f64Units a * f64Units b : Nat) : Int) else (f64Units a * f64Units b : Nat) := by
  rw [f64Int, f64Int]
  cases f64Sign a <;> cases f64Sign b <;> simp

/-- Settles O32: the packed rounding of the exact product over the scale, with the product of the signs. -/
theorem fmulRoundsOnce : Obligations.FmulRoundsOnce := by
  intro k a b ha hb hfin
  rw [fmul_finite k ha hb] at hfin ⊢
  rw [signed_product]
  exact ⟨packF64_signed_nearest unitScale_pos hfin, f64Sign_packF64 _ _⟩

/-- Settles O33: the packed rounding of the exact quotient, with the product of the signs. -/
theorem fdivRoundsOnce : Obligations.FdivRoundsOnce := by
  intro k a b ha hb hzero hfin
  rw [fdiv_finite k ha hb hzero] at hfin ⊢
  rw [signed_dividend]
  exact ⟨packF64_signed_nearest (f64Units_pos hzero) hfin, f64Sign_packF64 _ _⟩

/-! ### Overflow (R172, third item) -/

theorem f64IsInf_packF64_roundUnits (s : Bool) (p q : Nat) :
    f64IsInf (packF64 s (roundUnits p q)) = true ↔ roundUnits p q = infBits := by
  rw [f64IsInf_iff, f64Mag_packF64 s (roundUnits_lt p q)]

/-- The threshold with its exponent named, so that no proof evaluates the power. -/
theorem exists_overflowUnits_add_eq : ∃ e, e = 2044 ∧ overflowUnits + 2 ^ e = 2 ^ 54 * 2 ^ e := by
  have hsucc : (2 ^ 54 - 1).succ = 2 ^ 54 := by decide
  exact ⟨2044, rfl, by rw [overflowUnits, ← Nat.succ_mul, hsucc]⟩

section
variable {p q k r rem e threshold : Nat} (hp : q * 2 ^ k * r + rem = p)
  (hthreshold : threshold + q * 2 ^ e = 2 ^ 54 * (q * 2 ^ e))
include hp hthreshold

/-- With a scale below the greatest one, 2^(e+1), a magnitude lies under the threshold. -/
theorem lt_threshold_of_scale_lt (hk : k < e + 1) (hr : r < 2 ^ 53) (hrem : rem < q * 2 ^ k) : p < threshold := by
  have hunit : q * 2 ^ k ≤ q * 2 ^ e := Nat.mul_le_mul_left q (Nat.pow_le_pow_right (by decide) (Nat.le_of_lt_succ hk))
  have hval : q * 2 ^ k * (r + 1) ≤ q * 2 ^ k * 2 ^ 53 := Nat.mul_le_mul_left _ hr
  rw [Nat.mul_succ] at hval
  omega

/-- At the greatest scale a magnitude reaches the threshold from the greatest significand and half a unit on. -/
theorem threshold_le_iff_of_scale_eq (hk : k = e + 1) (hr : r < 2 ^ 53) (hrem : rem < q * 2 ^ k) :
    threshold ≤ p ↔ r + 1 = 2 ^ 53 ∧ q * 2 ^ k ≤ 2 * rem := by
  have hunit : q * 2 ^ k = 2 * (q * 2 ^ e) := by rw [hk, Nat.pow_succ]; ring
  rw [hunit] at hp hrem ⊢
  generalize q * 2 ^ e = D at hthreshold hp hrem ⊢
  by_cases htop : r + 1 = 2 ^ 53
  · have hval : 2 * D * r + 2 * D = 2 * D * 2 ^ 53 := by rw [← Nat.mul_succ, Nat.succ_eq_add_one, htop]
    omega
  · have hval : 2 * D * (r + 2) ≤ 2 * D * 2 ^ 53 := Nat.mul_le_mul_left _ (by omega)
    rw [Nat.mul_add] at hval
    omega

/-- With a scale above the greatest one a magnitude lies over the threshold. -/
theorem threshold_le_of_scale_gt (hk : e + 1 < k) (hr : 2 ^ 52 ≤ r) : threshold ≤ p := by
  have hunit : 4 * (q * 2 ^ e) ≤ q * 2 ^ k := by
    calc 4 * (q * 2 ^ e) = q * 2 ^ (e + 2) := by rw [Nat.pow_add]; ring
      _ ≤ q * 2 ^ k := Nat.mul_le_mul_left q (Nat.pow_le_pow_right (by decide) hk)
  have hval : q * 2 ^ k * 2 ^ 52 ≤ q * 2 ^ k * r := Nat.mul_le_mul_left _ hr
  omega

end

/-- Rounding goes to infinity exactly from the threshold on: the greatest scale of a finite value is 2^2045. -/
theorem roundUnits_eq_infBits_iff (p : Nat) {q : Nat} (hq : 0 < q) :
    roundUnits p q = infBits ↔ overflowUnits * q ≤ p := by
  obtain ⟨e, he, hover⟩ := exists_overflowUnits_add_eq
  have hthreshold : overflowUnits * q + q * 2 ^ e = 2 ^ 54 * (q * 2 ^ e) := by
    rw [Nat.mul_left_comm, ← hover, Nat.mul_add, Nat.mul_comm q overflowUnits]
  have hinf : infBits = 2047 * 2 ^ 52 := by decide
  obtain ⟨hlow, hhigh⟩ := rounding_scale p q
  unfold roundUnits
  simp only
  rw [min_eq_right_iff, hinf]
  generalize Nat.log2 (p / q) - 52 = k at hlow hhigh ⊢
  have hp : q * 2 ^ k * (p / (q * 2 ^ k)) + p % (q * 2 ^ k) = p := Nat.div_add_mod p (q * 2 ^ k)
  have hrem : p % (q * 2 ^ k) < q * 2 ^ k := Nat.mod_lt _ (Nat.mul_pos hq (Nat.two_pow_pos k))
  generalize p / (q * 2 ^ k) = r at hlow hhigh hp ⊢
  generalize p % (q * 2 ^ k) = rem at hp hrem ⊢
  rcases Nat.lt_trichotomy k (e + 1) with hk | hk | hk
  case inl =>
    refine iff_of_false ?_ (Nat.not_le.mpr (lt_threshold_of_scale_lt hp hthreshold hk hhigh hrem))
    split <;> omega
  case inr.inl =>
    rw [threshold_le_iff_of_scale_eq hp hthreshold hk hhigh hrem]
    split <;> omega
  case inr.inr =>
    have hr : 2 ^ 52 ≤ r := hlow.resolve_left (by omega)
    refine iff_of_true ?_ (threshold_le_of_scale_gt hp hthreshold hk hr)
    split <;> omega

/-- Settles O34: both results are packed roundings, of the exact product over the scale and of the exact sum. -/
theorem overflowGoesToInfinity : Obligations.OverflowGoesToInfinity := by
  refine fun k a b ha hb => ⟨?product, ?sum⟩
  case product =>
    rw [fmul_finite k ha hb, f64IsInf_packF64_roundUnits, roundUnits_eq_infBits_iff _ unitScale_pos, abs_mul, abs_f64Int,
      abs_f64Int]
    exact_mod_cast Iff.rfl
  case sum =>
    rw [fadd_finite k ha hb, f64IsInf_packF64_roundUnits, roundUnits_eq_infBits_iff _ Nat.one_pos, Nat.mul_one,
      ← Int.natCast_natAbs, Nat.cast_le]

end Sys2Proof.Machine
end

section
/-! The decoder's table and the host's steps (30_encoding.md R91, R103, 20_memory.md R67, 44_pipeline_control.md R221,
70_reset_and_hazards.md R281). -/
namespace Sys2Proof.Machine

/-- Settles O1: the printed words are the ones that `encode` builds; the two others match no row. -/
theorem specWordsDecode : Obligations.SpecWordsDecode :=
  ⟨decode_encode .nop, decode_encode .parse, decode_encode .decodeId, decode_encode .decodeTs, decode_encode .decodeData,
    decode_encode .verify, decode_encode .calibrate, decode_encode .processFrame, decode_encode .integrate,
    decode_encode .clrSamples, rfl, rfl⟩

theorem completionStep_of_decode {s : State} {i : Instr} (h : decode s.blk.pending = .ok i) :
    completionStep s = exec i s := by
  rw [completionStep, h]

/-- Settles O3: the step is the sequencer's, and its completion the decoded command's. -/
theorem stepRunsDecodedCommand : Obligations.StepRunsDecodedCommand := fun _ _ hbusy hturn hdecode =>
  (step_sequencer hbusy hturn).trans (completionStep_of_decode hdecode)

/-- Settles O38: the host's step is the read. -/
theorem readsChangeNothing : Obligations.ReadsChangeNothing := fun _ _ _ hops hturn =>
  ⟨_, step_host hturn hops, rfl, rfl, rfl⟩

/-- Settles O39: the step reads in either case; the test decides what is left of the queue. -/
theorem spinWaitEndsOnMatch : Obligations.SpinWaitEndsOnMatch := by
  intro s o mask value rest hops hturn
  refine ⟨_, step_host hturn hops, ?_⟩
  rw [hostStep]
  split
  case isTrue htest => exact ⟨rfl, rfl, fun _ => rfl, fun hno => absurd htest hno⟩
  case isFalse htest => exact ⟨rfl, rfl, fun hyes => absurd hyes htest, fun _ => hops.symm⟩

/-- Settles O56: the host's step is the reset, whatever was pending. -/
theorem resetSetsEveryElement : Obligations.ResetSetsEveryElement := by
  intro s rest hops hturn
  have hblk : (hostStep .reset rest s).blk = Block.reset s.blk.calDepth s.blk.sampleDepth := resetBlock_blk _
  refine ⟨_, step_host hturn hops, rfl, rfl, ?_⟩
  rw [hblk]
  have hstatus : statusWord (Block.reset s.blk.calDepth s.blk.sampleDepth) = 0#32 := by
    simp only [statusWord, Block.reset]
    decide
  simpa [Block.reset, OpBuf.empty, Fields.zero, SampleSeq.empty, calGet, Table.get?, CalEntry.zero] using hstatus

end Sys2Proof.Machine
end

section
/-! The register window while idle: what each register reads (10_state.md R23 to R45), which writes reach the block, and the
writes of the configuration registers (20_memory.md R67, R74). -/
namespace Sys2Proof.Machine

/-- The registers a write reaches, CMD among them. -/
def writtenRegs : List Reg :=
  [.cmd, .statusClr, .ctrl, .sensorCount, .calIdx, .calWLo, .calWHi, .calBLo, .calBHi, .calValid, .opaSym, .opaCtl, .opbSym,
   .opbCtl, .calIdIn, .rawLo, .rawHi, .spdLo, .spdHi, .timLo, .timHi, .angLo, .angHi, .outIdx]

/-- The registers no read shows. -/
def unreadRegs : List Reg :=
  [.cmd, .statusClr, .opaSym, .opaCtl, .opbSym, .opbCtl, .spdLo, .spdHi, .timLo, .timHi, .angLo, .angHi]

theorem readOnly_not_written : ∀ row ∈ regMap, row.access = .ro → row.reg ∉ writtenRegs := by decide +kernel

theorem writeOnly_unread : ∀ row ∈ regMap, row.access = .wo → row.reg ∈ unreadRegs := by decide +kernel

theorem writeReg_of_not_written {r : Reg} (h : r ∉ writtenRegs) (v : Word) (b : Block) : writeReg r v b = b := by
  cases r
  case cmd | statusClr | ctrl | sensorCount | calIdx | calWLo | calWHi | calBLo | calBHi | calValid | opaSym | opaCtl |
      opbSym | opbCtl | calIdIn | rawLo | rawHi | spdLo | spdHi | timLo | timHi | angLo | angHi | outIdx =>
    exact absurd (by decide) h
  all_goals rfl

theorem readReg_of_unread {r : Reg} (h : r ∈ unreadRegs) (k : Nat) (b : Block) : readReg k r b = 0#32 := by
  simp only [unreadRegs, List.mem_cons, List.not_mem_nil, or_false] at h
  rcases h with rfl | rfl | rfl | rfl | rfl | rfl | rfl | rfl | rfl | rfl | rfl | rfl <;> rfl

theorem hostReadValue_of_regAt {s : State} (hb : s.blk.busy = false) {o : Offset} {r : Reg} (hr : regAt o = some r) :
    hostReadValue o s = readReg s.draws r s.blk := by
  simp [hostReadValue, hr, hb]

/-- The parts of a calibration entry, one for each calibration register (10_state.md R33, R34). -/
inductive CalField where
  | wLo
  | wHi
  | bLo
  | bHi
  | valid

/-- The register that holds a part. -/
def CalField.reg : CalField → Reg
  | .wLo => .calWLo
  | .wHi => .calWHi
  | .bLo => .calBLo
  | .bHi => .calBHi
  | .valid => .calValid

/-- The word a part reads as. -/
def CalField.part : CalField → CalEntry → Word
  | .wLo, e => lo32 e.w
  | .wHi, e => hi32 e.w
  | .bLo, e => lo32 e.b
  | .bHi, e => hi32 e.b
  | .valid, e => (BitVec.ofBool e.v).zeroExtend 32

/-- An entry after a write of a part. -/
def CalField.update (v : Word) : CalField → CalEntry → CalEntry
  | .wLo, e => { e with w := setLo32 e.w v }
  | .wHi, e => { e with w := setHi32 e.w v }
  | .bLo, e => { e with b := setLo32 e.b v }
  | .bHi, e => { e with b := setHi32 e.b v }
  | .valid, e => { e with v := v.getLsbD 0 }

theorem readReg_calField (f : CalField) (k : Nat) (b : Block) : readReg k f.reg b = calRead b f.part := by
  cases f <;> rfl

theorem writeReg_calField (f : CalField) (v : Word) (b : Block) : writeReg f.reg v b = writeCal (f.update v) b := by
  cases f <;> rfl

/-- A register that is none of these reads the same, whatever the table holds. -/
theorem readReg_of_not_calField {r : Reg} (h : ∀ f : CalField, r ≠ f.reg) (k : Nat) (b : Block) (cal : Table CalEntry) :
    readReg k r { b with cal := cal } = readReg k r b := by
  cases r
  case calWLo => exact absurd rfl (h .wLo)
  case calWHi => exact absurd rfl (h .wHi)
  case calBLo => exact absurd rfl (h .bLo)
  case calBHi => exact absurd rfl (h .bHi)
  case calValid => exact absurd rfl (h .valid)
  all_goals rfl

theorem lo32_join64 (hi lo : Word) : lo32 (join64 hi lo) = lo := BitVec.extractLsb'_append_eq_right

theorem hi32_join64 (hi lo : Word) : hi32 (join64 hi lo) = hi := BitVec.extractLsb'_append_eq_left

theorem zeroExtend_getLsbD_zero (v : Word) : (BitVec.ofBool (v.getLsbD 0)).zeroExtend 32 = v &&& 1#32 := by
  apply BitVec.eq_of_getLsbD_eq
  intro i hi
  cases i <;> simp

/-- A part reads back as written; CAL_VALID keeps bit 0 alone. -/
theorem CalField.part_update (f : CalField) (v : Word) (e : CalEntry) :
    f.part (f.update v e) = if f.reg = .calValid then v &&& 1#32 else v := by
  cases f with
  | wLo | bLo => exact lo32_join64 _ v
  | wHi | bHi => exact hi32_join64 v _
  | valid => exact zeroExtend_getLsbD_zero v

theorem CalField.part_update_other {f g : CalField} (h : f.reg ≠ g.reg) (v : Word) (e : CalEntry) :
    g.part (f.update v e) = g.part e := by
  cases f <;> cases g <;>
    simp [CalField.reg, CalField.part, CalField.update, setLo32, setHi32, lo32_join64, hi32_join64] at h ⊢

theorem zeroExtend_ofBool (v : Bool) : (BitVec.ofBool v).zeroExtend 32 = 0#31 ++ BitVec.ofBool v := by
  cases v <;> decide

/-- Settles O45: the map's read-only registers are not written, and its write-only ones not read. -/
theorem accessColumnHolds : Obligations.AccessColumnHolds := by
  intro s o v rest row hrow hreg hb
  refine ⟨fun haccess hops => ?readOnly, fun haccess => ?writeOnly⟩
  case readOnly =>
    have hnot := readOnly_not_written row hrow haccess
    have hcmd : row.reg ≠ .cmd := fun h => hnot (h ▸ by decide)
    exact ⟨_, step_write hb hops hreg hcmd, writeReg_of_not_written hnot v s.blk⟩
  case writeOnly =>
    rw [hostReadValue_of_regAt hb hreg, readReg_of_unread (writeOnly_unread row hrow haccess)]

/-- Settles O41: each slice of STATUS lies within one part of the concatenation. -/
theorem statusWordBits : Obligations.StatusWordBits := by
  intro b
  refine ⟨?busy, ?zeros1, Eq.trans (b := errCodeBits b.err) ?err ?code, ?locked, ?wrBusy, ?cfgErr, ?zeros11, ?lastOp,
    ?zeros24⟩
  case code => cases b.err <;> rfl
  all_goals
    simp (disch := omega) only [statusWord, BitVec.extractLsb'_append_eq_of_add_le, BitVec.extractLsb'_append_eq_of_le,
      BitVec.getLsbD_append]
    simp

/-- Settles O46: each register reads its field, and the halves of a 64-bit value join to it. -/
theorem idleRegistersRead : Obligations.IdleRegistersRead := by
  intro s hb
  have read := hostReadValue_of_idle hb
  have wide {hi lo : Reg} {x : BitVec 64} (hhi : readReg s.draws hi s.blk = hi32 x)
      (hlo : readReg s.draws lo s.blk = lo32 x) :
      hostReadValue (regOffset hi) s ++ hostReadValue (regOffset lo) s = x := by
    rw [read, read, hhi, hlo, hi32_append_lo32]
  refine ⟨⟨read .errInfo, read .errExpected, read .errActual⟩, ⟨read .sensorCount, read .calIdx⟩, fun hin => ?inRange,
    fun hout => ?outOfRange, ⟨read .opaInfo, read .opaBadPos, read .opbInfo, read .opbBadPos⟩,
    ⟨read .calIdIn, wide (hi := .rawHi) (lo := .rawLo) rfl rfl⟩, ?fields, ?results,
    ⟨read .spdLen, read .timLen, read .angLen, read .outLen, read .outIdx⟩,
    ⟨wide (hi := .thetaHi) (lo := .thetaLo) rfl rfl, wide (hi := .xaccHi) (lo := .xaccLo) rfl rfl,
      wide (hi := .yaccHi) (lo := .yaccLo) rfl rfl⟩⟩
  case inRange =>
    have part (f : CalField) : readReg s.draws f.reg s.blk = f.part (calGet s.blk.cal s.blk.calIdx.toNat) :=
      (readReg_calField f _ _).trans (if_pos hin)
    exact ⟨wide (hi := .calWHi) (lo := .calWLo) (part .wHi) (part .wLo),
      wide (hi := .calBHi) (lo := .calBLo) (part .bHi) (part .bLo),
      ((read .calValid).trans (part .valid)).trans (zeroExtend_ofBool _)⟩
  case outOfRange =>
    have zero (f : CalField) : hostReadValue (regOffset f.reg) s = 0#32 :=
      (read f.reg).trans ((readReg_calField f _ _).trans (if_neg hout.not_gt))
    exact ⟨zero .wLo, zero .wHi, zero .bLo, zero .bHi, zero .valid⟩
  case fields => exact fieldReads_of_idle hb
  case results => exact (readingReads_of_idle hb).2

theorem writeCal_outOfRange (f : CalEntry → CalEntry) {b : Block} (h : b.calDepth.toNat ≤ b.calIdx.toNat) :
    writeCal f b = b := if_pos h

theorem writeCal_locked (f : CalEntry → CalEntry) {b : Block} (h : b.calIdx.toNat < b.calDepth.toNat)
    (hlock : b.cfgLock = true) : writeCal f b = { b with cfgErr := true } :=
  (if_neg (Nat.not_le.mpr h)).trans (if_pos hlock)

theorem writeCal_open (f : CalEntry → CalEntry) {b : Block} (h : b.calIdx.toNat < b.calDepth.toNat)
    (hopen : b.cfgLock = false) :
    writeCal f b = { b with cal := calSet b.cal b.calIdx.toNat (f (calGet b.cal b.calIdx.toNat)) } :=
  (if_neg (Nat.not_le.mpr h)).trans (if_neg (by simp [hopen]))

theorem exists_calField {o : Offset} (h : regAt o = some .calWLo ∨ regAt o = some .calWHi ∨ regAt o = some .calBLo ∨
    regAt o = some .calBHi ∨ regAt o = some .calValid) : ∃ f : CalField, regAt o = some f.reg := by
  rcases h with h | h | h | h | h
  exacts [⟨.wLo, h⟩, ⟨.wHi, h⟩, ⟨.bLo, h⟩, ⟨.bHi, h⟩, ⟨.valid, h⟩]

/-- After an update of the selected entry's part, every other register of an idle block reads as before. -/
theorem readReg_calSet_other {f : CalField} {r : Reg} (h : f.reg ≠ r) (k : Nat) (v : Word) (b : Block) :
    readReg k r { b with cal := calSet b.cal b.calIdx.toNat (f.update v (calGet b.cal b.calIdx.toNat)) } =
      readReg k r b := by
  by_cases hr : ∃ g : CalField, r = g.reg
  · obtain ⟨g, rfl⟩ := hr
    rw [readReg_calField, readReg_calField, calRead, calRead, calGet_calSet_same, CalField.part_update_other h]
  · exact readReg_of_not_calField (fun g hg => hr ⟨g, hg⟩) k b _

/-- Settles O54: the three cases of `writeCal`, whose update touches one part of one entry. -/
theorem calibrationRegisterWrites : Obligations.CalibrationRegisterWrites := by
  intro s o v rest hops hb hreg
  obtain ⟨f, hf⟩ := exists_calField hreg
  have hstep := step_write hb hops hf (by cases f <;> decide)
  rw [writeReg_calField] at hstep
  refine ⟨fun hin hlock => ⟨_, hstep, writeCal_locked _ hin hlock⟩, fun hout => ?outOfRange, fun hin hopen => ?stored⟩
  case outOfRange =>
    refine ⟨?_, _, hstep, writeCal_outOfRange _ hout⟩
    rw [hostReadValue_of_regAt hb hf, readReg_calField]
    exact if_neg hout.not_gt
  case stored =>
    rw [writeCal_open _ hin hopen] at hstep
    refine ⟨_, hstep, rfl, fun e he => calGet_calSet_other _ _ he, ?same, fun q r hq hne => ?other⟩
    case same =>
      rw [hostReadValue_of_regAt (by exact hb) hf, readReg_calField, calRead, if_pos (by exact hin), calGet_calSet_same,
        CalField.part_update, hf]
      simp only [Option.some.injEq]
    case other =>
      rw [hostReadValue_of_regAt hb hq, hostReadValue_of_regAt (by exact hb) hq]
      exact readReg_calSet_other (fun h => hne (hf.trans (congrArg some h))) _ v s.blk

/-- Settles O53: the two cases of `writeSensorCount`. -/
theorem sensorCountWrites : Obligations.SensorCountWrites := by
  intro s o v rest hops hreg hb
  obtain ⟨t, hstep, hblk⟩ := step_idle_write hops hb
  have hwrite : t.blk = writeSensorCount v s.blk := hblk .sensorCount (by decide) hreg
  rw [writeSensorCount] at hwrite
  refine ⟨t, hstep, fun hlock => ?locked, fun hopen => ?stored⟩
  case locked => rw [hwrite, if_pos hlock]
  case stored =>
    rw [if_neg (by simp [hopen])] at hwrite
    rw [hwrite]
    exact ⟨rfl, clampSensorCount_toNat v⟩

/-- Settles O55: the window's entry is the memory's at OUT_IDX. -/
theorem windowReadsSelectedEntry : Obligations.WindowReadsSelectedEntry := by
  intro s o x y hb hidx hx hy
  have window {name : MemName} {m : Memory} {v : F64} (hm : Table.get? m s.blk.outIdx.toNat = some v) (part : F64 → Word) :
      windowRead s.draws name m s.blk part = part v := by
    rw [windowRead, if_pos hidx, Memory.read_of_get? name hm]
  have read {r : Reg} (hr : regAt o = some r) := hostReadValue_of_regAt hb hr
  exact ⟨fun hr => (read hr).trans (window hx lo32), fun hr => (read hr).trans (window hx hi32),
    fun hr => (read hr).trans (window hy lo32), fun hr => (read hr).trans (window hy hi32)⟩

end Sys2Proof.Machine
end

section
/-! A pushed bit string (20_memory.md R66, R68, 30_encoding.md R97): each push of a bit character appends one bit. -/
namespace Sys2Proof.Machine

/-- The word that pushes a bit: the code of its character. -/
def bitChar (b : Bool) : Word := if b then 0x31#32 else 0x30#32

theorem bitChar_byte (b : Bool) : (bitChar b).toNat % 256 = if b then 0x31 else 0x30 := by
  cases b <;> decide

/-- A buffer of `c` bit symbols, the one at position p being `bit p`. -/
structure HoldsBits (x : OpBuf) (c : Nat) (bit : Nat → Bool) : Prop where
  good : x.bad = false
  count : x.count.toNat = c
  bits : ∀ p, p < c → x.bits.getLsbD p = bit p

theorem HoldsBits.push {x : OpBuf} {c : Nat} {bit : Nat → Bool} (h : HoldsBits x c bit) (hc : c < 128) :
    HoldsBits (pushSymbol (bitChar (bit c)) x) (c + 1) bit := by
  obtain ⟨hcount, hbits, hbad⟩ := pushSymbol_pushedOnto (bitChar (bit c)) x
  rw [h.count] at hcount
  rw [bitChar_byte, if_neg (by cases bit c <;> simp)] at hbad
  obtain ⟨hgood, -, -⟩ := hbad
  refine ⟨hgood.trans h.good, by omega, fun p hp => ?_⟩
  rw [hbits p (by omega), h.count, bitChar_byte]
  split
  case isTrue hpc => rw [hpc]; cases bit c <;> simp
  case isFalse hpc => exact h.bits p (by omega)

/-- Pushing the characters of the `w` low bits of a number, the most significant first, appends these bits. -/
theorem HoldsBits.pushNumber {n w c : Nat} (hw : c + w ≤ 128) {x : OpBuf}
    (h : HoldsBits x c fun p => n.testBit (c + w - 1 - p)) :
    HoldsBits (((List.range w).reverse.map fun b => bitChar (n.testBit b)).foldl (fun x v => pushSymbol v x) x) (c + w)
      fun p => n.testBit (c + w - 1 - p) := by
  induction w generalizing c x with
  | zero => exact h
  | succ w ih =>
    have hbit : c + (w + 1) - 1 - c = w := by omega
    have hpush := h.push (by omega)
    rw [hbit] at hpush
    rw [← Nat.add_assoc, Nat.add_right_comm] at hpush ⊢
    rw [List.range_succ, List.reverse_append, List.reverse_singleton, List.singleton_append, List.map_cons,
      List.foldl_cons]
    exact ih (by omega) hpush

/-- Settles O48: from the empty buffer on, each push appends the number's next bit. -/
theorem pushedStringIsBigEndian : Obligations.PushedStringIsBigEndian := by
  intro n w hw hn
  have hempty : HoldsBits OpBuf.empty 0 fun p => n.testBit (0 + w - 1 - p) :=
    ⟨rfl, rfl, fun p hp => absurd hp (Nat.not_lt_zero p)⟩
  obtain ⟨hgood, hcount, hbits⟩ := hempty.pushNumber (by omega)
  refine ⟨hgood, hcount.trans (Nat.zero_add w), fun b hb => ?_⟩
  have hpos : 0 + w - 1 - (w - 1 - b) = b := by omega
  have hread := hbits (w - 1 - b) (by omega)
  rw [hpos] at hread
  rw [BitVec.getLsbD_ofNat, decide_eq_true hb, Bool.true_and]
  exact hread.symm

end Sys2Proof.Machine
end

section
/-! Progress and the end of a run (70_reset_and_hazards.md R292, R294): while a command is pending every host access takes
one from the free count, so its completion, or a reset, comes in time. -/
namespace Sys2Proof.Machine

theorem completionStep_idle {s t : State} (h : completionStep s = .next t) : t.blk.busy = false := by
  obtain ⟨i, -, hs⟩ | ⟨e, -, hs⟩ := completionStep_cases s
  case inl =>
    obtain ⟨r, -, rfl⟩ | ⟨-, rfl⟩ := exec_cases (hs.symm.trans h) <;> rfl
  case inr =>
    cases hs.symm.trans h
    rfl

/-- While a command is pending, a host operation is a reset, or it leaves the command pending and one access fewer before its
completion. -/
theorem hostStep_pending {s : State} (hb : s.blk.busy = true) (op : HostOp) (rest : List HostOp) :
    (hostStep op rest s).blk.busy = false ∨
    ((hostStep op rest s).blk.busy = true ∧ (hostStep op rest s).wait = s.wait - 1) := by
  obtain ⟨o, v, -, hs⟩ | ⟨o, -, hs⟩ | ⟨o, m, v, -, -, hs⟩ | ⟨-, hs⟩ := hostStep_cases op rest s <;> rw [hs]
  case inl =>
    rw [hostWrite_busy (s := takeOp rest s) hb]
    exact .inr ⟨hb, rfl⟩
  case inr.inl | inr.inr.inl => exact .inr ⟨hb, rfl⟩
  case inr.inr.inr => exact .inl rfl

/-- A step from a pending command ends it, or takes one access from the free count. -/
theorem step_pending {s : State} (hb : s.blk.busy = true) : ∃ t, step s = .next t ∧
    (t.blk.busy = false ∨ (t.blk.busy = true ∧ s.wait ≠ 0 ∧ t.wait = s.wait - 1)) := by
  obtain ⟨t, hstep⟩ := machineNeverStops s
  refine ⟨t, hstep, ?_⟩
  by_cases hturn : s.wait = 0 ∨ s.ops = []
  · exact .inl (completionStep_idle ((step_sequencer hb hturn).symm.trans hstep))
  · obtain ⟨hwait, hops⟩ := not_or.mp hturn
    obtain ⟨op, rest, hcons⟩ := List.exists_cons_of_ne_nil hops
    cases (step_host (.inr hwait) hcons).symm.trans hstep
    exact (hostStep_pending hb op rest).imp_right fun ⟨hbusy, hless⟩ => ⟨hbusy, hwait, hless⟩

theorem core_run_succ {s t : State} (h : step s = .next t) (n : Nat) :
    Sys2Proof.core.run (n + 1) s = Sys2Proof.core.run n t := by
  have hcore : Sys2Proof.core.step s = .next t := h
  simp only [Host.Core.run, hcore]

/-- A pending command ends within one step more than the free count (R292). -/
theorem run_completes (n : Nat) : ∀ s : State, s.blk.busy = true → s.wait = n →
    ∃ m t, m ≤ n + 1 ∧ Sys2Proof.core.run m s = .next t ∧ t.blk.busy = false := by
  induction n with
  | zero =>
    intro s hb hwait
    obtain ⟨t, hstep, hdone | ⟨-, hmore, -⟩⟩ := step_pending hb
    · exact ⟨1, t, le_rfl, core_run_succ hstep 0, hdone⟩
    · exact absurd hwait hmore
  | succ n ih =>
    intro s hb hwait
    obtain ⟨t, hstep, hdone | ⟨hbusy, -, hless⟩⟩ := step_pending hb
    · exact ⟨1, t, by omega, core_run_succ hstep 0, hdone⟩
    · obtain ⟨m, u, hm, hrun, hdone⟩ := ih t hbusy (by omega)
      exact ⟨m + 1, u, by omega, (core_run_succ hstep m).trans hrun, hdone⟩

/-- A read of STATUS of an idle block shows BUSY = 0, which is what POLL waits for (10_state.md R25, 30_encoding.md R104). -/
theorem status_passes_poll {s : State} {o : Offset} (hr : regAt o = some .status) (hb : s.blk.busy = false) :
    hostReadValue o s &&& 1#32 = 0#32 := by
  have hread : hostReadValue o s = statusWord s.blk := hostReadValue_of_readsWhileBusy hr rfl s
  obtain ⟨hbusy, -⟩ := statusWordBits s.blk
  rw [hread, BitVec.and_one_eq_setWidth_ofBool_getLsbD, hbusy, hb]
  decide

theorem showsIdle_of_status {s : State} {o : Offset} (hr : regAt o = some .status) (hb : s.blk.busy = false) :
    showsIdle o s = true := by
  simp [showsIdle, hr, hb]

/-- A read of STATUS of an idle block, by RD or by POLL, leaves the queue and synchronises the host. -/
theorem step_readStatus {s : State} {o : Offset} {rest : List HostOp}
    (hops : s.ops = .read o :: rest ∨ s.ops = .readUntil o 1#32 0#32 :: rest) (hr : regAt o = some .status)
    (hb : s.blk.busy = false) : step s = .next (hostRead o (takeOp rest s)) := by
  rcases hops with hops | hops
  · exact step_host (.inl hb) hops
  · rw [step_host (.inl hb) hops, hostStep, if_pos (status_passes_poll hr hb)]

/-- The block after the pending command's completion is that of the sequencer's step, where the host has nothing left to do. -/
theorem step_completedBlock {s : State} (hb : s.blk.busy = true) (hops : s.ops = []) :
    ∃ t, step s = .next t ∧ completedBlock s = t.blk := by
  obtain ⟨t, hstep⟩ := machineNeverStops s
  have hcompletion := (step_sequencer hb (.inr hops)).symm.trans hstep
  exact ⟨t, hstep, by rw [completedBlock, hcompletion]⟩

/-- Settles O58: the free count bounds the time to a completion; the end of a run is free in the results of a command alone, and
in whether it has completed. -/
theorem commandsCompleteAndRunsEnd : Obligations.CommandsCompleteAndRunsEnd := by
  refine ⟨fun s hb => ?completes, fun s o v rest hops hr hb => ?issued, fun s o rest hops hr hb => ?synchronised,
    fun s hops => ?running, fun s hops hsynced => ?ended, fun s i hops hsynced hdecode => ?undetermined⟩
  case completes => exact run_completes s.wait s hb rfl
  case issued => exact ⟨_, step_issue hops hr hb, rfl⟩
  case synchronised =>
    refine ⟨_, step_readStatus hops hr hb, rfl, rfl, ?_⟩
    rw [hostRead_synced, showsIdle_of_status (s := takeOp rest s) hr hb, Bool.or_true]
  case running => simp [endBlock, hops]
  case ended => simp [endBlock, hops, hsynced]
  case undetermined =>
    have hend : endBlock s = some (undeterminedEnd s) := by simp [endBlock, hops, hsynced]
    rcases undeterminedEnd_cases hdecode with hfree | ⟨hb, hfree⟩
    · exact ⟨s.blk, _, hend, hfree ▸ freeResults_same _ _ _, .inl rfl⟩
    · exact ⟨completedBlock s, _, hend, hfree ▸ freeResults_same _ _ _, .inr ⟨hb, step_completedBlock hb hops⟩⟩

end Sys2Proof.Machine
end

section
/-! The source's example of one sample (95_test_vectors.md V-I1, E9), whose heading is +0.0, so that the cosine is 1.0 and the sine
+0.0 whatever the two functions are elsewhere. -/
namespace Sys2Proof.Machine

/-- A product of two finite values as one evaluation, whatever it draws. -/
theorem fmul_eq_of_zero_draw (k : Nat) {a b r : F64} (ha : f64IsFinite a = true) (hb : f64IsFinite b = true)
    (h : fmul 0 a b = r) : fmul k a b = r := by
  rw [fmul_finite k ha hb, ← fmul_finite 0 ha hb, h]

theorem fadd_eq_of_zero_draw (k : Nat) {a b r : F64} (ha : f64IsFinite a = true) (hb : f64IsFinite b = true)
    (h : fadd 0 a b = r) : fadd k a b = r := by
  rw [fadd_finite k ha hb, ← fadd_finite 0 ha hb, h]

/-- The example's distance, 3600 * K * 1000, in its two roundings (43_integrator.md R192). -/
theorem dist_example (k : Nat) : dist k 0x40AC200000000000#64 0x408F400000000000#64 = 0x408F466666666666#64 := by
  have hrate : fmul k 0x40AC200000000000#64 mphFactor = 0x3FF00346DC5D6388#64 :=
    fmul_eq_of_zero_draw k (by decide) (by decide) (by decide +kernel)
  rw [dist, hrate]
  exact fmul_eq_of_zero_draw _ (by decide) (by decide) (by decide +kernel)

/-- A step of the example: the angle +0.0 leaves the heading +0.0, and the distance goes into x alone. -/
theorem trackStep_example (k i : Nat) {c : Track} (htheta : c.theta = 0#64) (hx : c.x = 0#64) (hy : c.y = 0#64) :
    (trackStep k 0x40AC200000000000#64 0x408F400000000000#64 0#64 i c).theta = 0#64 ∧
    (trackStep k 0x40AC200000000000#64 0x408F400000000000#64 0#64 i c).x = 0x408F466666666666#64 ∧
    (trackStep k 0x40AC200000000000#64 0x408F400000000000#64 0#64 i c).y = 0#64 := by
  have hrad : deg2rad k 0#64 = 0#64 := fmul_eq_of_zero_draw k (by decide) (by decide) (by decide +kernel)
  have hheading : fadd (k + 3) 0#64 0#64 = 0#64 := fadd_posZero_zero _ (by decide)
  have hcos : cos64 0#64 = f64One := if_pos (by decide)
  have hsin : sin64 0#64 = 0#64 := if_pos (by decide)
  have hdx : fmul (k + 4) 0x408F466666666666#64 f64One = 0x408F466666666666#64 :=
    fmul_eq_of_zero_draw _ (by decide) (by decide) (by decide +kernel)
  have hdy : fmul (k + 6) 0x408F466666666666#64 0#64 = 0#64 :=
    fmul_eq_of_zero_draw _ (by decide) (by decide) (by decide +kernel)
  simp only [trackStep, htheta, hx, hy, hrad, hheading, hcos, hsin, dist_example, hdx, hdy]
  exact ⟨trivial, fadd_eq_of_zero_draw _ (by decide) (by decide) (by decide +kernel), fadd_posZero_zero _ (by decide)⟩

/-- Settles O29: INTEGRATE runs over one sample, whose step is the example's. -/
theorem singleSampleExample : Obligations.SingleSampleExample := by
  intro s hspd htim hang hdepth hspeed htime hangle
  have hlen : s.blk.spd.len.toNat = 1 := by rw [hspd]; rfl
  have haligned : SamplesAligned s.blk := ⟨htim.trans hspd.symm, hang.trans hspd.symm, hlen.trans_le hdepth⟩
  obtain ⟨htheta, hx, hy⟩ := trackStep_example (s.draws + 8 * 0) 0 (c := trackStart s.blk) rfl rfl rfl
  have hstep : trackLoop s.blk s.draws 1 = trackStep (s.draws + 8 * 0) 0x40AC200000000000#64 0x408F400000000000#64 0#64 0
      (trackStart s.blk) := by
    rw [trackLoop, Memory.read_of_get? .smSpd hspeed, Memory.read_of_get? .smTim htime, Memory.read_of_get? .smAng hangle]
    rfl
  rw [← hstep] at htheta hx hy
  refine ⟨_, execIntegrate_ok haligned, ?xm, ?ym, ?theta⟩
  case xm => exact (get?_trackLoop_xm ..).trans ((if_pos (by omega)).trans (congrArg some hx))
  case ym => exact (get?_trackLoop_ym ..).trans ((if_pos (by omega)).trans (congrArg some hy))
  case theta => exact (congrArg (fun n => (trackLoop s.blk s.draws n).theta) hlen).trans htheta

end Sys2Proof.Machine
end
